-- ==== Sys2Proof/Word.lean ====
section
/-! DEFINITION. The word types of the block, the bit strings of spec rule R15 and the decode mode of rule R91. -/

namespace Sys2Proof

/-- A register value, host address or length: 64 bits (R13). -/
abbrev Word := BitVec 64

/-- One byte of host memory, of the chunk store, or of a stream (R77). -/
abbrev Byte := BitVec 8

/-- A bit string of `len` bits whose value is `val`, first bit most significant: the pair `(d, p)` of R15.
Codes, and the nodes of the code tree, are bit strings. -/
structure BitString where
  len : Nat
  val : Nat
  deriving DecidableEq, Repr

/-- The mode operand `m` of format M (R91): 0 Resumable, 1 Final. -/
inductive DecMode where
  | resumable
  | final
  deriving DecidableEq, Repr

/-- The unsigned value of the mode operand (R92). -/
def DecMode.bit : DecMode → Bool
  | .resumable => false
  | .final => true

end Sys2Proof
end

