-- ==== Sys2Proof/Syntax.lean ====
section
/-! DEFINITION. The instructions of the block: the 13 command words of R93 and the two bus operations of R123 and R124,
one constructor per row of the opcode table. -/

namespace Sys2Proof

inductive Instr where
  /-- R120: no operation. -/
  | nop
  /-- R121: clear the command-error record. -/
  | clrErr
  /-- R122: reset the block. -/
  | softReset
  /-- R140: start an encode. -/
  | encInit
  /-- R141: append the code of byte `b`. -/
  | encSym (b : Byte)
  /-- R142: pad the last partial byte and emit it. -/
  | encFlush
  /-- R143: encode a whole buffer. -/
  | encRun
  /-- R174: start a decode. -/
  | decInit
  /-- R175: feed nibble `n`. -/
  | decNib (n : BitVec 4)
  /-- R176: feed byte `b`, high nibble first. -/
  | decByte (b : Byte)
  /-- R177: the Final-mode end-of-input check. -/
  | decEnd
  /-- R178: decode a whole input chunk in mode `m`. -/
  | decRun (m : DecMode)
  /-- R214: recycle the chunk chain, keeping `k` chunks. -/
  | sinkReset (k : BitVec 24)
  /-- R123: a bus read of `width` bits at `BLOCK_BASE + off`. -/
  | rd (width : Nat) (off : BitVec 12)
  /-- R124: a bus write of `width` bits of `v` at `BLOCK_BASE + off`. -/
  | wr (width : Nat) (off : BitVec 12) (v : Word)
  deriving DecidableEq, Repr

end Sys2Proof
end

