-- ==== Sys2Proof/WellFormed.lean ====
section
/-! DEFINITION. Which instructions are inside the interface: every command is (its operand types are exactly the operand
bits of R91); a bus operation is when it is a naturally aligned 64-bit access (R74). -/

namespace Sys2Proof

/-- R74: the only defined access width. -/
def accessWidthOk (width : Nat) : Bool := width == 64

/-- R74: natural alignment of a 64-bit access, as an offset from the 4096-aligned base. -/
def offsetAligned (off : BitVec 12) : Bool := off.toNat % 8 == 0

/-- Inside the interface of the block (R74, R91). -/
def Instr.wf : Instr → Bool
  | .nop => true
  | .clrErr => true
  | .softReset => true
  | .encInit => true
  | .encSym _ => true
  | .encFlush => true
  | .encRun => true
  | .decInit => true
  | .decNib _ => true
  | .decByte _ => true
  | .decEnd => true
  | .decRun _ => true
  | .sinkReset _ => true
  | .rd width off => accessWidthOk width && offsetAligned off
  | .wr width off _ => accessWidthOk width && offsetAligned off

/-- A command of R93, as opposed to a bus operation. -/
def Instr.isCommand : Instr → Bool
  | .nop => true
  | .clrErr => true
  | .softReset => true
  | .encInit => true
  | .encSym _ => true
  | .encFlush => true
  | .encRun => true
  | .decInit => true
  | .decNib _ => true
  | .decByte _ => true
  | .decEnd => true
  | .decRun _ => true
  | .sinkReset _ => true
  | .rd _ _ => false
  | .wr _ _ _ => false

end Sys2Proof
end

