-- ==== Sys2Proof/Decode.lean ====
section
/-! DEFINITION. The decoder of a value written to CMD (R90-R95), total on any 64-bit value and rejecting by name, and
the encoder, both over the one opcode map of R93. -/

namespace Sys2Proof

/-- Why a value written to CMD is no legal command word (R94). -/
inductive DecodeError where
  /-- CMD bits [63:32] are not all 0. -/
  | highBitsSet
  /-- OPC is not in the table of R93. -/
  | undefinedOpcode
  /-- An IMM bit that the format requires to be 0 is 1. -/
  | reservedImmediate
  deriving DecidableEq, Repr

/-- The formats of R91. -/
inductive Format where
  | N
  | B
  | Q
  | M
  | K
  deriving DecidableEq, Repr

/-- OPC, bits [31:24] of the command word (R90). -/
def opcField (w : Word) : BitVec 8 := w.extractLsb' 24 8

/-- IMM, bits [23:0] of the command word (R90). -/
def immField (w : Word) : BitVec 24 := w.extractLsb' 0 24

/-- The operand bits of IMM in each format (R91, R95). -/
def opmask : Format → BitVec 24
  | .N => 0x000000#24
  | .B => 0x0000FF#24
  | .Q => 0x00000F#24
  | .M => 0x000001#24
  | .K => 0xFFFFFF#24

/-- The format of each defined opcode (R93); none: the opcode is undefined. -/
def formatOf (opc : BitVec 8) : Option Format :=
  match opc.toNat with
  | 0x00 => some .N
  | 0x01 => some .N
  | 0x02 => some .N
  | 0x10 => some .N
  | 0x11 => some .B
  | 0x12 => some .N
  | 0x13 => some .N
  | 0x20 => some .N
  | 0x21 => some .Q
  | 0x22 => some .B
  | 0x23 => some .N
  | 0x24 => some .M
  | 0x30 => some .K
  | _ => none

/-- The mode operand, IMM[0] (R91). -/
def modeOfImm (imm : BitVec 24) : DecMode := if imm.getLsbD 0 then .final else .resumable

/-- The command a defined opcode names, its operand assembled from IMM (R92, R93). -/
def commandOf (opc : BitVec 8) (imm : BitVec 24) : Option Instr :=
  match opc.toNat with
  | 0x00 => some .nop
  | 0x01 => some .clrErr
  | 0x02 => some .softReset
  | 0x10 => some .encInit
  | 0x11 => some (.encSym (imm.extractLsb' 0 8))
  | 0x12 => some .encFlush
  | 0x13 => some .encRun
  | 0x20 => some .decInit
  | 0x21 => some (.decNib (imm.extractLsb' 0 4))
  | 0x22 => some (.decByte (imm.extractLsb' 0 8))
  | 0x23 => some .decEnd
  | 0x24 => some (.decRun (modeOfImm imm))
  | 0x30 => some (.sinkReset imm)
  | _ => none

/-- Every IMM bit outside the operand is 0 (R91, R95). -/
def immLegal (f : Format) (imm : BitVec 24) : Bool := imm &&& ~~~(opmask f) == 0#24

/-- Decode a value written to CMD: the checks of R95, then the row of R93. -/
def decode (w : Word) : Except DecodeError Instr :=
  if w.extractLsb' 32 32 = 0#32 then
    match formatOf (opcField w) with
    | none => .error .undefinedOpcode
    | some f =>
      if immLegal f (immField w) then
        match commandOf (opcField w) (immField w) with
        | none => .error .undefinedOpcode
        | some i => .ok i
      else .error .reservedImmediate
  else .error .highBitsSet

/-- The command word with opcode `opc` and immediate `imm`, as the 64-bit value written to CMD (R90). -/
def commandWord (opc : BitVec 8) (imm : BitVec 24) : Word := (0#32 ++ (opc ++ imm)).setWidth 64

/-- The mode operand as IMM (R91). -/
def immOfMode (m : DecMode) : BitVec 24 :=
  match m with
  | .resumable => 0#24
  | .final => 1#24

/-- The value written to CMD that stands for a command (R93); a bus operation is no command word. -/
def encode : Instr → Option Word
  | .nop => some (commandWord 0x00#8 0#24)
  | .clrErr => some (commandWord 0x01#8 0#24)
  | .softReset => some (commandWord 0x02#8 0#24)
  | .encInit => some (commandWord 0x10#8 0#24)
  | .encSym b => some (commandWord 0x11#8 (b.setWidth 24))
  | .encFlush => some (commandWord 0x12#8 0#24)
  | .encRun => some (commandWord 0x13#8 0#24)
  | .decInit => some (commandWord 0x20#8 0#24)
  | .decNib n => some (commandWord 0x21#8 (n.setWidth 24))
  | .decByte b => some (commandWord 0x22#8 (b.setWidth 24))
  | .decEnd => some (commandWord 0x23#8 0#24)
  | .decRun m => some (commandWord 0x24#8 (immOfMode m))
  | .sinkReset k => some (commandWord 0x30#8 k)
  | .rd _ _ => none
  | .wr _ _ _ => none

/-- The command word of `nbits` bits and value `w`, as the opcode table numbers them, given to the decoder. -/
def decodeTableWord (nbits w : Nat) : Option Instr :=
  match decode (BitVec.ofNat 64 (w % 2 ^ nbits)) with
  | .ok i => some i
  | .error _ => none

end Sys2Proof
end

