-- ==== Sys2Proof/Config.lean ====
section
/-! DEFINITION. What an implementation or a platform fixes (R12, R74) and the free values of R83. Each `opaque`
constant has no body: nothing can evaluate it, so a theorem about it holds for every value. -/

namespace Sys2Proof.Config

/-- CHUNK_SIZE - 1, OPEN (R12, D19): CHUNK_SIZE is 1 .. 2^32 - 1. -/
opaque chunkSizeLessOne : Fin 4294967295

/-- MAX_CHUNKS - 1, OPEN (R12, D19): MAX_CHUNKS is 1 .. 65535. -/
opaque maxChunksLessOne : Fin 65535

/-- Bits [63:12] of BLOCK_BASE, OPEN (R74, D26): the base is aligned to 4096. -/
opaque blockPage : BitVec 52

/-- The byte the block reads at an address another agent touches during access number `epoch` (R83: any value). -/
opaque racedRead : Nat → Word → Byte

/-- The byte left at an address another agent touches during access number `epoch` (R83: any value). -/
opaque racedLeft : Nat → Word → Byte

/-- CHUNK_SIZE as the PARAM register shows it (R22). -/
def chunkSize : BitVec 32 := BitVec.ofNat 32 (chunkSizeLessOne.val + 1)

/-- MAX_CHUNKS as the PARAM register shows it (R22). -/
def maxChunks : BitVec 16 := BitVec.ofNat 16 (maxChunksLessOne.val + 1)

end Sys2Proof.Config
end

