-- ==== Sys2Proof/Machine/State.lean ====
section
/-! DEFINITION. The state of the block and of its host interface, as plain data, and its value at reset (R20, R270). -/

namespace Sys2Proof.Machine

/-- Why a step could stop the machine: nothing does (R240: no error transfers control or stops the block; R246: there
is no trap), so there is no constructor. -/
inductive Fault where
  deriving DecidableEq, Repr

/-- Why the model answers no meaning. -/
inductive Refusal where
  /-- Raised by `exec` for an instruction that has no meaning yet. Safe: the model stops. -/
  | notModelled (mnemonic : String)
  /-- Raised by RD and WR for an access that is not 64 bits wide (R74, I9). Safe: the model stops. -/
  | accessWidth
  /-- Raised by RD and WR for an offset that is not a multiple of 8 (R74, I9). Safe: the model stops. -/
  | misalignedAccess
  /-- Raised by `step` for a bus cycle whose address is outside BLOCK_BASE's page: the block is not addressed
  (R74; log 13). Safe: the model stops. -/
  | unselectedAddress
  deriving DecidableEq, Repr

/-- SINK_CFG.MODE (R38). -/
inductive SinkMode where
  | fixed
  | chain
  deriving DecidableEq, Repr

/-- DEC_STATUS.CODE: 0, 1, 2, 3 in this order (R53). -/
inductive DecCode where
  | ok
  | overflow
  | invalidCode
  | truncatedInput
  deriving DecidableEq, Repr

/-- The registers of R20, by name. -/
inductive Reg where
  | id | param | cmd | cmdStatus | errCmd
  | sinkCfg | chainCount | chainCur | chainLen | chainRaddr | chainRdata
  | encSrc | encLen | encDst | encCap | encCount | encAcc | encNbits | encStatus | encResult
  | decSrc | decLen | decDst | decCap | decCount | decConsumed | decState | decStatus | decResult
  deriving DecidableEq, Repr

/-- A register access as the block sees it: an offset from BLOCK_BASE (R74, R123, R124). -/
inductive RegAccess where
  | read (width : Nat) (off : BitVec 12)
  | write (width : Nat) (off : BitVec 12) (v : Word)
  deriving DecidableEq, Repr

/-- One input of the block's surroundings. -/
inductive HostEvent where
  /-- The host performs a register access; `raced` lists the host-memory addresses other agents touch while it
  runs (R83). -/
  | access (a : RegAccess) (raced : List Word)
  /-- The host performs a bus read of `width` bits at the full host address `addr` (R74). -/
  | busRead (width : Nat) (addr : Word) (raced : List Word)
  /-- The host performs a bus write of `width` bits of `v` at the full host address `addr` (R74). -/
  | busWrite (width : Nat) (addr : Word) (v : Word) (raced : List Word)
  /-- The host, or another agent, stores a byte to host memory between accesses (R82); host memory takes it at every
  address, those of the register window included (DESIGN CHOICE, log 21). -/
  | store (addr : Word) (v : Byte)
  /-- The platform asserts the reset input between accesses (R270). -/
  | reset
  deriving DecidableEq, Repr

/-- The whole machine: the register fields of R20, the chunk chain (R39) and chunk store (R72), host memory (R70), and
the model's own record of the host's side (`readData`, `pending`, `raced`, `epoch`). -/
structure State where
  /-- CODE_TABLE (R10, R23): a build parameter; no step changes it. -/
  codes : CodeTable
  /-- PARAM.CHUNK_SIZE (R22); no step changes it. -/
  chunkSize : BitVec 32
  /-- PARAM.MAX_CHUNKS (R22); no step changes it. -/
  maxChunks : BitVec 16
  /-- BLOCK_BASE bits [63:12] (R74); no step changes it. -/
  blockPage : BitVec 52
  /-- CMD_STATUS.ILL (R36). -/
  ill : Bool
  /-- ERR_CMD (R37). -/
  errCmd : Word
  /-- SINK_CFG.MODE (R38). -/
  sinkMode : SinkMode
  /-- FILL[0], FILL[1], ...; its length is CHAIN_COUNT (R39). -/
  chainFill : List Nat
  /-- CHAIN_CUR (R39). -/
  chainCur : Option Nat
  /-- CHAIN_RADDR (R41). -/
  chainRaddr : Word
  /-- ENC_SRC (R30). -/
  encSrc : Word
  /-- ENC_LEN (R30). -/
  encLen : Word
  /-- ENC_DST (R30). -/
  encDst : Word
  /-- ENC_CAP (R30). -/
  encCap : Word
  /-- ENC_COUNT (R31). -/
  encCount : Word
  /-- ENC_ACC (R32). -/
  encAcc : Word
  /-- ENC_NBITS (R32). -/
  encNbits : BitVec 6
  /-- ENC_STATUS.OVF (R34). -/
  encOvf : Bool
  /-- ENC_RESULT (R35). -/
  encResult : Word
  /-- DEC_SRC (R56). -/
  decSrc : Word
  /-- DEC_LEN (R56). -/
  decLen : Word
  /-- DEC_DST (R56). -/
  decDst : Word
  /-- DEC_CAP (R56). -/
  decCap : Word
  /-- DEC_COUNT (R52). -/
  decCount : Word
  /-- DEC_CONSUMED (R52). -/
  decConsumed : Word
  /-- DEC_STATE.NODE, the resumption token (R50). -/
  decNode : BitVec 8
  /-- DEC_STATUS.CODE (R53). -/
  decCode : DecCode
  /-- DEC_RESULT (R54). -/
  decResult : Word
  /-- Host memory (R70): cells at rising addresses, none equal to what an unlisted address reads as. -/
  mem : List Host.Cell
  /-- The chunk store (R72), in the same form; byte j of chunk i has key `i * CHUNK_SIZE + j`. -/
  store : List Host.Cell
  /-- The model's own: the value the last RD returned to the host (R123). -/
  readData : Word
  /-- The model's own: what the host and the platform do next, first event first (R257). -/
  pending : List HostEvent
  /-- The model's own: the addresses other agents touch while the running access executes (R83). -/
  raced : List Word
  /-- The model's own: how many register accesses have run, the argument of the free values of R83. -/
  epoch : Nat
  deriving DecidableEq, Repr

/-- The machine right after reset: every register at the reset column of R20, the chain empty (R270), host memory and
the chunk store with nothing listed, nothing pending. -/
def State.reset : State where
  codes := codeTable
  chunkSize := Config.chunkSize
  maxChunks := Config.maxChunks
  blockPage := Config.blockPage
  ill := false
  errCmd := 0#64
  sinkMode := .fixed
  chainFill := []
  chainCur := none
  chainRaddr := 0#64
  encSrc := 0#64
  encLen := 0#64
  encDst := 0#64
  encCap := 0#64
  encCount := 0#64
  encAcc := 0#64
  encNbits := 0#6
  encOvf := false
  encResult := 0#64
  decSrc := 0#64
  decLen := 0#64
  decDst := 0#64
  decCap := 0#64
  decCount := 0#64
  decConsumed := 0#64
  decNode := 0#8
  decCode := .ok
  decResult := 0#64
  mem := []
  store := []
  readData := 0#64
  pending := []
  raced := []
  epoch := 0

end Sys2Proof.Machine
end

