-- ==== Sys2Proof/Machine/Ops.lean ====
section
/-! DEFINITION. The named operations over memory and registers: host memory (R70-R73, R83), the chunk store and chain
(R39, R40, R72, R212), the two byte sinks (R210, R213), raising an error (R240-R243) and resetting the block (R270). -/

namespace Sys2Proof.Machine

/-! ## Cells -/

/-- A byte-addressed memory: cells at strictly rising addresses, none equal to what an unlisted address reads as. -/
abbrev Memory := List Host.Cell

/-- What an address that is not listed reads as (DESIGN CHOICE, log 7 and log 8). -/
def unlistedByte : Byte := 0#8

/-- Read one byte. -/
def readCell : Memory → Nat → Byte
  | [], _ => unlistedByte
  | (k, v) :: rest, a => if k = a then v else readCell rest a

/-- Write one byte, keeping the canonical form. -/
def writeCell : Memory → Nat → Byte → Memory
  | [], a, v => if v = unlistedByte then [] else [(a, v)]
  | (k, w) :: rest, a, v =>
    if a < k then
      if v = unlistedByte then (k, w) :: rest else (a, v) :: (k, w) :: rest
    else if a = k then
      if v = unlistedByte then rest else (a, v) :: rest
    else (k, w) :: writeCell rest a v

/-- The cells' addresses are at least `lo` and strictly rise, and no cell holds the unlisted byte. -/
def cellsFrom : Nat → Memory → Bool
  | _, [] => true
  | lo, (k, v) :: rest => decide (lo ≤ k) && v != unlistedByte && cellsFrom (k + 1) rest

/-- The canonical form of a memory. -/
def Memory.wf (m : Memory) : Bool := cellsFrom 0 m

/-- Every listed address is below `bound`. -/
def Memory.within (bound : Nat) (m : Memory) : Bool := m.all (fun c => decide (c.1 < bound))

/-! ## Host memory -/

/-- `MemRead(addr, 1)` (R70, R79). A byte another agent touches while the access runs is any value (R83; log 4). -/
def hostRead (s : State) (addr : Word) : Byte :=
  if s.raced.contains addr then Config.racedRead s.epoch addr else readCell s.mem addr.toNat

/-- `MemWrite(addr, 1, v)` (R70). -/
def hostWrite (addr : Word) (v : Byte) (s : State) : State :=
  { s with mem := writeCell s.mem addr.toNat v }

/-! ## The chunk chain -/

/-- CHUNK_SIZE as a number (R12). -/
def chunkBytes (s : State) : Nat := s.chunkSize.toNat

/-- FILL[i] (R39); an index with no FILL, which no run reaches, counts as empty (log 10). -/
def fillOf (s : State) (i : Nat) : Nat := s.chainFill.getD i 0

/-- CHAIN_LEN (R40). -/
def chainLen (s : State) : Nat :=
  match s.chainCur with
  | none => 0
  | some c => c * chunkBytes s + fillOf s c

/-- Byte `j` of chunk `i` of the chunk store (R72). -/
def chunkRead (s : State) (i j : Nat) : Byte := readCell s.store (i * chunkBytes s + j)

/-- `ChunkWrite(i, j, v)` (R72). -/
def chunkWrite (i j : Nat) (v : Byte) (s : State) : State :=
  { s with store := writeCell s.store (i * chunkBytes s + j) v }

/-- Byte `k` of the chain's stream, or 0 beyond its length (R41). -/
def chainByte (s : State) (k : Nat) : Byte :=
  if k < chainLen s then chunkRead s (k / chunkBytes s) (k % chunkBytes s) else 0#8

/-- Move the cursor to chunk `nxt`, which exists already or is allocated below the ceiling (R212); none: overflow. -/
def chainAdvance (nxt : Nat) (s : State) : Option State :=
  if nxt < s.chainFill.length then some { s with chainCur := some nxt }
  else if s.chainFill.length < s.maxChunks.toNat then
    some { s with chainFill := s.chainFill ++ [0], chainCur := some nxt }
  else none

/-- `ChainEnsure()` (R212): room for one byte at the cursor; none: overflow. -/
def chainEnsure (s : State) : Option State :=
  match s.chainCur with
  | none => chainAdvance 0 s
  | some c => if fillOf s c < chunkBytes s then some s else chainAdvance (c + 1) s

/-- Append `v` at the cursor, after `chainEnsure` (R210, the three writes of the chain branch). -/
def chainPut (v : Byte) (s : State) : State :=
  match s.chainCur with
  | none => s
  | some c =>
    { chunkWrite c (fillOf s c) v s with
      chainFill := s.chainFill.set c (fillOf s c + 1)
      encCount := s.encCount + 1#64 }

/-! ## Sinks -/

/-- `SinkAppend(v)` (R210); none: overflow, with nothing changed (R211). -/
def sinkAppend (v : Byte) (s : State) : Option State :=
  match s.sinkMode with
  | .fixed =>
    if s.encCap ≤ s.encCount then none
    else some { hostWrite (s.encDst + s.encCount) v s with encCount := s.encCount + 1#64 }
  | .chain =>
    match chainEnsure s with
    | none => none
    | some t => some (chainPut v t)

/-- `DecOut(v)` (R213); none: overflow, with nothing changed. -/
def decOut (v : Byte) (s : State) : Option State :=
  if s.decCap ≤ s.decCount then none
  else some { hostWrite (s.decDst + s.decCount) v s with decCount := s.decCount + 1#64 }

/-! ## Errors -/

/-- The errors of R241. -/
inductive BlockError where
  | encOverflow
  | decOverflow
  | invalidCode
  | truncatedInput
  | illegalCommand (w : Word)
  deriving DecidableEq, Repr

/-- `raise E` (R240): write the status field the rule names, and nothing else; no error transfers control. An illegal
command is recorded in ERR_CMD only while ILL is 0 (R243). -/
def raiseError (e : BlockError) (s : State) : State :=
  match e with
  | .encOverflow => { s with encOvf := true }
  | .decOverflow => { s with decCode := .overflow }
  | .invalidCode => { s with decCode := .invalidCode }
  | .truncatedInput => { s with decCode := .truncatedInput }
  | .illegalCommand w => { s with errCmd := if s.ill then s.errCmd else w, ill := true }

/-- The recovery from an illegal command (R121, R247). -/
def clearCommandError (s : State) : State := { s with ill := false, errCmd := 0#64 }

/-! ## Reset -/

/-- Reset (R270): every register to its reset value and the chain emptied. Host memory is not touched; the parameters
are constants; the chunk store's bytes are left as they are (R273; log 8); the host's side is not the block's. -/
def resetBlock (s : State) : State :=
  { State.reset with
    codes := s.codes
    chunkSize := s.chunkSize
    maxChunks := s.maxChunks
    blockPage := s.blockPage
    mem := s.mem
    store := s.store
    readData := s.readData
    pending := s.pending
    raced := s.raced
    epoch := s.epoch }

end Sys2Proof.Machine
end

