-- ==== Sys2Proof/Machine/Flags.lean ====
section
/-! DEFINITION. The flags of R58 and how each is computed: ACCEPT and DEPTH from the node (R50, R55), the numbers of
DEC_STATUS.CODE and the results they give (R53, R54, R241), the tests that gate the engines (R34, R53). -/

namespace Sys2Proof.Machine

/-- `accepting(node)` (R55): at most 7 bits, all 1. -/
def accepting (x : BitString) : Bool := decide (x.len ≤ 7) && x.val == 2 ^ x.len - 1

/-- DEC_STATE.ACCEPT (R50): a function of NODE. -/
def acceptFlag (s : State) : Bool := accepting (nodeAt s.codes s.decNode)

/-- DEC_STATE.DEPTH (R50): the depth of the node, 0 .. 29. -/
def depthField (s : State) : BitVec 5 := BitVec.ofNat 5 (nodeAt s.codes s.decNode).len

/-- The number of a decoder status code (R53, R241). -/
def codeNumber : DecCode → Nat
  | .ok => 0
  | .overflow => 1
  | .invalidCode => 2
  | .truncatedInput => 3

/-- `-DEC_STATUS.CODE` as DEC_RESULT shows it (R54, R178). -/
def resultOfCode (c : DecCode) : Word := -(BitVec.ofNat 64 (codeNumber c))

/-- The result of an overflowing ENC_RUN, -1 (R35). -/
def overflowResult : Word := -(1#64)

/-- DEC_STATUS.CODE = 0: the decoder's commands act (R53, R179). -/
def decReady (s : State) : Bool := s.decCode == .ok

/-- SINK_CFG.MODE as its bit (R38). -/
def modeBit : SinkMode → Bool
  | .fixed => false
  | .chain => true

/-- The mode a SINK_CFG bit selects (R38). -/
def modeOfBit : Bool → SinkMode
  | false => .fixed
  | true => .chain

end Sys2Proof.Machine
end

