-- ==== Sys2Proof/Machine/Control.lean ====
section
/-! DEFINITION. The control commands: NOP, CLR_ERR, SOFT_RESET (R120-R122). -/

namespace Sys2Proof.Machine

/-- NOP (R120). -/
def execNop (s : State) : Host.Outcome State Fault Refusal := .next s

/-- CLR_ERR (R121). -/
def execClrErr (s : State) : Host.Outcome State Fault Refusal := .next (clearCommandError s)

/-- SOFT_RESET (R122, R270). -/
def execSoftReset (s : State) : Host.Outcome State Fault Refusal := .next (resetBlock s)

end Sys2Proof.Machine
end

