-- ==== Sys2Proof/Machine/Operands.lean ====
section
/-! DEFINITION. The named registers of R20 as operands of the host's accesses: their offsets, what each reads as
(R21, R22, R40, R41, R50) and what a write to each does (R20, R124, R180). Immediate operands are assembled by the
decoder (R92). -/

namespace Sys2Proof.Machine

/-- The byte offset of each register from BLOCK_BASE (R20). -/
def regOffset : Reg → BitVec 12
  | .id => 0x000#12
  | .param => 0x008#12
  | .cmd => 0x010#12
  | .cmdStatus => 0x018#12
  | .errCmd => 0x020#12
  | .sinkCfg => 0x028#12
  | .chainCount => 0x030#12
  | .chainCur => 0x038#12
  | .chainLen => 0x040#12
  | .chainRaddr => 0x048#12
  | .chainRdata => 0x050#12
  | .encSrc => 0x080#12
  | .encLen => 0x088#12
  | .encDst => 0x090#12
  | .encCap => 0x098#12
  | .encCount => 0x0A0#12
  | .encAcc => 0x0A8#12
  | .encNbits => 0x0B0#12
  | .encStatus => 0x0B8#12
  | .encResult => 0x0C0#12
  | .decSrc => 0x100#12
  | .decLen => 0x108#12
  | .decDst => 0x110#12
  | .decCap => 0x118#12
  | .decCount => 0x120#12
  | .decConsumed => 0x128#12
  | .decState => 0x130#12
  | .decStatus => 0x138#12
  | .decResult => 0x140#12

/-- The registers of R20, in the order of its table. -/
def allRegs : List Reg :=
  [.id, .param, .cmd, .cmdStatus, .errCmd,
   .sinkCfg, .chainCount, .chainCur, .chainLen, .chainRaddr, .chainRdata,
   .encSrc, .encLen, .encDst, .encCap, .encCount, .encAcc, .encNbits, .encStatus, .encResult,
   .decSrc, .decLen, .decDst, .decCap, .decCount, .decConsumed, .decState, .decStatus, .decResult]

/-- The register at an offset; none: the offset is reserved (R74). -/
def regAt (off : BitVec 12) : Option Reg := allRegs.find? (fun r => regOffset r == off)

/-- ID: the bytes "HUFFCDC1" (R21). -/
def idValue : Word := 0x4855464643444331#64

/-- PARAM (R22): CHUNK_SIZE, MAX_CHUNKS, MAX_CODE_LEN, MIN_CODE_LEN from the top down. -/
def paramValue (s : State) : Word :=
  s.chunkSize ++ (s.maxChunks ++ (BitVec.ofNat 8 maxCodeLen ++ BitVec.ofNat 8 minCodeLen))

/-- CHAIN_CUR as it reads: all ones for none (R20). -/
def chainCurValue (s : State) : Word :=
  match s.chainCur with
  | none => 0xFFFFFFFFFFFFFFFF#64
  | some c => BitVec.ofNat 64 c

/-- DEC_STATE as it reads (R50): NODE in [7:0], ACCEPT in [8], DEPTH in [13:9]. -/
def decStateValue (s : State) : Word :=
  (depthField s ++ (BitVec.ofBool (acceptFlag s) ++ s.decNode)).setWidth 64

/-- What a register reads as, composed from its fields; reserved bits read 0 (R20, R123). -/
def regValue (r : Reg) (s : State) : Word :=
  match r with
  | .id => idValue
  | .param => paramValue s
  | .cmd => 0#64
  | .cmdStatus => (BitVec.ofBool s.ill).setWidth 64
  | .errCmd => s.errCmd
  | .sinkCfg => (BitVec.ofBool (modeBit s.sinkMode)).setWidth 64
  | .chainCount => BitVec.ofNat 64 s.chainFill.length
  | .chainCur => chainCurValue s
  | .chainLen => BitVec.ofNat 64 (chainLen s)
  | .chainRaddr => s.chainRaddr
  | .chainRdata => (chainByte s s.chainRaddr.toNat).setWidth 64
  | .encSrc => s.encSrc
  | .encLen => s.encLen
  | .encDst => s.encDst
  | .encCap => s.encCap
  | .encCount => s.encCount
  | .encAcc => s.encAcc
  | .encNbits => s.encNbits.setWidth 64
  | .encStatus => (BitVec.ofBool s.encOvf).setWidth 64
  | .encResult => s.encResult
  | .decSrc => s.decSrc
  | .decLen => s.decLen
  | .decDst => s.decDst
  | .decCap => s.decCap
  | .decCount => s.decCount
  | .decConsumed => s.decConsumed
  | .decState => decStateValue s
  | .decStatus => BitVec.ofNat 64 (codeNumber s.decCode)
  | .decResult => s.decResult

/-- The value at an offset: a reserved offset reads 0 (R74, R123). -/
def offsetValue (off : BitVec 12) (s : State) : Word :=
  match regAt off with
  | some r => regValue r s
  | none => 0#64

/-- `DecLoad(v)` (R180): load the resumption token `v` and start a new decode call from it. -/
def decLoad (node : BitVec 8) (s : State) : State :=
  { s with decNode := node, decCode := .ok, decCount := 0#64, decConsumed := 0#64 }

/-- A write of `v` to a register other than CMD (R124): RW registers keep the bits that are not reserved, DEC_STATE
loads a token, RO registers ignore the write. CMD stores nothing: its write is Dispatch (R125). -/
def regWrite (r : Reg) (v : Word) (s : State) : State :=
  match r with
  | .id => s
  | .param => s
  | .cmd => s
  | .cmdStatus => s
  | .errCmd => s
  | .sinkCfg => { s with sinkMode := modeOfBit (v.getLsbD 0) }
  | .chainCount => s
  | .chainCur => s
  | .chainLen => s
  | .chainRaddr => { s with chainRaddr := v }
  | .chainRdata => s
  | .encSrc => { s with encSrc := v }
  | .encLen => { s with encLen := v }
  | .encDst => { s with encDst := v }
  | .encCap => { s with encCap := v }
  | .encCount => s
  | .encAcc => s
  | .encNbits => s
  | .encStatus => s
  | .encResult => s
  | .decSrc => { s with decSrc := v }
  | .decLen => { s with decLen := v }
  | .decDst => { s with decDst := v }
  | .decCap => { s with decCap := v }
  | .decCount => s
  | .decConsumed => s
  | .decState => decLoad (v.extractLsb' 0 8) s
  | .decStatus => s
  | .decResult => s

end Sys2Proof.Machine
end

