-- ==== Sys2Proof/Machine/Decoder.lean ====
section
/-! DEFINITION. The transition function T (R170) and the decoder's commands: DEC_INIT, DEC_NIB, DEC_BYTE, DEC_END,
DEC_RUN (R174-R178). -/

namespace Sys2Proof.Machine

/-- What T answers (R170). -/
inductive Transition where
  | invalid
  | goes (node : BitString) (sym : Option Byte)
  deriving DecidableEq, Repr

/-- One more bit at the end of a bit string (R170). -/
def appendBit (x : BitString) (b : Bool) : BitString := ⟨x.len + 1, 2 * x.val + b.toNat⟩

/-- The loop of T (R170) over the bits still to feed, with the symbol completed so far. -/
def feedBits (codes : CodeTable) : List Bool → BitString → Option Byte → Transition
  | [], x, sym => .goes x sym
  | b :: rest, x, sym =>
    match symbolOf codes (appendBit x b) with
    | some s =>
      if s = eosSymbol then .invalid
      else
        match sym with
        | some _ => .invalid
        | none => feedBits codes rest rootNode (some (BitVec.ofNat 8 s))
    | none => if isNode codes (appendBit x b) then feedBits codes rest (appendBit x b) sym else .invalid

/-- The bits of a nibble, bit 3 first (R76). -/
def nibbleBits (n : BitVec 4) : List Bool := [n.getLsbD 3, n.getLsbD 2, n.getLsbD 1, n.getLsbD 0]

/-- `T(node, n)` (R170). -/
def transition (codes : CodeTable) (node : BitString) (n : BitVec 4) : Transition :=
  feedBits codes (nibbleBits n) node none

/-- The effect of DEC_INIT (R174). -/
def decStart (s : State) : State :=
  { s with decNode := 0#8, decCode := .ok, decCount := 0#64, decConsumed := 0#64 }

/-- The effect of DEC_NIB (R175): InvalidCode is tested before the output write (R245). -/
def nibStep (n : BitVec 4) (s : State) : State :=
  if decReady s then
    match transition s.codes (nodeAt s.codes s.decNode) n with
    | .invalid => raiseError .invalidCode s
    | .goes node none => { s with decNode := nodeIndex s.codes node }
    | .goes node (some b) =>
      match decOut b s with
      | none => raiseError .decOverflow s
      | some t => { t with decNode := nodeIndex s.codes node }
  else s

/-- The effect of DEC_BYTE (R176): the high nibble, the low nibble, then the count of whole bytes. -/
def byteStep (b : Byte) (s : State) : State :=
  let t := nibStep (b.extractLsb' 4 4) s
  if decReady t then
    let u := nibStep (b.extractLsb' 0 4) t
    if decReady u then { u with decConsumed := u.decConsumed + 1#64 } else u
  else t

/-- The effect of DEC_END (R177). -/
def endStep (s : State) : State :=
  if decReady s then
    if acceptFlag s then s else raiseError .truncatedInput s
  else s

/-- The loop of DEC_RUN (R178): `n` source bytes from index `i` on; it ends at an error. -/
def decLoop : Nat → Word → State → State
  | 0, _, s => s
  | n + 1, i, s =>
    let t := byteStep (hostRead s (s.decSrc + i)) s
    if decReady t then decLoop n (i + 1#64) t else t

/-- The effect of DEC_RUN (R178, R179). -/
def runDecoder (m : DecMode) (s : State) : State :=
  if decReady s then
    let t := decLoop s.decLen.toNat 0#64 { s with decCount := 0#64, decConsumed := 0#64 }
    let u := if m.bit then endStep t else t
    { u with decResult := if decReady u then u.decCount else resultOfCode u.decCode }
  else { s with decResult := resultOfCode s.decCode }

/-- DEC_INIT (R174). -/
def execDecInit (s : State) : Host.Outcome State Fault Refusal := .next (decStart s)

/-- DEC_NIB n (R175). -/
def execDecNib (n : BitVec 4) (s : State) : Host.Outcome State Fault Refusal := .next (nibStep n s)

/-- DEC_BYTE b (R176). -/
def execDecByte (b : Byte) (s : State) : Host.Outcome State Fault Refusal := .next (byteStep b s)

/-- DEC_END (R177). -/
def execDecEnd (s : State) : Host.Outcome State Fault Refusal := .next (endStep s)

/-- DEC_RUN m (R178). -/
def execDecRun (m : DecMode) (s : State) : Host.Outcome State Fault Refusal := .next (runDecoder m s)

end Sys2Proof.Machine
end

