-- ==== Sys2Proof/Machine/Encoder.lean ====
section
/-! DEFINITION. The encoder's commands: ENC_INIT, ENC_SYM, ENC_FLUSH, ENC_RUN (R140-R143). -/

namespace Sys2Proof.Machine

/-- The effect of ENC_INIT (R140). -/
def encStart (s : State) : State :=
  { s with encAcc := 0#64, encNbits := 0#6, encCount := 0#64, encOvf := false }

/-- Append the bits of a code to the accumulator (R141). -/
def pushCode (c : BitString) (s : State) : State :=
  { s with
    encAcc := (s.encAcc <<< c.len) ||| BitVec.ofNat 64 c.val
    encNbits := s.encNbits + BitVec.ofNat 6 c.len }

/-- The 8 oldest pending bits (R141). -/
def oldestByte (s : State) : Byte := (s.encAcc >>> (s.encNbits.toNat - 8)).setWidth 8

/-- Remove the 8 oldest pending bits from the accumulator (R141). -/
def dropByte (s : State) : State :=
  { s with
    encNbits := s.encNbits - 8#6
    encAcc := s.encAcc &&& BitVec.ofNat 64 (2 ^ (s.encNbits - 8#6).toNat - 1) }

/-- Emit whole bytes while the accumulator holds 8 bits or more, at most `fuel` of them (R141); a byte the sink
refuses raises Overflow and keeps the bits not emitted. -/
def drainBytes : Nat → State → State
  | 0, s => s
  | fuel + 1, s =>
    if 8 ≤ s.encNbits.toNat then
      match sinkAppend (oldestByte s) s with
      | none => raiseError .encOverflow s
      | some t => drainBytes fuel (dropByte t)
    else s

/-- The effect of ENC_SYM (R141). ENC_NBITS is below 64, so 8 rounds empty the accumulator of whole bytes. -/
def symStep (b : Byte) (s : State) : State :=
  if s.encOvf then s else drainBytes 8 (pushCode (codeOf s.codes b.toNat) s)

/-- The last partial byte: the pending bits, then the leading bits of the EOS code (R142). -/
def padByte (s : State) : Byte :=
  let pad := 8 - s.encNbits.toNat
  let eos := codeOf s.codes eosSymbol
  ((s.encAcc <<< pad) ||| BitVec.ofNat 64 (eos.val >>> (eos.len - pad))).setWidth 8

/-- The effect of ENC_FLUSH (R142). -/
def flushStep (s : State) : State :=
  if s.encOvf then s
  else if s.encNbits = 0#6 then s
  else
    match sinkAppend (padByte s) s with
    | none => raiseError .encOverflow s
    | some t => { t with encAcc := 0#64, encNbits := 0#6 }

/-- The loop of ENC_RUN (R143): `n` source bytes from index `i` on; it ends at an Overflow. -/
def encLoop : Nat → Word → State → State
  | 0, _, s => s
  | n + 1, i, s =>
    let t := symStep (hostRead s (s.encSrc + i)) s
    if t.encOvf then t else encLoop n (i + 1#64) t

/-- The effect of ENC_RUN (R143); ENC_FLUSH does nothing after an Overflow of the loop (R34). -/
def runEncoder (s : State) : State :=
  let t := flushStep (encLoop s.encLen.toNat 0#64 (encStart s))
  { t with encResult := if t.encOvf then overflowResult else t.encCount }

/-- ENC_INIT (R140). -/
def execEncInit (s : State) : Host.Outcome State Fault Refusal := .next (encStart s)

/-- ENC_SYM b (R141). -/
def execEncSym (b : Byte) (s : State) : Host.Outcome State Fault Refusal := .next (symStep b s)

/-- ENC_FLUSH (R142). -/
def execEncFlush (s : State) : Host.Outcome State Fault Refusal := .next (flushStep s)

/-- ENC_RUN (R143). -/
def execEncRun (s : State) : Host.Outcome State Fault Refusal := .next (runEncoder s)

end Sys2Proof.Machine
end

