-- ==== Sys2Proof/Machine/Sink.lean ====
section
/-! DEFINITION. The sink's command, SINK_RESET (R214); its primitives are in Ops. -/

namespace Sys2Proof.Machine

/-- The effect of SINK_RESET k (R214): keep `min(k, CHAIN_COUNT)` chunks, empty, with the cursor at the first. -/
def keepChunks (k : Nat) (s : State) : State :=
  let n := min k s.chainFill.length
  { s with
    chainFill := List.replicate n 0
    chainCur := if n = 0 then none else some 0 }

/-- SINK_RESET k (R214). -/
def execSinkReset (k : BitVec 24) (s : State) : Host.Outcome State Fault Refusal := .next (keepChunks k.toNat s)

end Sys2Proof.Machine
end

