-- ==== Sys2Proof/Machine/Bus.lean ====
section
/-! DEFINITION. The host's register accesses: RD (R123), WR (R124) and the dispatch of a written command word (R125). -/

namespace Sys2Proof.Machine

/-- Dispatch (R125): run the command a value written to CMD stands for, or raise IllegalCommand (R243). `decode` never
answers a bus operation; its two arms record the value as illegal. -/
def dispatch (w : Word) (s : State) : Host.Outcome State Fault Refusal :=
  match decode w with
  | .ok .nop => execNop s
  | .ok .clrErr => execClrErr s
  | .ok .softReset => execSoftReset s
  | .ok .encInit => execEncInit s
  | .ok (.encSym b) => execEncSym b s
  | .ok .encFlush => execEncFlush s
  | .ok .encRun => execEncRun s
  | .ok .decInit => execDecInit s
  | .ok (.decNib n) => execDecNib n s
  | .ok (.decByte b) => execDecByte b s
  | .ok .decEnd => execDecEnd s
  | .ok (.decRun m) => execDecRun m s
  | .ok (.sinkReset k) => execSinkReset k s
  | .ok (.rd _ _) => .next (raiseError (.illegalCommand w) s)
  | .ok (.wr _ _ _) => .next (raiseError (.illegalCommand w) s)
  | .error _ => .next (raiseError (.illegalCommand w) s)

/-- RD off (R123): the value at the offset is returned to the host; nothing else changes (R79). An access outside the
interface is refused (R74). -/
def execRd (width : Nat) (off : BitVec 12) (s : State) : Host.Outcome State Fault Refusal :=
  if accessWidthOk width then
    if offsetAligned off then .next { s with readData := offsetValue off s } else .refused .misalignedAccess
  else .refused .accessWidth

/-- WR off v (R124): CMD dispatches, another register is written, a reserved offset ignores the write (R74). An access
outside the interface is refused (R74). -/
def execWr (width : Nat) (off : BitVec 12) (v : Word) (s : State) : Host.Outcome State Fault Refusal :=
  if accessWidthOk width then
    if offsetAligned off then
      match regAt off with
      | none => .next s
      | some r => if r = .cmd then dispatch v s else .next (regWrite r v s)
    else .refused .misalignedAccess
  else .refused .accessWidth

end Sys2Proof.Machine
end

