-- ==== Sys2Proof/Machine/Dispatch.lean ====
section
/-! DEFINITION. One arm per instruction: each is one call of its meaning. -/

namespace Sys2Proof.Machine

def exec (i : Instr) (s : State) : Host.Outcome State Fault Refusal :=
  match i with
  | .nop => Sys2Proof.Machine.execNop s
  | .clrErr => Sys2Proof.Machine.execClrErr s
  | .softReset => Sys2Proof.Machine.execSoftReset s
  | .encInit => Sys2Proof.Machine.execEncInit s
  | .encSym b => Sys2Proof.Machine.execEncSym b s
  | .encFlush => Sys2Proof.Machine.execEncFlush s
  | .encRun => Sys2Proof.Machine.execEncRun s
  | .decInit => Sys2Proof.Machine.execDecInit s
  | .decNib n => Sys2Proof.Machine.execDecNib n s
  | .decByte b => Sys2Proof.Machine.execDecByte b s
  | .decEnd => Sys2Proof.Machine.execDecEnd s
  | .decRun m => Sys2Proof.Machine.execDecRun m s
  | .sinkReset k => Sys2Proof.Machine.execSinkReset k s
  | .rd width off => Sys2Proof.Machine.execRd width off s
  | .wr width off v => Sys2Proof.Machine.execWr width off v s

end Sys2Proof.Machine
end

