-- ==== Sys2Proof/Machine/HostSide.lean ====
section
/-! DEFINITION. The block's surroundings: the instruction a register access stands for (R123, R124), the selection of
the register window (R74), what an access leaves at bytes other agents touch (R83), and the pseudo-commands (R97). -/

namespace Sys2Proof.Machine

/-- The instruction a register access stands for (R123, R124). -/
def accessInstr : RegAccess → Instr
  | .read width off => .rd width off
  | .write width off v => .wr width off v

/-- BLOCK_BASE (R74): aligned to 4096. -/
def blockBase (s : State) : Word := s.blockPage ++ 0#12

/-- The offset a host address has in the register window; none: the block is not addressed (R74). -/
def selectOffset (s : State) (addr : Word) : Option (BitVec 12) :=
  if addr.extractLsb' 12 52 = s.blockPage then some (addr.extractLsb' 0 12) else none

/-- The state in which an access runs: its event is taken, and other agents touch `raced` while it runs (R83). -/
def beginAccess (rest : List HostEvent) (raced : List Word) (s : State) : State :=
  { s with pending := rest, raced := raced }

/-- Leave a free value at each of the addresses (R83). -/
def scribble (epoch : Nat) : List Word → Memory → Memory
  | [], m => m
  | a :: rest, m => scribble epoch rest (writeCell m a.toNat (Config.racedLeft epoch a))

/-- The end of an access: every byte another agent touched is any value (R83; log 4), and the access is counted. -/
def endAccess (s : State) : State :=
  { s with
    mem := scribble s.epoch s.raced s.mem
    raced := []
    epoch := s.epoch + 1 }

/-- `endAccess` after an instruction that answers a next state. -/
def finishAccess (o : Host.Outcome State Fault Refusal) : Host.Outcome State Fault Refusal :=
  match o with
  | .next s => .next (endAccess s)
  | .fault f => .fault f
  | .refused r => .refused r

/-- The host's write of a command word to CMD, with no other agent at work (R90). -/
def commandAccess (w : Word) : RegAccess := .write 64 (regOffset .cmd) w

/-- The CMD write that issues a command; a bus operation has no command word. -/
def issue (i : Instr) : List RegAccess :=
  match encode i with
  | some w => [commandAccess w]
  | none => []

/-- `WR <register>, <value>` (R96). -/
def writeAccess (r : Reg) (v : Word) : RegAccess := .write 64 (regOffset r) v

/-- `RD <register>` (R96). -/
def readAccess (r : Reg) : RegAccess := .read 64 (regOffset r)

/-- `ENC_STR "<text>"` (R97). -/
def encStr (text : List Byte) : List RegAccess := text.flatMap (fun b => issue (.encSym b))

/-- `DEC_BYTES <b0> <b1> ...` (R97). -/
def decBytes (bytes : List Byte) : List RegAccess := bytes.flatMap (fun b => issue (.decByte b))

/-- `ENCODE <src>, <len>, <dst>, <cap>` (R97). -/
def encodeCall (src len dst cap : Word) : List RegAccess :=
  [writeAccess .encSrc src, writeAccess .encLen len, writeAccess .encDst dst, writeAccess .encCap cap]
    ++ issue .encRun ++ [readAccess .encResult]

/-- `DECODE <mode>, <src>, <len>, <dst>, <cap>` (R97). -/
def decodeCall (m : DecMode) (src len dst cap : Word) : List RegAccess :=
  [writeAccess .decSrc src, writeAccess .decLen len, writeAccess .decDst dst, writeAccess .decCap cap]
    ++ issue (.decRun m) ++ [readAccess .decResult]

/-- `SAVE_TOKEN` (R97): the token is bits [7:0] of the value read. -/
def saveToken : List RegAccess := [readAccess .decState]

/-- `LOAD_TOKEN <t>` (R97). -/
def loadToken (t : Word) : List RegAccess := [writeAccess .decState t]

/-- The accesses as the host's next events, with no other agent at work. -/
def asProgram (accesses : List RegAccess) : List HostEvent := accesses.map (fun a => .access a [])

end Sys2Proof.Machine
end

