-- ==== Sys2Proof/Machine/Step.lean ====
section
/-! DEFINITION. One step: the next event of the block's surroundings. -/

namespace Sys2Proof.Machine

/-- Run one register access: an atomic step (R17). -/
def runAccess (a : RegAccess) (raced : List Word) (rest : List HostEvent) (s : State) :
    Host.Outcome State Fault Refusal :=
  finishAccess (exec (accessInstr a) (beginAccess rest raced s))

/-- One step. With nothing pending the block is idle and loses no state (R255); otherwise the first pending event
happens, in the host's order (R46, R82). A store event reaches host memory at every address: it does not test for the
register window (DESIGN CHOICE, log 21). -/
def step (s : State) : Host.Outcome State Fault Refusal :=
  match s.pending with
  | [] => .next s
  | .access a raced :: rest => runAccess a raced rest s
  | .busRead width addr raced :: rest =>
    match selectOffset s addr with
    | some off => runAccess (.read width off) raced rest s
    | none => .refused .unselectedAddress
  | .busWrite width addr v raced :: rest =>
    match selectOffset s addr with
    | some off => runAccess (.write width off v) raced rest s
    | none => .refused .unselectedAddress
  | .store addr v :: rest => .next (hostWrite addr v { s with pending := rest })
  | .reset :: rest => .next (resetBlock { s with pending := rest })

/-- `s` with the host's next event the CMD write of the command word `w` of `nbits` bits. -/
def State.withFetchWord (s : State) (nbits w : Nat) : State :=
  { s with pending := .access (commandAccess (BitVec.ofNat 64 (w % 2 ^ nbits))) [] :: s.pending }

end Sys2Proof.Machine
end

