-- ==== Sys2Proof/Machine/Stream.lean ====
section
/-! DEFINITION. The packed stream format (R75, R100) and the byte sequences that statements speak of: what a buffer
holds, what a run of stores leaves, the chain's stream (R40). No instruction's meaning uses this file. -/

namespace Sys2Proof.Machine

/-- The bits of a bit string, first bit first (R15). -/
def bitsOf (x : BitString) : List Bool := (List.range x.len).map (fun k => x.val.testBit (x.len - 1 - k))

/-- The bits of a byte of the stream, most significant first (R75). -/
def byteBits (b : Byte) : List Bool := bitsOf ⟨8, b.toNat⟩

/-- The byte whose bits, first bit most significant, are `bits` (R75). -/
def byteOfBits (bits : List Bool) : Byte := BitVec.ofNat 8 (bits.foldl (fun p b => 2 * p + b.toNat) 0)

/-- `S = code(x_0) ++ code(x_1) ++ ...` (R100). -/
def codeBits (codes : CodeTable) (xs : List Byte) : List Bool := xs.flatMap (fun x => bitsOf (codeOf codes x.toNat))

/-- `P`: the first `(8 - L mod 8) mod 8` bits of `code(EOS)` (R100). -/
def paddingBits (codes : CodeTable) (l : Nat) : List Bool := (bitsOf (codeOf codes eosSymbol)).take ((8 - l % 8) % 8)

/-- Cut a bit list into whole bytes (R100). -/
def packBytes : List Bool → List Byte
  | b7 :: b6 :: b5 :: b4 :: b3 :: b2 :: b1 :: b0 :: rest =>
    byteOfBits [b7, b6, b5, b4, b3, b2, b1, b0] :: packBytes rest
  | _ => []

/-- The packed stream of a byte sequence (R100). -/
def packedStream (codes : CodeTable) (xs : List Byte) : List Byte :=
  packBytes (codeBits codes xs ++ paddingBits codes (codeBits codes xs).length)

/-- The encoder's pending bits, first pending bit first (R32). -/
def pendingBits (s : State) : List Bool := bitsOf ⟨s.encNbits.toNat, s.encAcc.toNat⟩

/-- What the block reads from the `n` bytes at `src` (R70, R73). -/
def sourceBytes (s : State) (src : Word) (n : Nat) : List Byte :=
  (List.range n).map (fun i => hostRead s (src + BitVec.ofNat 64 i))

/-- Store the bytes at `dst`, `dst + 1`, ... in this order (R73). -/
def writeBytes : Memory → Word → List Byte → Memory
  | m, _, [] => m
  | m, dst, y :: ys => writeBytes (writeCell m dst.toNat y) (dst + 1#64) ys

/-- The bytes the chain holds, oldest first (R40, R41). -/
def chainStream (s : State) : List Byte := (List.range (chainLen s)).map (chainByte s)

/-- How many more bytes the chain takes (R217). -/
def chainRoom (s : State) : Nat := s.maxChunks.toNat * chunkBytes s - chainLen s

end Sys2Proof.Machine
end

