-- ==== Sys2Proof/Safety.lean ====
section
/-! DEFINITION. The terms claims use: the invariants of the block (R33, R39), buffers that do not overlap (R81), and the
command an access performs (R124, R125). -/

namespace Sys2Proof.Machine

/-- The ranges of the build parameters (R12). -/
def paramsOk (s : State) : Prop := 1 ≤ s.chunkSize.toNat ∧ 1 ≤ s.maxChunks.toNat

/-- The bit string `x` is a prefix of the code `c`, or `c` itself (R24(b), R51). -/
def beginsWith (c x : BitString) : Prop := x.len ≤ c.len ∧ prefixValue c x.len = x.val

/-- The constraints of R24 on the parameter CODE_TABLE, its hypotheses (a), (b), (d) and (e); (c) follows from (b), and
no rule depends on (f). -/
structure TableOk (codes : CodeTable) : Prop where
  /-- R9, R10: one code for each symbol 0 .. 256. -/
  size : codes.length = 257
  /-- (a), with R10: lengths 5 .. 30, patterns right-justified. -/
  lengths : ∀ c ∈ codes, minCodeLen ≤ c.len ∧ c.len ≤ maxCodeLen ∧ c.val < 2 ^ c.len
  /-- (b): no code is a prefix of another. -/
  prefixFree : codes.Pairwise (fun c x => ¬ beginsWith c x ∧ ¬ beginsWith x c)
  /-- (d): the sum of `2^-len` is 1, here scaled by `2^30`. -/
  complete : (codes.map (fun c => 2 ^ (maxCodeLen - c.len))).sum = 2 ^ maxCodeLen
  /-- (e): EOS has at least 8 bits. -/
  eosLong : 8 ≤ (codeOf codes eosSymbol).len
  /-- (e): the first 7 bits of EOS are all 1. -/
  eosOnes : prefixValue (codeOf codes eosSymbol) 7 = 2 ^ 7 - 1

/-- Both memories are in canonical form, inside their address spaces (R70, R72). -/
def memoriesOk (s : State) : Prop :=
  Memory.wf s.mem = true ∧ Memory.within (2 ^ 64) s.mem = true ∧
  Memory.wf s.store = true ∧ Memory.within (s.maxChunks.toNat * chunkBytes s) s.store = true

/-- The chain's invariants (R39): at most MAX_CHUNKS chunks; the cursor none (then there is no chunk) or a chunk of the
chain; chunks before it full, chunks after it empty, its own fill within capacity. -/
def chainOk (s : State) : Prop :=
  s.chainFill.length ≤ s.maxChunks.toNat ∧
  match s.chainCur with
  | none => s.chainFill = []
  | some c =>
    c < s.chainFill.length ∧ fillOf s c ≤ chunkBytes s ∧
    (∀ i, i < c → fillOf s i = chunkBytes s) ∧
    (∀ i, c < i → i < s.chainFill.length → fillOf s i = 0)

/-- The accumulator's invariants (R32, R33): no bit at or above ENC_NBITS; at most 7 pending bits while OVF is 0, and
1 .. 37 after an Overflow. -/
def accOk (s : State) : Prop :=
  s.encAcc.toNat < 2 ^ s.encNbits.toNat ∧
  if s.encOvf then 1 ≤ s.encNbits.toNat ∧ s.encNbits.toNat ≤ 37 else s.encNbits.toNat ≤ 7

/-- The invariants that hold between and inside steps (R10, R12, R32, R33, R39, R70, R72). -/
structure Good (s : State) : Prop where
  params : paramsOk s
  memories : memoriesOk s
  chain : chainOk s
  acc : accOk s
  table : TableOk s.codes

/-- The invariant of the machine between steps: no access is running, so no byte is raced (R83). -/
structure Inv (s : State) : Prop where
  good : Good s
  quiet : s.raced = []

/-- How many more bytes the encoder's sink takes (R210, R212, R217). -/
def sinkRoom (s : State) : Nat :=
  match s.sinkMode with
  | .fixed => s.encCap.toNat - s.encCount.toNat
  | .chain => chainRoom s

/-- `t` is `s` with the bytes `ys` appended to the sink: stored from ENC_DST + ENC_COUNT on (R210, fixed), or appended
to the chain's stream (R216, chain). -/
def sinkTook (s t : State) (ys : List Byte) : Prop :=
  match s.sinkMode with
  | .fixed =>
    t.mem = writeBytes s.mem (s.encDst + s.encCount) ys ∧ t.store = s.store ∧ t.chainFill = s.chainFill ∧
    t.chainCur = s.chainCur
  | .chain => chainStream t = chainStream s ++ ys ∧ chainOk t ∧ t.mem = s.mem

/-- `s` with the value `v` returned to the host by a read (R123). -/
def returned (v : Word) (s : State) : State := { s with readData := v }

/-- Every register at the reset column of R20 and the chain emptied (R270); everything else as in `s`. -/
def registersAtReset (s : State) : State :=
  { s with
    ill := false, errCmd := 0#64, sinkMode := .fixed, chainFill := [], chainCur := none, chainRaddr := 0#64,
    encSrc := 0#64, encLen := 0#64, encDst := 0#64, encCap := 0#64, encCount := 0#64, encAcc := 0#64,
    encNbits := 0#6, encOvf := false, encResult := 0#64,
    decSrc := 0#64, decLen := 0#64, decDst := 0#64, decCap := 0#64, decCount := 0#64, decConsumed := 0#64,
    decNode := 0#8, decCode := .ok, decResult := 0#64 }

/-- No byte of the `n` at `a` is one of the `m` at `b`, addresses wrapping (R73, R81). -/
def apart (a : Word) (n : Nat) (b : Word) (m : Nat) : Prop :=
  ∀ i j, i < n → j < m → a + BitVec.ofNat 64 i ≠ b + BitVec.ofNat 64 j

/-- `addr` is one of the `n` bytes at `base`, addresses wrapping (R73). -/
def inBuffer (base : Word) (n : Nat) (addr : Nat) : Prop :=
  ∃ k, k < n ∧ addr = (base + BitVec.ofNat 64 k).toNat

/-- The instruction an instruction performs: a WR of a legal command word to CMD performs the command (R125). -/
def performed (i : Instr) : Instr :=
  match i with
  | .wr 64 0x010#12 w =>
    match decode w with
    | .ok c => c
    | .error _ => i
  | _ => i

/-- A legal value of CMD, in the words of R95: bits [63:32] are 0, OPC is in the table of R93, and no IMM bit outside the
operand mask of its format is 1; each pair is an opcode and its operand mask. -/
def legalWord (w : Word) : Prop :=
  w >>> 32 = 0#64 ∧
  ∃ row ∈ ([(0x00#64, 0x0#64), (0x01#64, 0x0#64), (0x02#64, 0x0#64), (0x10#64, 0x0#64), (0x11#64, 0xFF#64),
      (0x12#64, 0x0#64), (0x13#64, 0x0#64), (0x20#64, 0x0#64), (0x21#64, 0xF#64), (0x22#64, 0xFF#64),
      (0x23#64, 0x0#64), (0x24#64, 0x1#64), (0x30#64, 0xFFFFFF#64)] : List (Word × Word)),
    (w >>> 24) &&& 0xFF#64 = row.1 ∧ (w &&& 0xFFFFFF#64) &&& ~~~row.2 = 0#64

/-- `s` with the decoder's registers (R56) of `u`. -/
def withDecoderOf (u s : State) : State :=
  { s with
    decSrc := u.decSrc, decLen := u.decLen, decDst := u.decDst, decCap := u.decCap, decCount := u.decCount,
    decConsumed := u.decConsumed, decNode := u.decNode, decCode := u.decCode, decResult := u.decResult }

/-- `s` with the encoder's registers and its sink (R30, R38, R39) of `u`. -/
def withEncoderOf (u s : State) : State :=
  { s with
    encSrc := u.encSrc, encLen := u.encLen, encDst := u.encDst, encCap := u.encCap, encCount := u.encCount,
    encAcc := u.encAcc, encNbits := u.encNbits, encOvf := u.encOvf, encResult := u.encResult,
    sinkMode := u.sinkMode, chainFill := u.chainFill, chainCur := u.chainCur, store := u.store }

/-- The node list as R51 prints it for the table of R25: each row is a depth, the least prefix value of that depth and how
many there are (in every row they are consecutive). -/
def printedNodes : List BitString :=
  ([(0, 0x0, 1), (1, 0x0, 2), (2, 0x0, 4), (3, 0x0, 8), (4, 0x0, 16), (5, 0xa, 22), (6, 0x2e, 18), (7, 0x7c, 4),
    (8, 0xfe, 2), (9, 0x1fc, 4), (10, 0x3fd, 3), (11, 0x7fd, 3), (12, 0xffc, 4), (13, 0x1ffe, 2), (14, 0x3ffe, 2),
    (15, 0x7fff, 1), (16, 0xfffe, 2), (17, 0x1fffc, 4), (18, 0x3fff8, 8), (19, 0x7fff3, 13), (20, 0xfffee, 18),
    (21, 0x1fffe9, 23), (22, 0x3fffec, 20), (23, 0x7ffff5, 11), (24, 0xfffff6, 10), (25, 0x1fffff0, 16),
    (26, 0x3ffffef, 17), (27, 0x7fffff1, 15), (28, 0xfffffff, 1), (29, 0x1ffffffe, 2)] : List (Nat × Nat × Nat)).flatMap
    (fun row => (List.range row.2.2).map (fun k => ⟨row.1, row.2.1 + k⟩))

/-- The encoder's commands (R93). -/
def isEncoderCommand (i : Instr) : Bool :=
  match i with
  | .encInit | .encSym _ | .encFlush | .encRun => true
  | _ => false

/-- The decoder's commands (R93). -/
def isDecoderCommand (i : Instr) : Bool :=
  match i with
  | .decInit | .decNib _ | .decByte _ | .decEnd | .decRun _ => true
  | _ => false

/-- Two states that differ only in chunk-store bytes at or beyond the chain's stream length (R72). -/
def sameButHidden (s u : State) : Prop :=
  u = { s with store := u.store } ∧ ∀ k, k < chainLen s → readCell u.store k = readCell s.store k

/-- Two outcomes of the same kind, next states related by `r`. -/
def outcomesRelated (r : State → State → Prop) (a b : Host.Outcome State Fault Refusal) : Prop :=
  match a, b with
  | .next s, .next u => r s u
  | .fault f, .fault g => f = g
  | .refused f, .refused g => f = g
  | _, _ => False

end Sys2Proof.Machine
end

