-- ==== Sys2Proof/Certificates/Slice0/Obligations.lean ====
section
/-! DEFINITION. What is claimed of the block, from the numbered rules of spec/. -/

open Sys2Proof Sys2Proof.Machine

/-! ## Encoding -/

/-- Words written out from 30_encoding.md §2, one per opcode and both modes of DEC_RUN, decode to their commands. -/
def Obligations.SampleWordsDecode : Prop :=
  decode 0x00000000#64 = .ok .nop ∧
  decode 0x01000000#64 = .ok .clrErr ∧
  decode 0x02000000#64 = .ok .softReset ∧
  decode 0x10000000#64 = .ok .encInit ∧
  decode 0x11000061#64 = .ok (.encSym 0x61#8) ∧
  decode 0x12000000#64 = .ok .encFlush ∧
  decode 0x13000000#64 = .ok .encRun ∧
  decode 0x20000000#64 = .ok .decInit ∧
  decode 0x2100000F#64 = .ok (.decNib 0xF#4) ∧
  decode 0x22000007#64 = .ok (.decByte 0x07#8) ∧
  decode 0x23000000#64 = .ok .decEnd ∧
  decode 0x24000000#64 = .ok (.decRun .resumable) ∧
  decode 0x24000001#64 = .ok (.decRun .final) ∧
  decode 0x30ABCDEF#64 = .ok (.sinkReset 0xABCDEF#24)

/-- R93, with the operand assembly of R92: the command word of every defined opcode, at every value of its operand. -/
def Obligations.OpcodeMapIsTheSpecs : Prop :=
  ∀ (b : Byte) (n : BitVec 4) (k : BitVec 24),
    decode 0x00000000#64 = .ok .nop ∧
    decode 0x01000000#64 = .ok .clrErr ∧
    decode 0x02000000#64 = .ok .softReset ∧
    decode 0x10000000#64 = .ok .encInit ∧
    decode (0x11000000#64 ||| b.setWidth 64) = .ok (.encSym b) ∧
    decode 0x12000000#64 = .ok .encFlush ∧
    decode 0x13000000#64 = .ok .encRun ∧
    decode 0x20000000#64 = .ok .decInit ∧
    decode (0x21000000#64 ||| n.setWidth 64) = .ok (.decNib n) ∧
    decode (0x22000000#64 ||| b.setWidth 64) = .ok (.decByte b) ∧
    decode 0x23000000#64 = .ok .decEnd ∧
    decode 0x24000000#64 = .ok (.decRun .resumable) ∧
    decode 0x24000001#64 = .ok (.decRun .final) ∧
    decode (0x30000000#64 ||| k.setWidth 64) = .ok (.sinkReset k)

/-- R95: the legal values of CMD are exactly those with [63:32] = 0, an OPC of the table, and no IMM bit set outside
the operand mask of its format. -/
def Obligations.LegalWordsAreTheDecodedOnes : Prop :=
  ∀ w : Word,
    (∃ i, decode w = .ok i) ↔ legalWord w

/-- Every command has a command word, and decoding it gives the command back with its operand. -/
def Obligations.DecodeOfEncodeIsTheCommand : Prop :=
  ∀ i : Instr, i.isCommand = true → ∃ w, encode i = some w ∧ decode w = .ok i

/-- A value that decodes is the command word of what it decodes to: no bit of it is dropped, and it is no bus
operation. -/
def Obligations.EncodeOfDecodeIsTheWord : Prop :=
  ∀ (w : Word) (i : Instr), decode w = .ok i → encode i = some w ∧ i.isCommand = true

/-! ## Steps -/

/-- R46, R82: a step performs the host's next register access, with what the model adds around it: the event is taken,
the raced bytes become free values, the access is counted (log 4). -/
def Obligations.StepRunsThePendingAccess : Prop :=
  ∀ (s t : State) (a : RegAccess) (raced : List Word) (rest : List HostEvent),
    s.pending = .access a raced :: rest →
    exec (accessInstr a) { s with pending := rest, raced := raced } = .next t →
    step s = .next { t with mem := scribble s.epoch raced t.mem, raced := [], epoch := s.epoch + 1 }

/-- R125, R17: when the value the host writes to CMD decodes to a command, the step is that command, with what the model
adds around it. -/
def Obligations.StepRunsTheDecodedCommand : Prop :=
  ∀ (s t : State) (w : Word) (i : Instr) (raced : List Word) (rest : List HostEvent),
    s.pending = .access (.write 64 0x010#12 w) raced :: rest →
    decode w = .ok i →
    exec i { s with pending := rest, raced := raced } = .next t →
    step s = .next { t with mem := scribble s.epoch raced t.mem, raced := [], epoch := s.epoch + 1 }

/-- `withFetchWord` (log 1) makes the very next step run the command of the word. -/
def Obligations.WithFetchWordRunsTheWord : Prop :=
  ∀ (s t : State) (nbits w : Nat) (i : Instr),
    decodeTableWord nbits w = some i →
    exec i { s with raced := [] } = .next t →
    step (s.withFetchWord nbits w) = .next { t with epoch := s.epoch + 1 }

/-- R255: with no access pending the block is idle, and idle loses no state (that a step with nothing pending is an idle
step is the model's, log 2). -/
def Obligations.IdleLosesNoState : Prop :=
  ∀ s : State, s.pending = [] → step s = .next s

/-- R270: the reset input puts every register at its reset value and frees every chunk; host memory is not touched
(that the input acts between accesses is the model's, log 15, and so is that the chunk store's unobservable bytes stay,
log 8). -/
def Obligations.ResetInputResetsTheBlock : Prop :=
  ∀ (s : State) (rest : List HostEvent),
    s.pending = .reset :: rest → step s = .next (registersAtReset { s with pending := rest })

/-- A store of the host between accesses (log 16), at any address, those of the register window included (log 21), changes
one byte of host memory and nothing else. -/
def Obligations.StoreEventStoresOneByte : Prop :=
  ∀ (s : State) (addr : Word) (v : Byte) (rest : List HostEvent),
    s.pending = .store addr v :: rest → Memory.wf s.mem = true →
    ∃ t, step s = .next t ∧ t = { s with pending := rest, mem := t.mem } ∧
      ∀ b, readCell t.mem b = if b = addr.toNat then v else readCell s.mem b

/-- R74: a bus cycle at BLOCK_BASE + off is the register access at off; one outside the 4096 bytes at BLOCK_BASE does
not address the block (the refusal is the model's, log 13). -/
def Obligations.RegisterWindowIsAtBlockBase : Prop :=
  ∀ (s : State) (width : Nat) (v : Word) (raced : List Word) (rest : List HostEvent),
    (∀ off : BitVec 12,
      step { s with pending := .busRead width (blockBase s + off.setWidth 64) raced :: rest } =
        step { s with pending := .access (.read width off) raced :: rest } ∧
      step { s with pending := .busWrite width (blockBase s + off.setWidth 64) v raced :: rest } =
        step { s with pending := .access (.write width off v) raced :: rest }) ∧
    (∀ addr : Word, addr >>> 12 ≠ blockBase s >>> 12 →
      step { s with pending := .busRead width addr raced :: rest } = .refused .unselectedAddress ∧
      step { s with pending := .busWrite width addr v raced :: rest } = .refused .unselectedAddress)

/-- R83: a byte another agent touches while an access runs is read as a free value, and a free value is left there. -/
def Obligations.RacedBytesAreAnyValue : Prop :=
  ∀ (s t : State) (a : RegAccess) (raced : List Word) (rest : List HostEvent) (addr : Word),
    s.pending = .access a raced :: rest → addr ∈ raced → Memory.wf s.mem = true → step s = .next t →
    hostRead { s with pending := rest, raced := raced } addr = Config.racedRead s.epoch addr ∧
    readCell t.mem addr.toNat = Config.racedLeft s.epoch addr

/-! ## Reset and invariants -/

/-- R271, with R20's reset column: what each register reads right after reset, and that ENC_INIT and DEC_INIT then change
nothing. -/
def Obligations.ResetRegistersReadTheirColumn : Prop :=
  exec (.rd 64 0x000#12) State.reset = .next (returned 0x4855464643444331#64 State.reset) ∧
  exec (.rd 64 0x038#12) State.reset = .next (returned 0xFFFFFFFFFFFFFFFF#64 State.reset) ∧
  exec (.rd 64 0x130#12) State.reset = .next (returned 0x100#64 State.reset) ∧
  (∀ off ∈ ([0x010#12, 0x018#12, 0x020#12, 0x028#12, 0x030#12, 0x040#12, 0x048#12, 0x050#12, 0x080#12, 0x088#12,
      0x090#12, 0x098#12, 0x0A0#12, 0x0A8#12, 0x0B0#12, 0x0B8#12, 0x0C0#12, 0x100#12, 0x108#12, 0x110#12, 0x118#12,
      0x120#12, 0x128#12, 0x138#12, 0x140#12] : List (BitVec 12)),
    exec (.rd 64 off) State.reset = .next (returned 0#64 State.reset)) ∧
  exec .encInit State.reset = .next State.reset ∧
  exec .decInit State.reset = .next State.reset

/-- The reset state meets the invariant (the parameter ranges are R12's, the table's constraints R24's). -/
def Obligations.ResetMeetsTheInvariant : Prop := Inv State.reset

/-- R32, R33, R39, R215: every step keeps the accumulator's and the chain's invariants, the canonical form of both
memories, the parameter ranges, and R24 of the code table. -/
def Obligations.StepKeepsTheInvariant : Prop :=
  ∀ s t : State, Inv s → step s = .next t → Inv t

/-- R12, R22, R23: no instruction changes the build parameters (the code table, CHUNK_SIZE, MAX_CHUNKS) or BLOCK_BASE; nor the model's record of the host's side. -/
def Obligations.ExecKeepsParametersAndHostSide : Prop :=
  ∀ (i : Instr) (s t : State), exec i s = .next t →
    t.codes = s.codes ∧ t.chunkSize = s.chunkSize ∧ t.maxChunks = s.maxChunks ∧ t.blockPage = s.blockPage ∧
    t.pending = s.pending ∧ t.raced = s.raced ∧ t.epoch = s.epoch

/-! ## Control and register access -/

/-- R120: NOP changes nothing. -/
def Obligations.NopChangesNothing : Prop := ∀ s : State, exec .nop s = .next s

/-- R121: CLR_ERR clears CMD_STATUS.ILL and ERR_CMD and nothing else. -/
def Obligations.ClrErrClearsTheRecord : Prop :=
  ∀ s : State, exec .clrErr s = .next { s with ill := false, errCmd := 0#64 }

/-- R122: SOFT_RESET performs Reset; host memory is not touched. Nothing is said of the chunk store's bytes, which R273
leaves unspecified. -/
def Obligations.SoftResetResetsTheBlock : Prop :=
  ∀ s : State, ∃ t, exec .softReset s = .next t ∧ t = { registersAtReset s with store := t.store }

/-- R123, with R20, R21, R22, R40, R41, R50: RD returns the register at each offset, composed from its fields; CMD and
every reserved offset read 0; nothing else changes. -/
def Obligations.EveryOffsetReadsItsRegister : Prop :=
  ∀ s : State,
    exec (.rd 64 0x000#12) s = .next (returned 0x4855464643444331#64 s) ∧
    exec (.rd 64 0x008#12) s = .next (returned (BitVec.ofNat 64
      (5 + 30 * 2 ^ 8 + s.maxChunks.toNat * 2 ^ 16 + s.chunkSize.toNat * 2 ^ 32)) s) ∧
    exec (.rd 64 0x010#12) s = .next (returned 0#64 s) ∧
    exec (.rd 64 0x018#12) s = .next (returned (if s.ill then 1#64 else 0#64) s) ∧
    exec (.rd 64 0x020#12) s = .next (returned s.errCmd s) ∧
    exec (.rd 64 0x028#12) s = .next (returned (if s.sinkMode = .chain then 1#64 else 0#64) s) ∧
    exec (.rd 64 0x030#12) s = .next (returned (BitVec.ofNat 64 s.chainFill.length) s) ∧
    exec (.rd 64 0x038#12) s = .next (returned (match s.chainCur with
      | none => 0xFFFFFFFFFFFFFFFF#64
      | some c => BitVec.ofNat 64 c) s) ∧
    exec (.rd 64 0x040#12) s = .next (returned (match s.chainCur with
      | none => 0#64
      | some c => BitVec.ofNat 64 (c * s.chunkSize.toNat + s.chainFill.getD c 0)) s) ∧
    exec (.rd 64 0x048#12) s = .next (returned s.chainRaddr s) ∧
    exec (.rd 64 0x050#12) s = .next (returned (if s.chainRaddr.toNat < chainLen s then
        (chunkRead s (s.chainRaddr.toNat / s.chunkSize.toNat) (s.chainRaddr.toNat % s.chunkSize.toNat)).setWidth 64
      else 0#64) s) ∧
    exec (.rd 64 0x080#12) s = .next (returned s.encSrc s) ∧
    exec (.rd 64 0x088#12) s = .next (returned s.encLen s) ∧
    exec (.rd 64 0x090#12) s = .next (returned s.encDst s) ∧
    exec (.rd 64 0x098#12) s = .next (returned s.encCap s) ∧
    exec (.rd 64 0x0A0#12) s = .next (returned s.encCount s) ∧
    exec (.rd 64 0x0A8#12) s = .next (returned s.encAcc s) ∧
    exec (.rd 64 0x0B0#12) s = .next (returned (BitVec.ofNat 64 s.encNbits.toNat) s) ∧
    exec (.rd 64 0x0B8#12) s = .next (returned (if s.encOvf then 1#64 else 0#64) s) ∧
    exec (.rd 64 0x0C0#12) s = .next (returned s.encResult s) ∧
    exec (.rd 64 0x100#12) s = .next (returned s.decSrc s) ∧
    exec (.rd 64 0x108#12) s = .next (returned s.decLen s) ∧
    exec (.rd 64 0x110#12) s = .next (returned s.decDst s) ∧
    exec (.rd 64 0x118#12) s = .next (returned s.decCap s) ∧
    exec (.rd 64 0x120#12) s = .next (returned s.decCount s) ∧
    exec (.rd 64 0x128#12) s = .next (returned s.decConsumed s) ∧
    exec (.rd 64 0x130#12) s = .next (returned (BitVec.ofNat 64
      (s.decNode.toNat + (if accepting (nodeAt s.codes s.decNode) then 2 ^ 8 else 0) + (nodeAt s.codes s.decNode).len * 2 ^ 9)) s) ∧
    exec (.rd 64 0x138#12) s = .next (returned (match s.decCode with
      | .ok => 0#64
      | .overflow => 1#64
      | .invalidCode => 2#64
      | .truncatedInput => 3#64) s) ∧
    exec (.rd 64 0x140#12) s = .next (returned s.decResult s) ∧
    ∀ off : BitVec 12, off.toNat % 8 = 0 →
      (0x058 ≤ off.toNat ∧ off.toNat ≤ 0x07F ∨ 0x0C8 ≤ off.toNat ∧ off.toNat ≤ 0x0FF ∨ 0x148 ≤ off.toNat) →
      exec (.rd 64 off) s = .next (returned 0#64 s)

/-- R124, R125: WR stores to each RW register with reserved bits forced to 0, loads a token at DEC_STATE, runs the
command of a legal word at CMD, and is ignored at RO registers and reserved offsets. -/
def Obligations.WritesReachTheirRegisters : Prop :=
  ∀ (s : State) (v : Word),
    exec (.wr 64 0x028#12 v) s = .next { s with sinkMode := if v.getLsbD 0 then .chain else .fixed } ∧
    exec (.wr 64 0x048#12 v) s = .next { s with chainRaddr := v } ∧
    exec (.wr 64 0x080#12 v) s = .next { s with encSrc := v } ∧
    exec (.wr 64 0x088#12 v) s = .next { s with encLen := v } ∧
    exec (.wr 64 0x090#12 v) s = .next { s with encDst := v } ∧
    exec (.wr 64 0x098#12 v) s = .next { s with encCap := v } ∧
    exec (.wr 64 0x100#12 v) s = .next { s with decSrc := v } ∧
    exec (.wr 64 0x108#12 v) s = .next { s with decLen := v } ∧
    exec (.wr 64 0x110#12 v) s = .next { s with decDst := v } ∧
    exec (.wr 64 0x118#12 v) s = .next { s with decCap := v } ∧
    exec (.wr 64 0x130#12 v) s = .next { s with
      decNode := BitVec.ofNat 8 v.toNat, decCode := .ok, decCount := 0#64, decConsumed := 0#64 } ∧
    (∀ i, decode v = .ok i → exec (.wr 64 0x010#12 v) s = exec i s) ∧
    (∀ e, decode v = .error e → exec (.wr 64 0x010#12 v) s =
      .next { s with errCmd := if s.ill then s.errCmd else v, ill := true }) ∧
    (∀ off ∈ ([0x000#12, 0x008#12, 0x018#12, 0x020#12, 0x030#12, 0x038#12, 0x040#12, 0x050#12, 0x0A0#12, 0x0A8#12,
        0x0B0#12, 0x0B8#12, 0x0C0#12, 0x120#12, 0x128#12, 0x138#12, 0x140#12] : List (BitVec 12)),
      exec (.wr 64 off v) s = .next s) ∧
    ∀ off : BitVec 12, off.toNat % 8 = 0 →
      (0x058 ≤ off.toNat ∧ off.toNat ≤ 0x07F ∨ 0x0C8 ≤ off.toNat ∧ off.toNat ≤ 0x0FF ∨ 0x148 ≤ off.toNat) →
      exec (.wr 64 off v) s = .next s

/-- R243, with R94: a value with a bit of [63:32] set, an undefined opcode, or a reserved IMM bit set changes only
CMD_STATUS.ILL and ERR_CMD, and ERR_CMD only while ILL is 0. -/
def Obligations.IllegalCommandIsRecorded : Prop :=
  ∀ (s : State) (w : Word), ¬ legalWord w →
    exec (.wr 64 0x010#12 w) s =
      .next (if s.ill then s else { s with errCmd := w, ill := true })

/-- R74: a register access that is not 64 bits wide, or is misaligned, is refused, RD and WR alike. -/
def Obligations.OtherAccessesAreRefused : Prop :=
  ∀ (s : State) (width : Nat) (off : BitVec 12) (v : Word),
    (width ≠ 64 → exec (.rd width off) s = .refused .accessWidth ∧
      exec (.wr width off v) s = .refused .accessWidth) ∧
    (off.toNat % 8 ≠ 0 → exec (.rd 64 off) s = .refused .misalignedAccess ∧
      exec (.wr 64 off v) s = .refused .misalignedAccess)

/-- R102, R180: the value read from DEC_STATE, written back in any state, restores the decoder's node exactly. -/
def Obligations.SavedTokenRestoresTheNode : Prop :=
  ∀ s u : State, ∃ t, exec (.rd 64 0x130#12) s = .next t ∧
    exec (.wr 64 0x130#12 t.readData) u =
      .next { u with decNode := s.decNode, decCode := .ok, decCount := 0#64, decConsumed := 0#64 }

/-! ## Encoder -/

/-- R140: ENC_INIT. -/
def Obligations.EncInitStartsAnEncode : Prop :=
  ∀ s : State, exec .encInit s =
    .next { s with encAcc := 0#64, encNbits := 0#6, encCount := 0#64, encOvf := false }

/-- R141: after an Overflow ENC_SYM does nothing; otherwise the pending bits followed by `code(b)` are cut into whole
bytes, the sink takes as many as it has room for, the rest stays pending, and OVF is set when the sink refused one. -/
def Obligations.EncSymAppendsTheCode : Prop :=
  ∀ (s : State) (b : Byte), Good s →
    (s.encOvf = true → exec (.encSym b) s = .next s) ∧
    (s.encOvf = false →
      let total := s.encNbits.toNat + (codeOf s.codes b.toNat).len
      let k := min (total / 8) (sinkRoom s)
      ∃ (t : State) (ys : List Byte),
        exec (.encSym b) s = .next t ∧ ys.length = k ∧
        pendingBits s ++ bitsOf (codeOf s.codes b.toNat) = ys.flatMap byteBits ++ pendingBits t ∧
        t.encNbits.toNat = total - 8 * k ∧ t.encAcc.toNat < 2 ^ t.encNbits.toNat ∧
        t.encOvf = decide (sinkRoom s < total / 8) ∧
        t.encCount = s.encCount + BitVec.ofNat 64 k ∧
        sinkTook s t ys ∧
        t = { s with encAcc := t.encAcc, encNbits := t.encNbits, encCount := t.encCount, encOvf := t.encOvf,
                     mem := t.mem, store := t.store, chainFill := t.chainFill, chainCur := t.chainCur })

/-- R142: after an Overflow, or with nothing pending, ENC_FLUSH does nothing; otherwise it emits the pending bits
followed by the leading bits of EOS, which are 1-bits, and clears the accumulator; a full sink sets OVF only. -/
def Obligations.EncFlushPadsAndEmits : Prop :=
  ∀ s : State, Good s →
    (s.encOvf = true ∨ s.encNbits = 0#6 → exec .encFlush s = .next s) ∧
    (s.encOvf = false → s.encNbits ≠ 0#6 → sinkRoom s = 0 → exec .encFlush s = .next { s with encOvf := true }) ∧
    (s.encOvf = false → s.encNbits ≠ 0#6 → sinkRoom s ≠ 0 →
      ∃ (t : State) (v : Byte),
        exec .encFlush s = .next t ∧
        byteBits v = pendingBits s ++ (bitsOf (codeOf s.codes eosSymbol)).take (8 - s.encNbits.toNat) ∧
        byteBits v = pendingBits s ++ List.replicate (8 - s.encNbits.toNat) true ∧
        sinkTook s t [v] ∧
        t = { s with encAcc := 0#64, encNbits := 0#6, encCount := s.encCount + 1#64,
                     mem := t.mem, store := t.store, chainFill := t.chainFill, chainCur := t.chainCur })

/-- R143, R81: in every state, whatever its buffers overlap, ENC_RUN is ENC_INIT, then ENC_SYM of each source byte as
read when its turn comes, then ENC_FLUSH, then the result. -/
def Obligations.EncRunEqualsItsCommands : Prop :=
  ∀ s : State, ∃ (f : Nat → State) (t : State),
    exec .encInit s = .next (f 0) ∧
    (∀ k, k < s.encLen.toNat →
      exec (.encSym (hostRead (f k) (s.encSrc + BitVec.ofNat 64 k))) (f k) = .next (f (k + 1))) ∧
    exec .encFlush (f s.encLen.toNat) = .next t ∧
    exec .encRun s = .next { t with encResult := if t.encOvf then -(1#64) else t.encCount }

/-- R144, R145, R216, R217: with buffers that do not overlap, ENC_RUN appends to its sink exactly the packed stream of
its input, cut at the room the sink has; it overflows iff the stream is longer; ENC_RESULT is the stream's length
`ceil(L / 8)`, or -1. -/
def Obligations.EncRunWritesThePackedStream : Prop :=
  ∀ s : State, Good s →
    (s.sinkMode = .fixed → apart s.encSrc s.encLen.toNat s.encDst s.encCap.toNat) →
    let xs := sourceBytes s s.encSrc s.encLen.toNat
    let y := packedStream s.codes xs
    let room := match s.sinkMode with | .fixed => s.encCap.toNat | .chain => chainRoom s
    y.length = ((codeBits s.codes xs).length + 7) / 8 ∧
    (s.sinkMode = .chain → chainLen s = 0 → room = s.maxChunks.toNat * s.chunkSize.toNat) ∧
    ∃ t, exec .encRun s = .next t ∧
      sinkTook { s with encCount := 0#64 } t (y.take room) ∧
      t.encCount = BitVec.ofNat 64 (min y.length room) ∧
      t.encOvf = decide (room < y.length) ∧
      t.encResult = (if room < y.length then -(1#64) else BitVec.ofNat 64 y.length) ∧
      (y.length ≤ room → t.encAcc = 0#64 ∧ t.encNbits = 0#6) ∧
      t = { s with encAcc := t.encAcc, encNbits := t.encNbits, encCount := t.encCount, encOvf := t.encOvf,
                   encResult := t.encResult, mem := t.mem, store := t.store, chainFill := t.chainFill,
                   chainCur := t.chainCur }

/-- R148: two encodes of the same input into empty fixed buffers of the same capacity return the same result and write
the same bytes, with one code table and whatever else differs between the two states. -/
def Obligations.EncRunIsDeterministic : Prop :=
  ∀ s u : State,
    s.codes = u.codes → s.sinkMode = .fixed → u.sinkMode = .fixed → s.encCap = u.encCap → s.encLen = u.encLen →
    Memory.wf s.mem = true → Memory.wf u.mem = true →
    sourceBytes s s.encSrc s.encLen.toNat = sourceBytes u u.encSrc u.encLen.toNat →
    apart s.encSrc s.encLen.toNat s.encDst s.encCap.toNat → apart u.encSrc u.encLen.toNat u.encDst u.encCap.toNat →
    ∃ t v, exec .encRun s = .next t ∧ exec .encRun u = .next v ∧
      t.encResult = v.encResult ∧ t.encCount = v.encCount ∧
      ∀ k, k < t.encCount.toNat →
        readCell t.mem (s.encDst + BitVec.ofNat 64 k).toNat = readCell v.mem (u.encDst + BitVec.ofNat 64 k).toNat

/-! ## Code table and code tree -/

/-- R10, R24 (a)-(f), of the table R25 that this hardware takes at reset: lengths 5..30 and right-justified patterns; prefix-free; no truncation of EOS is a code; complete
(the sum of 2^-len is 1, here scaled by 2^30); EOS begins with 7 one bits; canonical. -/
def Obligations.CodeTableMeetsItsConstraints : Prop :=
  State.reset.codes = codeTable ∧
  codeTable.length = 257 ∧
  (∀ s, s < 257 → 5 ≤ (codeOf codeTable s).len ∧ (codeOf codeTable s).len ≤ 30 ∧ (codeOf codeTable s).val < 2 ^ (codeOf codeTable s).len) ∧
  (∀ s u, s < 257 → u < 257 → s ≠ u → ¬ bitsOf (codeOf codeTable s) <+: bitsOf (codeOf codeTable u)) ∧
  (∀ n s, n < 30 → s < 257 → (bitsOf (codeOf codeTable eosSymbol)).take n ≠ bitsOf (codeOf codeTable s)) ∧
  (codeTable.map (fun c => 2 ^ (30 - c.len))).sum = 2 ^ 30 ∧
  8 ≤ (codeOf codeTable eosSymbol).len ∧ (bitsOf (codeOf codeTable eosSymbol)).take 7 = List.replicate 7 true ∧
  (∀ s u, s < u → u < 257 → (codeOf codeTable s).len = (codeOf codeTable u).len → (codeOf codeTable s).val < (codeOf codeTable u).val) ∧
  (∀ s u, s < 257 → u < 257 → (codeOf codeTable s).len < (codeOf codeTable u).len →
    (codeOf codeTable s).val < (codeOf codeTable u).val >>> ((codeOf codeTable u).len - (codeOf codeTable s).len))

/-- R51, R50: for every code table that meets R24 the node list has 256 entries, is sorted by depth and then value, holds
exactly the proper prefixes of codes, and `nodeAt` and `nodeIndex` name its entries; depths are 0..29. For the table of
R25 it is the list R51 prints. -/
def Obligations.NodeListIsTheProperPrefixes : Prop :=
  (∀ codes : CodeTable, TableOk codes →
    (nodeList codes).length = 256 ∧
    (nodeList codes).Pairwise (fun x y => x.len < y.len ∨ x.len = y.len ∧ x.val < y.val) ∧
    (∀ d p, (⟨d, p⟩ : BitString) ∈ nodeList codes ↔
      ∃ s, s < 257 ∧ d < (codeOf codes s).len ∧ p = (codeOf codes s).val >>> ((codeOf codes s).len - d)) ∧
    (∀ x, isNode codes x = true ↔ x ∈ nodeList codes) ∧
    (∀ i : BitVec 8, (nodeList codes)[i.toNat]? = some (nodeAt codes i) ∧
      nodeIndex codes (nodeAt codes i) = i ∧ (nodeAt codes i).len ≤ 29) ∧
    nodeAt codes 0#8 = ⟨0, 0⟩) ∧
  nodeList codeTable = printedNodes

/-- R55: a node is accepting iff its bits are at most 7 and all 1; for the table of R25 these are nodes 0, 2, 6, 14, 30,
52, 70 and 74. -/
def Obligations.AcceptingNodesAreThePadding : Prop :=
  (∀ codes : CodeTable, TableOk codes → ∀ i : BitVec 8,
    accepting (nodeAt codes i) = true ↔ ∃ n, n ≤ 7 ∧ bitsOf (nodeAt codes i) = List.replicate n true) ∧
  ∀ i : BitVec 8, accepting (nodeAt codeTable i) = true ↔
    i ∈ ([0#8, 2#8, 6#8, 14#8, 30#8, 52#8, 70#8, 74#8] : List (BitVec 8))

/-- R170, R172, for every code table that meets R24: T follows the code tree. The node's bits and the nibble's bits spell
the new node, or one symbol's code and then the new node (at most 3 bits of it), or, when T is INVALID, begin with the
EOS code. -/
def Obligations.TransitionFollowsTheCodeTree : Prop :=
  ∀ (codes : CodeTable) (i : BitVec 8) (n : BitVec 4), TableOk codes →
    let bits := bitsOf (nodeAt codes i) ++ [n.getLsbD 3, n.getLsbD 2, n.getLsbD 1, n.getLsbD 0]
    match transition codes (nodeAt codes i) n with
    | .invalid => bitsOf (codeOf codes eosSymbol) <+: bits
    | .goes y none => isNode codes y = true ∧ bits = bitsOf y
    | .goes y (some b) => isNode codes y = true ∧ y.len ≤ 3 ∧ bits = bitsOf (codeOf codes b.toNat) ++ bitsOf y

/-- R171: with the table of R25 the INVALID entries of T are the 15 that complete the EOS code. -/
def Obligations.InvalidTransitionsAreTheEosOnes : Prop :=
  ∀ (i : BitVec 8) (n : BitVec 4),
    transition codeTable (nodeAt codeTable i) n = .invalid ↔
      i = 237#8 ∧ n = 0xF#4 ∨ i = 252#8 ∧ 0xE#4 ≤ n ∨ i = 253#8 ∧ 0xC#4 ≤ n ∨ i = 255#8 ∧ 0x8#4 ≤ n

/-! ## Decoder -/

/-- R174: DEC_INIT. -/
def Obligations.DecInitStartsADecode : Prop :=
  ∀ s : State, exec .decInit s =
    .next { s with decNode := 0#8, decCode := .ok, decCount := 0#64, decConsumed := 0#64 }

/-- R175: DEC_NIB takes one transition of T; InvalidCode is tested first; a decoded byte that finds
`DEC_COUNT >= DEC_CAP` is Overflow with NODE kept and nothing written. -/
def Obligations.DecNibTakesOneTransition : Prop :=
  ∀ (s : State) (n : BitVec 4),
    (s.decCode ≠ .ok → exec (.decNib n) s = .next s) ∧
    (s.decCode = .ok →
      (transition s.codes (nodeAt s.codes s.decNode) n = .invalid →
        exec (.decNib n) s = .next { s with decCode := .invalidCode }) ∧
      (∀ y, transition s.codes (nodeAt s.codes s.decNode) n = .goes y none →
        exec (.decNib n) s = .next { s with decNode := nodeIndex s.codes y }) ∧
      (∀ y b, transition s.codes (nodeAt s.codes s.decNode) n = .goes y (some b) →
        (s.decCap ≤ s.decCount → exec (.decNib n) s = .next { s with decCode := .overflow }) ∧
        (s.decCount < s.decCap → exec (.decNib n) s = .next { s with
          mem := writeCell s.mem (s.decDst + s.decCount).toNat b
          decCount := s.decCount + 1#64
          decNode := nodeIndex s.codes y })))

/-- R176: DEC_BYTE is DEC_NIB of the high nibble, then, unless that failed, of the low nibble, then DEC_CONSUMED + 1
unless that failed. -/
def Obligations.DecByteIsTwoNibbles : Prop :=
  ∀ (s : State) (b : Byte),
    (s.decCode ≠ .ok → exec (.decByte b) s = .next s) ∧
    (s.decCode = .ok →
      ∃ t, exec (.decNib (BitVec.ofNat 4 (b.toNat / 16))) s = .next t ∧
        (t.decCode ≠ .ok → exec (.decByte b) s = .next t) ∧
        (t.decCode = .ok →
          ∃ u, exec (.decNib (BitVec.ofNat 4 (b.toNat % 16))) t = .next u ∧
            exec (.decByte b) s =
              .next (if u.decCode = .ok then { u with decConsumed := u.decConsumed + 1#64 } else u)))

/-- R177: DEC_END changes nothing but DEC_STATUS.CODE, from 0 to TruncatedInput when the node is not accepting. -/
def Obligations.DecEndChecksAcceptance : Prop :=
  ∀ s : State,
    exec .decEnd s =
      .next (if s.decCode = .ok ∧ accepting (nodeAt s.codes s.decNode) = false then { s with decCode := .truncatedInput } else s)

/-- R179: while DEC_STATUS.CODE is not 0, DEC_NIB, DEC_BYTE and DEC_END change nothing and DEC_RUN only DEC_RESULT, and
only DEC_INIT, a write to DEC_STATE and SOFT_RESET change the code. -/
def Obligations.DecoderErrorGatesItsCommands : Prop :=
  ∀ (s : State) (n : BitVec 4) (b : Byte) (m : DecMode), s.decCode ≠ .ok →
    exec (.decNib n) s = .next s ∧ exec (.decByte b) s = .next s ∧ exec .decEnd s = .next s ∧
    exec (.decRun m) s = .next { s with
      decResult :=
      match s.decCode with
      | .ok => 0#64
      | .overflow => 0xFFFFFFFFFFFFFFFF#64
      | .invalidCode => 0xFFFFFFFFFFFFFFFE#64
      | .truncatedInput => 0xFFFFFFFFFFFFFFFD#64 } ∧
    ∀ (i : Instr) (t : State), exec i s = .next t → t.decCode ≠ s.decCode →
      t.decCode = .ok ∧ (performed i = .decInit ∨ performed i = .softReset ∨ ∃ v, i = .wr 64 0x130#12 v)

/-- R178, R81: with CODE = 0, whatever its buffers overlap, DEC_RUN clears the counts, is DEC_BYTE of each source byte as
read when its turn comes, then DEC_END in Final mode, then the result; with CODE set it writes DEC_RESULT only. -/
def Obligations.DecRunEqualsItsCommands : Prop :=
  ∀ (s : State) (m : DecMode),
    (s.decCode ≠ .ok → exec (.decRun m) s = .next { s with
      decResult :=
      match s.decCode with
      | .ok => 0#64
      | .overflow => 0xFFFFFFFFFFFFFFFF#64
      | .invalidCode => 0xFFFFFFFFFFFFFFFE#64
      | .truncatedInput => 0xFFFFFFFFFFFFFFFD#64 }) ∧
    (s.decCode = .ok → ∃ (f : Nat → State) (t : State),
    f 0 = { s with decCount := 0#64, decConsumed := 0#64 } ∧
    (∀ k, k < s.decLen.toNat →
      exec (.decByte (hostRead (f k) (s.decSrc + BitVec.ofNat 64 k))) (f k) = .next (f (k + 1))) ∧
    (m = .resumable → t = f s.decLen.toNat) ∧
    (m = .final → exec .decEnd (f s.decLen.toNat) = .next t) ∧
    exec (.decRun m) s = .next { t with
      decResult :=
      match t.decCode with
      | .ok => t.decCount
      | .overflow => 0xFFFFFFFFFFFFFFFF#64
      | .invalidCode => 0xFFFFFFFFFFFFFFFE#64
      | .truncatedInput => 0xFFFFFFFFFFFFFFFD#64 })

/-- R181, with R52, R71 and R241: what DEC_RUN reports. On success DEC_CONSUMED = DEC_LEN and DEC_RESULT = DEC_COUNT;
TruncatedInput, possible in Final mode only, comes after all input; another error comes at a byte not consumed; only
decoder state changes, and only the DEC_COUNT bytes at DEC_DST are stored. -/
def Obligations.DecRunReportsItsResult : Prop :=
  ∀ (s : State) (m : DecMode), s.decCode = .ok →
    ∃ t, exec (.decRun m) s = .next t ∧
      (t.decCode = .ok → t.decResult = t.decCount ∧ t.decConsumed = s.decLen) ∧
      (t.decCode = .ok → m = .final → accepting (nodeAt t.codes t.decNode) = true) ∧
      (t.decCode = .truncatedInput → m = .final ∧ t.decConsumed = s.decLen ∧ t.decResult = -(3#64)) ∧
      (t.decCode = .invalidCode → t.decConsumed.toNat < s.decLen.toNat ∧ t.decResult = -(2#64)) ∧
      (t.decCode = .overflow → t.decConsumed.toNat < s.decLen.toNat ∧ t.decResult = -(1#64)) ∧
      t.decCount.toNat ≤ s.decCap.toNat ∧
      (∀ a, ¬ inBuffer s.decDst t.decCount.toNat a → readCell t.mem a = readCell s.mem a) ∧
      t = { s with decNode := t.decNode, decCode := t.decCode, decCount := t.decCount,
                   decConsumed := t.decConsumed, decResult := t.decResult, mem := t.mem }

/-- R184, for every input stream, valid or not: decoding the first k bytes in Resumable mode and then the rest, the node
carried in DEC_STATE and the output buffers concatenated, writes the same bytes and ends in the same node and status as
decoding the whole; an error in the first part is the error of the whole. -/
def Obligations.SplitDecodeAgreesWithWhole : Prop :=
  ∀ (s : State) (m : DecMode) (k : Nat), s.decCode = .ok → k ≤ s.decLen.toNat →
    ∃ t u v,
      exec (.decRun .resumable) { s with decLen := BitVec.ofNat 64 k } = .next t ∧
      exec (.decRun m) { t with
        decSrc := s.decSrc + BitVec.ofNat 64 k
        decLen := s.decLen - BitVec.ofNat 64 k
        decDst := s.decDst + t.decCount
        decCap := s.decCap - t.decCount } = .next u ∧
      exec (.decRun m) s = .next v ∧
      (t.decCode = .ok →
        u.decNode = v.decNode ∧ u.decCode = v.decCode ∧ u.mem = v.mem ∧
        t.decCount + u.decCount = v.decCount ∧ t.decConsumed + u.decConsumed = v.decConsumed) ∧
      (t.decCode ≠ .ok →
        v.decNode = t.decNode ∧ v.decCode = t.decCode ∧ v.mem = t.mem ∧
        v.decCount = t.decCount ∧ v.decConsumed = t.decConsumed)

/-- R101, for every code table that meets R24: a valid packed stream packs one byte sequence only, and decoding it in Final mode with enough output capacity
never fails and returns that sequence. -/
def Obligations.ValidStreamDecodesToItsSource : Prop :=
  (∀ (codes : CodeTable) (xs ys : List Byte), TableOk codes →
    packedStream codes xs = packedStream codes ys → xs = ys) ∧
  ∀ (s : State) (xs : List Byte), TableOk s.codes → s.decCode = .ok → s.decNode = 0#8 →
    s.decLen.toNat = (packedStream s.codes xs).length →
    sourceBytes s s.decSrc s.decLen.toNat = packedStream s.codes xs →
    xs.length ≤ s.decCap.toNat →
    apart s.decSrc s.decLen.toNat s.decDst xs.length →
    ∃ t, exec (.decRun .final) s = .next t ∧
      t.decCode = .ok ∧ t.decResult = BitVec.ofNat 64 xs.length ∧ t.decConsumed = s.decLen ∧
      accepting (nodeAt t.codes t.decNode) = true ∧
      t.mem = writeBytes s.mem s.decDst xs ∧
      t = { s with decNode := t.decNode, decCount := t.decCount, decConsumed := t.decConsumed,
                   decResult := t.decResult, mem := t.mem }

/-- R185, for every code table that meets R24: decoding what ENC_RUN wrote, with DEC_INIT and DEC_RUN F into a buffer of at least the source's length, returns
the source's length and writes the source. -/
def Obligations.EncodeThenDecodeReturnsTheSource : Prop :=
  ∀ (s t : State) (dst cap : Word),
    TableOk s.codes → s.sinkMode = .fixed → s.raced = [] → Memory.wf s.mem = true →
    apart s.encSrc s.encLen.toNat s.encDst s.encCap.toNat →
    exec .encRun s = .next t → t.encOvf = false →
    s.encLen.toNat ≤ cap.toNat →
    apart s.encDst t.encCount.toNat dst s.encLen.toNat →
    ∃ d u,
      exec .decInit { t with decSrc := s.encDst, decLen := t.encCount, decDst := dst, decCap := cap } = .next d ∧
      exec (.decRun .final) d = .next u ∧
      u.decCode = .ok ∧ u.decResult = s.encLen ∧
      ∀ k, k < s.encLen.toNat →
        readCell u.mem (dst + BitVec.ofNat 64 k).toNat = readCell s.mem (s.encSrc + BitVec.ofNat 64 k).toNat

/-- R256: the node kept after InvalidCode is the one before the failing nibble, so loading it again and feeding the same
nibble fails again. -/
def Obligations.RefedInvalidNibbleFailsAgain : Prop :=
  ∀ (s t : State) (n : BitVec 4),
    s.decCode = .ok → exec (.decNib n) s = .next t → t.decCode = .invalidCode →
    t.decNode = s.decNode ∧
    ∃ u, exec (.wr 64 0x130#12 (t.decNode.setWidth 64)) t = .next u ∧ u.decCode = .ok ∧
      exec (.decNib n) u = .next { u with decCode := .invalidCode }

/-! ## Sinks -/

/-- R214: SINK_RESET k keeps min(k, CHAIN_COUNT) chunks, each empty, with the cursor at chunk 0 or none; the chain then
holds no byte; nothing else changes. Nothing is said of the chunk store's bytes, which no longer belong to the stream
(R72). -/
def Obligations.SinkResetKeepsEmptyChunks : Prop :=
  ∀ (s : State) (k : BitVec 24), ∃ t, exec (.sinkReset k) s = .next t ∧
    t.chainFill.length = min k.toNat s.chainFill.length ∧ (∀ i, fillOf t i = 0) ∧
    (t.chainFill.length = 0 → t.chainCur = none) ∧ (t.chainFill.length ≠ 0 → t.chainCur = some 0) ∧
    chainLen t = 0 ∧
    t = { s with chainFill := t.chainFill, chainCur := t.chainCur, store := t.store }

/-- R40: CHAIN_LEN reads the length of the chain's stream, which is the concatenation of chunks 0..CHAIN_CUR, each taken
up to its FILL, and is empty when CHAIN_CUR is none. -/
def Obligations.ChainStreamIsTheChunksInOrder : Prop :=
  ∀ s : State, paramsOk s → chainOk s →
    exec (.rd 64 0x040#12) s = .next (returned (BitVec.ofNat 64 (chainStream s).length) s) ∧
    (s.chainCur = none → chainStream s = []) ∧
    ∀ c, s.chainCur = some c →
      chainStream s = (List.range (c + 1)).flatMap (fun i => (List.range (fillOf s i)).map (chunkRead s i)) ∧
      (chainStream s).length = c * s.chunkSize.toNat + fillOf s c

/-- R212, R210: an encoder command in chain mode moves the cursor to the chunk of the last byte it appends, and allocates
a chunk only when the stream needs one the chain does not hold; with no byte appended the chain is unchanged. -/
def Obligations.ChainGrowsByTheChunksItNeeds : Prop :=
  ∀ (i : Instr) (s t : State), Good s → s.sinkMode = .chain → isEncoderCommand i = true → exec i s = .next t →
    chainLen s ≤ chainLen t ∧
    (chainLen t = chainLen s → t.chainFill = s.chainFill ∧ t.chainCur = s.chainCur) ∧
    (chainLen s < chainLen t → t.chainCur = some ((chainLen t - 1) / s.chunkSize.toNat)) ∧
    t.chainFill.length = max s.chainFill.length ((chainLen t + s.chunkSize.toNat - 1) / s.chunkSize.toNat)

/-- R72, R41: chunk-store bytes at or beyond the chain's stream length are never observable: two states that differ only
there answer every instruction alike, and the next states again differ only there. -/
def Obligations.HiddenChunkBytesAreUnobservable : Prop :=
  ∀ (i : Instr) (s u : State), Good s → Memory.wf u.store = true → sameButHidden s u →
    outcomesRelated sameButHidden (exec i s) (exec i u)

/-! ## The whole machine -/

/-- R34, R35, R36, R54, R241, R247: each status is set, OVF and ILL are cleared, and each result is written, only by the
commands the rules name. -/
def Obligations.StatusChangesOnlyByItsCommands : Prop :=
  ∀ (i : Instr) (s t : State), exec i s = .next t →
    (s.encOvf = true → t.encOvf = false →
      performed i = .encInit ∨ performed i = .encRun ∨ performed i = .softReset) ∧
    (s.ill = true → t.ill = false → performed i = .clrErr ∨ performed i = .softReset) ∧
    (s.decCode = .ok → t.decCode ≠ .ok →
      (∃ n, performed i = .decNib n) ∨ (∃ b, performed i = .decByte b) ∨ performed i = .decEnd ∨
        ∃ m, performed i = .decRun m) ∧
    (s.encOvf = false → t.encOvf = true →
      (∃ b, performed i = .encSym b) ∨ performed i = .encFlush ∨ performed i = .encRun) ∧
    (s.ill = false → t.ill = true → ∃ w, i = .wr 64 0x010#12 w ∧ ¬ legalWord w) ∧
    (t.encResult ≠ s.encResult → performed i = .encRun ∨ performed i = .softReset) ∧
    (t.decResult ≠ s.decResult → (∃ m, performed i = .decRun m) ∨ performed i = .softReset)

/-- R19, with R30 and R56: an encoder command changes only the encoder, its sink and host memory, and does the same
whatever the decoder's registers hold; a decoder command changes only the decoder and host memory, and does the same
whatever the encoder's registers and sink hold. -/
def Obligations.EnginesAreIndependent : Prop :=
  ∀ (i : Instr) (s u t : State), exec i s = .next t →
    (isEncoderCommand (performed i) = true →
      exec i (withDecoderOf u s) = .next (withDecoderOf u t) ∧
      t = { s with encCount := t.encCount, encAcc := t.encAcc, encNbits := t.encNbits, encOvf := t.encOvf,
                   encResult := t.encResult, mem := t.mem, store := t.store, chainFill := t.chainFill,
                   chainCur := t.chainCur }) ∧
    (isDecoderCommand (performed i) = true →
      exec i (withEncoderOf u s) = .next (withEncoderOf u t) ∧
      t = { s with decCount := t.decCount, decConsumed := t.decConsumed, decNode := t.decNode,
                   decCode := t.decCode, decResult := t.decResult, mem := t.mem })

/-- R71: a byte of host memory changes only inside [ENC_DST, ENC_DST + ENC_CAP), by ENC_SYM, ENC_FLUSH or ENC_RUN in
fixed mode, or inside [DEC_DST, DEC_DST + DEC_CAP), by DEC_NIB, DEC_BYTE or DEC_RUN. -/
def Obligations.HostMemoryWritesStayInTheBuffers : Prop :=
  ∀ (i : Instr) (s t : State) (a : Nat), exec i s = .next t → readCell t.mem a ≠ readCell s.mem a →
    (inBuffer s.encDst s.encCap.toNat a ∧ s.sinkMode = .fixed ∧
      ((∃ b, performed i = .encSym b) ∨ performed i = .encFlush ∨ performed i = .encRun)) ∨
    (inBuffer s.decDst s.decCap.toNat a ∧
      ((∃ n, performed i = .decNib n) ∨ (∃ b, performed i = .decByte b) ∨ (∃ m, performed i = .decRun m)))

/-- R97: the pseudo-commands and their expansions. -/
def Obligations.PseudoCommandsExpand : Prop :=
  ∀ (text : List Byte) (src len dst cap tok : Word),
    encStr text = text.map (fun b => .write 64 0x010#12 (0x11000000#64 ||| b.setWidth 64)) ∧
    decBytes text = text.map (fun b => .write 64 0x010#12 (0x22000000#64 ||| b.setWidth 64)) ∧
    encodeCall src len dst cap =
      [.write 64 0x080#12 src, .write 64 0x088#12 len, .write 64 0x090#12 dst, .write 64 0x098#12 cap,
       .write 64 0x010#12 0x13000000#64, .read 64 0x0C0#12] ∧
    decodeCall .resumable src len dst cap =
      [.write 64 0x100#12 src, .write 64 0x108#12 len, .write 64 0x110#12 dst, .write 64 0x118#12 cap,
       .write 64 0x010#12 0x24000000#64, .read 64 0x140#12] ∧
    decodeCall .final src len dst cap =
      [.write 64 0x100#12 src, .write 64 0x108#12 len, .write 64 0x110#12 dst, .write 64 0x118#12 cap,
       .write 64 0x010#12 0x24000001#64, .read 64 0x140#12] ∧
    saveToken = [.read 64 0x130#12] ∧
    loadToken tok = [.write 64 0x130#12 tok]
end

