-- ==== Sys2Proof/Laws/Bits.lean ====
section
/-! SUPPORT. Bit strings as lists of bits (R15, R75). -/

namespace Sys2Proof.Machine

@[simp] theorem length_bitsOf (x : BitString) : (bitsOf x).length = x.len := by simp [bitsOf]

@[simp] theorem length_byteBits (b : Byte) : (byteBits b).length = 8 := by simp [byteBits]

theorem getElem?_bitsOf (x : BitString) (k : Nat) :
    (bitsOf x)[k]? = if k < x.len then some (x.val.testBit (x.len - 1 - k)) else none := by
  by_cases h : k < x.len <;> simp [bitsOf, h]

/-- A bit string cut in two: the high bits, then the low bits. -/
theorem bitsOf_split (m n v : Nat) : bitsOf ⟨m + n, v⟩ = bitsOf ⟨m, v / 2 ^ n⟩ ++ bitsOf ⟨n, v % 2 ^ n⟩ := by
  apply List.ext_getElem?
  intro k
  rw [List.getElem?_append, getElem?_bitsOf, getElem?_bitsOf, getElem?_bitsOf, length_bitsOf]
  by_cases h1 : k < m
  · have : k < m + n := by omega
    simp only [h1, this, if_true, ← Nat.shiftRight_eq_div_pow, Nat.testBit_shiftRight]
    congr 2; omega
  · by_cases h2 : k < m + n
    · have : k - m < n := by omega
      simp only [h1, h2, this, if_true, if_false, Nat.testBit_mod_two_pow]
      have e : m + n - 1 - k = n - 1 - (k - m) := by omega
      have l : n - 1 - (k - m) < n := by omega
      simp [e, l]
    · have : ¬ k - m < n := by omega
      simp [h1, h2, this]

/-- Only the low `len` bits of the value count. -/
theorem bitsOf_mod (n v : Nat) : bitsOf ⟨n, v % 2 ^ n⟩ = bitsOf ⟨n, v⟩ := by
  have := bitsOf_split 0 n v
  simpa [bitsOf] using this.symm

theorem bitsOf_append (m n a b : Nat) (hb : b < 2 ^ n) :
    bitsOf ⟨m, a⟩ ++ bitsOf ⟨n, b⟩ = bitsOf ⟨m + n, a * 2 ^ n + b⟩ := by
  have hd : (a * 2 ^ n + b) / 2 ^ n = a := by
    rw [Nat.add_comm, Nat.add_mul_div_right _ _ (Nat.two_pow_pos n), Nat.div_eq_of_lt hb, Nat.zero_add]
  have hm : (a * 2 ^ n + b) % 2 ^ n = b := by
    rw [Nat.add_comm, Nat.add_mul_mod_self_right, Nat.mod_eq_of_lt hb]
  rw [bitsOf_split, hd, hm]

theorem byteBits_ofNat (v : Nat) : byteBits (BitVec.ofNat 8 v) = bitsOf ⟨8, v⟩ := by
  have h : (BitVec.ofNat 8 v).toNat = v % 2 ^ 8 := rfl
  rw [byteBits, h, bitsOf_mod]

/-- Two bit strings of one length with the same bits have the same value. -/
theorem bitsOf_inj {n a b : Nat} (ha : a < 2 ^ n) (hb : b < 2 ^ n) (h : bitsOf ⟨n, a⟩ = bitsOf ⟨n, b⟩) : a = b := by
  apply Nat.eq_of_testBit_eq
  intro i
  by_cases hi : i < n
  · have := congrArg (fun l => l[n - 1 - i]?) h
    simp only [getElem?_bitsOf] at this
    have l : n - 1 - i < n := by omega
    have e : n - 1 - (n - 1 - i) = i := by omega
    simpa [l, e] using this
  · rw [Nat.testBit_lt_two_pow (lt_of_lt_of_le ha (Nat.pow_le_pow_right (by omega) (by omega))),
      Nat.testBit_lt_two_pow (lt_of_lt_of_le hb (Nat.pow_le_pow_right (by omega) (by omega)))]

end Sys2Proof.Machine
end

