-- ==== Sys2Proof/Laws/Memory.lean ====
section
/-! SUPPORT. The laws of the cell lists: a read gives the last write, a write changes one address, every memory
operation keeps the canonical form. -/

namespace Sys2Proof.Machine

theorem readCell_below {m : Memory} {lo a : Nat} (h : cellsFrom lo m = true) (ha : a < lo) :
    readCell m a = unlistedByte := by
  induction m generalizing lo with
  | nil => rfl
  | cons c rest ih =>
    obtain ⟨k, v⟩ := c
    simp only [cellsFrom, Bool.and_eq_true, decide_eq_true_eq] at h
    have hk : k ≠ a := by omega
    simp only [readCell, if_neg hk]
    exact ih h.2 (by omega)

theorem cellsFrom_mono {m : Memory} {lo lo' : Nat} (h : cellsFrom lo m = true) (hl : lo' ≤ lo) :
    cellsFrom lo' m = true := by
  cases m with
  | nil => rfl
  | cons c rest =>
    obtain ⟨k, v⟩ := c
    simp only [cellsFrom, Bool.and_eq_true, decide_eq_true_eq] at h ⊢
    exact ⟨⟨by omega, h.1.2⟩, h.2⟩

theorem readCell_writeCell_same {m : Memory} {lo : Nat} (h : cellsFrom lo m = true) (a : Nat) (v : Byte) :
    readCell (writeCell m a v) a = v := by
  induction m generalizing lo with
  | nil =>
    by_cases hv : v = unlistedByte
    · simp [writeCell, readCell, hv]
    · simp [writeCell, readCell, hv]
  | cons c rest ih =>
    obtain ⟨k, w⟩ := c
    simp only [cellsFrom, Bool.and_eq_true, decide_eq_true_eq] at h
    have below : a ≤ k → readCell rest a = unlistedByte := fun hak => readCell_below h.2 (by omega)
    by_cases hlt : a < k
    · have hne : k ≠ a := by omega
      by_cases hv : v = unlistedByte
      · simp [writeCell, readCell, hlt, hv, hne, below (by omega)]
      · simp [writeCell, readCell, hlt, hv]
    · by_cases heq : a = k
      · by_cases hv : v = unlistedByte
        · simp [writeCell, heq, hv]
          rw [← heq]
          exact below (by omega)
        · simp [writeCell, readCell, heq, hv]
      · have hne : k ≠ a := fun e => heq e.symm
        simp only [writeCell, if_neg hlt, if_neg heq, readCell, if_neg hne]
        exact ih h.2

/-- A write leaves every other address alone, in any list of cells. -/
theorem readCell_writeCell_other (m : Memory) {a b : Nat} (v : Byte) (hab : b ≠ a) :
    readCell (writeCell m a v) b = readCell m b := by
  induction m with
  | nil =>
    have hba : a ≠ b := fun e => hab e.symm
    by_cases hv : v = unlistedByte <;> simp [writeCell, readCell, hv, hba]
  | cons c rest ih =>
    obtain ⟨k, w⟩ := c
    have hba : a ≠ b := fun e => hab e.symm
    by_cases hlt : a < k
    · by_cases hv : v = unlistedByte <;> simp [writeCell, readCell, hlt, hv, hba]
    · by_cases heq : a = k
      · have hkb : k ≠ b := by omega
        by_cases hv : v = unlistedByte <;> simp [writeCell, readCell, heq, hv, hkb]
      · simp only [writeCell, if_neg hlt, if_neg heq, readCell, ih]

theorem readCell_writeCell {m : Memory} (h : Memory.wf m = true) (a b : Nat) (v : Byte) :
    readCell (writeCell m a v) b = if b = a then v else readCell m b := by
  by_cases hab : b = a
  · rw [if_pos hab, hab]
    exact readCell_writeCell_same h a v
  · rw [if_neg hab]
    exact readCell_writeCell_other m v hab

theorem cellsFrom_writeCell {m : Memory} {lo : Nat} (h : cellsFrom lo m = true) {a : Nat} (ha : lo ≤ a) (v : Byte) :
    cellsFrom lo (writeCell m a v) = true := by
  induction m generalizing lo with
  | nil => by_cases hv : v = unlistedByte <;> simp [writeCell, cellsFrom, hv, ha]
  | cons c rest ih =>
    obtain ⟨k, w⟩ := c
    simp only [cellsFrom, Bool.and_eq_true, decide_eq_true_eq] at h
    by_cases hlt : a < k
    · by_cases hv : v = unlistedByte
      · simp [writeCell, cellsFrom, hlt, hv, h.1.1, h.1.2, h.2]
      · have hak : a + 1 ≤ k := hlt
        simp [writeCell, cellsFrom, hlt, hv, ha, hak, h.1.2, h.2]
    · by_cases heq : a = k
      · by_cases hv : v = unlistedByte
        · simp only [writeCell, heq, hv, lt_irrefl, if_true, if_false]
          exact cellsFrom_mono h.2 (by omega)
        · simp [writeCell, cellsFrom, heq, hv, h.1.1, h.2]
      · simp only [writeCell, if_neg hlt, if_neg heq, cellsFrom, Bool.and_eq_true, decide_eq_true_eq]
        exact ⟨h.1, ih h.2 (by omega)⟩

theorem wf_writeCell {m : Memory} (h : Memory.wf m = true) (a : Nat) (v : Byte) :
    Memory.wf (writeCell m a v) = true := cellsFrom_writeCell h (Nat.zero_le a) v

theorem within_writeCell {m : Memory} {bound : Nat} (h : Memory.within bound m = true) {a : Nat} (ha : a < bound)
    (v : Byte) : Memory.within bound (writeCell m a v) = true := by
  induction m with
  | nil => by_cases hv : v = unlistedByte <;> simp [writeCell, Memory.within, hv, ha]
  | cons c rest ih =>
    obtain ⟨k, w⟩ := c
    simp only [Memory.within, List.all_cons, Bool.and_eq_true, decide_eq_true_eq] at h
    by_cases hlt : a < k
    · by_cases hv : v = unlistedByte <;>
        simp [writeCell, Memory.within, hlt, hv, ha, h.1] <;> simpa using h.2
    · by_cases heq : a = k
      · by_cases hv : v = unlistedByte <;>
          simp [writeCell, Memory.within, heq, hv, h.1] <;> simpa using h.2
      · simp only [writeCell, if_neg hlt, if_neg heq, Memory.within, List.all_cons, Bool.and_eq_true,
          decide_eq_true_eq]
        exact ⟨h.1, ih h.2⟩

theorem wf_hostWrite {s : State} (h : Memory.wf s.mem = true) (a : Word) (v : Byte) :
    Memory.wf (hostWrite a v s).mem = true := wf_writeCell h a.toNat v

theorem within_hostWrite {s : State} (h : Memory.within (2 ^ 64) s.mem = true) (a : Word) (v : Byte) :
    Memory.within (2 ^ 64) (hostWrite a v s).mem = true := within_writeCell h a.isLt v

theorem wf_chunkWrite {s : State} (h : Memory.wf s.store = true) (i j : Nat) (v : Byte) :
    Memory.wf (chunkWrite i j v s).store = true := wf_writeCell h _ v

theorem wf_writeBytes {m : Memory} (h : Memory.wf m = true) (dst : Word) (ys : List Byte) :
    Memory.wf (writeBytes m dst ys) = true := by
  induction ys generalizing m dst with
  | nil => exact h
  | cons y ys ih => exact ih (wf_writeCell h _ y) _

theorem wf_scribble {m : Memory} (h : Memory.wf m = true) (epoch : Nat) (raced : List Word) :
    Memory.wf (scribble epoch raced m) = true := by
  induction raced generalizing m with
  | nil => exact h
  | cons a rest ih => exact ih (wf_writeCell h _ _)

theorem within_scribble {m : Memory} (h : Memory.within (2 ^ 64) m = true) (epoch : Nat) (raced : List Word) :
    Memory.within (2 ^ 64) (scribble epoch raced m) = true := by
  induction raced generalizing m with
  | nil => exact h
  | cons a rest ih => exact ih (within_writeCell h a.isLt _)

theorem wf_reset_mem : Memory.wf State.reset.mem = true := rfl

theorem wf_reset_store : Memory.wf State.reset.store = true := rfl

end Sys2Proof.Machine
end

