-- ==== Sys2Proof/Laws/State.lean ====
section
/-! SUPPORT. What each update of the state leaves in each field. -/

namespace Sys2Proof.Machine

/-! ## hostWrite -/

@[simp] theorem hostWrite_codes (a : Word) (v : Byte) (s : State) : (hostWrite a v s).codes = s.codes := rfl
@[simp] theorem hostWrite_chunkSize (a : Word) (v : Byte) (s : State) : (hostWrite a v s).chunkSize = s.chunkSize := rfl
@[simp] theorem hostWrite_maxChunks (a : Word) (v : Byte) (s : State) : (hostWrite a v s).maxChunks = s.maxChunks := rfl
@[simp] theorem hostWrite_blockPage (a : Word) (v : Byte) (s : State) : (hostWrite a v s).blockPage = s.blockPage := rfl
@[simp] theorem hostWrite_ill (a : Word) (v : Byte) (s : State) : (hostWrite a v s).ill = s.ill := rfl
@[simp] theorem hostWrite_errCmd (a : Word) (v : Byte) (s : State) : (hostWrite a v s).errCmd = s.errCmd := rfl
@[simp] theorem hostWrite_sinkMode (a : Word) (v : Byte) (s : State) : (hostWrite a v s).sinkMode = s.sinkMode := rfl
@[simp] theorem hostWrite_chainFill (a : Word) (v : Byte) (s : State) : (hostWrite a v s).chainFill = s.chainFill := rfl
@[simp] theorem hostWrite_chainCur (a : Word) (v : Byte) (s : State) : (hostWrite a v s).chainCur = s.chainCur := rfl
@[simp] theorem hostWrite_chainRaddr (a : Word) (v : Byte) (s : State) : (hostWrite a v s).chainRaddr = s.chainRaddr := rfl
@[simp] theorem hostWrite_encSrc (a : Word) (v : Byte) (s : State) : (hostWrite a v s).encSrc = s.encSrc := rfl
@[simp] theorem hostWrite_encLen (a : Word) (v : Byte) (s : State) : (hostWrite a v s).encLen = s.encLen := rfl
@[simp] theorem hostWrite_encDst (a : Word) (v : Byte) (s : State) : (hostWrite a v s).encDst = s.encDst := rfl
@[simp] theorem hostWrite_encCap (a : Word) (v : Byte) (s : State) : (hostWrite a v s).encCap = s.encCap := rfl
@[simp] theorem hostWrite_encCount (a : Word) (v : Byte) (s : State) : (hostWrite a v s).encCount = s.encCount := rfl
@[simp] theorem hostWrite_encAcc (a : Word) (v : Byte) (s : State) : (hostWrite a v s).encAcc = s.encAcc := rfl
@[simp] theorem hostWrite_encNbits (a : Word) (v : Byte) (s : State) : (hostWrite a v s).encNbits = s.encNbits := rfl
@[simp] theorem hostWrite_encOvf (a : Word) (v : Byte) (s : State) : (hostWrite a v s).encOvf = s.encOvf := rfl
@[simp] theorem hostWrite_encResult (a : Word) (v : Byte) (s : State) : (hostWrite a v s).encResult = s.encResult := rfl
@[simp] theorem hostWrite_decSrc (a : Word) (v : Byte) (s : State) : (hostWrite a v s).decSrc = s.decSrc := rfl
@[simp] theorem hostWrite_decLen (a : Word) (v : Byte) (s : State) : (hostWrite a v s).decLen = s.decLen := rfl
@[simp] theorem hostWrite_decDst (a : Word) (v : Byte) (s : State) : (hostWrite a v s).decDst = s.decDst := rfl
@[simp] theorem hostWrite_decCap (a : Word) (v : Byte) (s : State) : (hostWrite a v s).decCap = s.decCap := rfl
@[simp] theorem hostWrite_decCount (a : Word) (v : Byte) (s : State) : (hostWrite a v s).decCount = s.decCount := rfl
@[simp] theorem hostWrite_decConsumed (a : Word) (v : Byte) (s : State) : (hostWrite a v s).decConsumed = s.decConsumed := rfl
@[simp] theorem hostWrite_decNode (a : Word) (v : Byte) (s : State) : (hostWrite a v s).decNode = s.decNode := rfl
@[simp] theorem hostWrite_decCode (a : Word) (v : Byte) (s : State) : (hostWrite a v s).decCode = s.decCode := rfl
@[simp] theorem hostWrite_decResult (a : Word) (v : Byte) (s : State) : (hostWrite a v s).decResult = s.decResult := rfl
@[simp] theorem hostWrite_mem (a : Word) (v : Byte) (s : State) : (hostWrite a v s).mem = writeCell s.mem a.toNat v := rfl
@[simp] theorem hostWrite_store (a : Word) (v : Byte) (s : State) : (hostWrite a v s).store = s.store := rfl
@[simp] theorem hostWrite_readData (a : Word) (v : Byte) (s : State) : (hostWrite a v s).readData = s.readData := rfl
@[simp] theorem hostWrite_pending (a : Word) (v : Byte) (s : State) : (hostWrite a v s).pending = s.pending := rfl
@[simp] theorem hostWrite_raced (a : Word) (v : Byte) (s : State) : (hostWrite a v s).raced = s.raced := rfl
@[simp] theorem hostWrite_epoch (a : Word) (v : Byte) (s : State) : (hostWrite a v s).epoch = s.epoch := rfl

/-! ## chunkWrite -/

@[simp] theorem chunkWrite_codes (i j : Nat) (v : Byte) (s : State) : (chunkWrite i j v s).codes = s.codes := rfl
@[simp] theorem chunkWrite_chunkSize (i j : Nat) (v : Byte) (s : State) : (chunkWrite i j v s).chunkSize = s.chunkSize := rfl
@[simp] theorem chunkWrite_maxChunks (i j : Nat) (v : Byte) (s : State) : (chunkWrite i j v s).maxChunks = s.maxChunks := rfl
@[simp] theorem chunkWrite_blockPage (i j : Nat) (v : Byte) (s : State) : (chunkWrite i j v s).blockPage = s.blockPage := rfl
@[simp] theorem chunkWrite_ill (i j : Nat) (v : Byte) (s : State) : (chunkWrite i j v s).ill = s.ill := rfl
@[simp] theorem chunkWrite_errCmd (i j : Nat) (v : Byte) (s : State) : (chunkWrite i j v s).errCmd = s.errCmd := rfl
@[simp] theorem chunkWrite_sinkMode (i j : Nat) (v : Byte) (s : State) : (chunkWrite i j v s).sinkMode = s.sinkMode := rfl
@[simp] theorem chunkWrite_chainFill (i j : Nat) (v : Byte) (s : State) : (chunkWrite i j v s).chainFill = s.chainFill := rfl
@[simp] theorem chunkWrite_chainCur (i j : Nat) (v : Byte) (s : State) : (chunkWrite i j v s).chainCur = s.chainCur := rfl
@[simp] theorem chunkWrite_chainRaddr (i j : Nat) (v : Byte) (s : State) : (chunkWrite i j v s).chainRaddr = s.chainRaddr := rfl
@[simp] theorem chunkWrite_encSrc (i j : Nat) (v : Byte) (s : State) : (chunkWrite i j v s).encSrc = s.encSrc := rfl
@[simp] theorem chunkWrite_encLen (i j : Nat) (v : Byte) (s : State) : (chunkWrite i j v s).encLen = s.encLen := rfl
@[simp] theorem chunkWrite_encDst (i j : Nat) (v : Byte) (s : State) : (chunkWrite i j v s).encDst = s.encDst := rfl
@[simp] theorem chunkWrite_encCap (i j : Nat) (v : Byte) (s : State) : (chunkWrite i j v s).encCap = s.encCap := rfl
@[simp] theorem chunkWrite_encCount (i j : Nat) (v : Byte) (s : State) : (chunkWrite i j v s).encCount = s.encCount := rfl
@[simp] theorem chunkWrite_encAcc (i j : Nat) (v : Byte) (s : State) : (chunkWrite i j v s).encAcc = s.encAcc := rfl
@[simp] theorem chunkWrite_encNbits (i j : Nat) (v : Byte) (s : State) : (chunkWrite i j v s).encNbits = s.encNbits := rfl
@[simp] theorem chunkWrite_encOvf (i j : Nat) (v : Byte) (s : State) : (chunkWrite i j v s).encOvf = s.encOvf := rfl
@[simp] theorem chunkWrite_encResult (i j : Nat) (v : Byte) (s : State) : (chunkWrite i j v s).encResult = s.encResult := rfl
@[simp] theorem chunkWrite_decSrc (i j : Nat) (v : Byte) (s : State) : (chunkWrite i j v s).decSrc = s.decSrc := rfl
@[simp] theorem chunkWrite_decLen (i j : Nat) (v : Byte) (s : State) : (chunkWrite i j v s).decLen = s.decLen := rfl
@[simp] theorem chunkWrite_decDst (i j : Nat) (v : Byte) (s : State) : (chunkWrite i j v s).decDst = s.decDst := rfl
@[simp] theorem chunkWrite_decCap (i j : Nat) (v : Byte) (s : State) : (chunkWrite i j v s).decCap = s.decCap := rfl
@[simp] theorem chunkWrite_decCount (i j : Nat) (v : Byte) (s : State) : (chunkWrite i j v s).decCount = s.decCount := rfl
@[simp] theorem chunkWrite_decConsumed (i j : Nat) (v : Byte) (s : State) : (chunkWrite i j v s).decConsumed = s.decConsumed := rfl
@[simp] theorem chunkWrite_decNode (i j : Nat) (v : Byte) (s : State) : (chunkWrite i j v s).decNode = s.decNode := rfl
@[simp] theorem chunkWrite_decCode (i j : Nat) (v : Byte) (s : State) : (chunkWrite i j v s).decCode = s.decCode := rfl
@[simp] theorem chunkWrite_decResult (i j : Nat) (v : Byte) (s : State) : (chunkWrite i j v s).decResult = s.decResult := rfl
@[simp] theorem chunkWrite_mem (i j : Nat) (v : Byte) (s : State) : (chunkWrite i j v s).mem = s.mem := rfl
@[simp] theorem chunkWrite_store (i j : Nat) (v : Byte) (s : State) : (chunkWrite i j v s).store = writeCell s.store (i * chunkBytes s + j) v := rfl
@[simp] theorem chunkWrite_readData (i j : Nat) (v : Byte) (s : State) : (chunkWrite i j v s).readData = s.readData := rfl
@[simp] theorem chunkWrite_pending (i j : Nat) (v : Byte) (s : State) : (chunkWrite i j v s).pending = s.pending := rfl
@[simp] theorem chunkWrite_raced (i j : Nat) (v : Byte) (s : State) : (chunkWrite i j v s).raced = s.raced := rfl
@[simp] theorem chunkWrite_epoch (i j : Nat) (v : Byte) (s : State) : (chunkWrite i j v s).epoch = s.epoch := rfl

/-! ## clearCommandError -/

@[simp] theorem clearCommandError_codes (s : State) : (clearCommandError s).codes = s.codes := rfl
@[simp] theorem clearCommandError_chunkSize (s : State) : (clearCommandError s).chunkSize = s.chunkSize := rfl
@[simp] theorem clearCommandError_maxChunks (s : State) : (clearCommandError s).maxChunks = s.maxChunks := rfl
@[simp] theorem clearCommandError_blockPage (s : State) : (clearCommandError s).blockPage = s.blockPage := rfl
@[simp] theorem clearCommandError_ill (s : State) : (clearCommandError s).ill = false := rfl
@[simp] theorem clearCommandError_errCmd (s : State) : (clearCommandError s).errCmd = 0#64 := rfl
@[simp] theorem clearCommandError_sinkMode (s : State) : (clearCommandError s).sinkMode = s.sinkMode := rfl
@[simp] theorem clearCommandError_chainFill (s : State) : (clearCommandError s).chainFill = s.chainFill := rfl
@[simp] theorem clearCommandError_chainCur (s : State) : (clearCommandError s).chainCur = s.chainCur := rfl
@[simp] theorem clearCommandError_chainRaddr (s : State) : (clearCommandError s).chainRaddr = s.chainRaddr := rfl
@[simp] theorem clearCommandError_encSrc (s : State) : (clearCommandError s).encSrc = s.encSrc := rfl
@[simp] theorem clearCommandError_encLen (s : State) : (clearCommandError s).encLen = s.encLen := rfl
@[simp] theorem clearCommandError_encDst (s : State) : (clearCommandError s).encDst = s.encDst := rfl
@[simp] theorem clearCommandError_encCap (s : State) : (clearCommandError s).encCap = s.encCap := rfl
@[simp] theorem clearCommandError_encCount (s : State) : (clearCommandError s).encCount = s.encCount := rfl
@[simp] theorem clearCommandError_encAcc (s : State) : (clearCommandError s).encAcc = s.encAcc := rfl
@[simp] theorem clearCommandError_encNbits (s : State) : (clearCommandError s).encNbits = s.encNbits := rfl
@[simp] theorem clearCommandError_encOvf (s : State) : (clearCommandError s).encOvf = s.encOvf := rfl
@[simp] theorem clearCommandError_encResult (s : State) : (clearCommandError s).encResult = s.encResult := rfl
@[simp] theorem clearCommandError_decSrc (s : State) : (clearCommandError s).decSrc = s.decSrc := rfl
@[simp] theorem clearCommandError_decLen (s : State) : (clearCommandError s).decLen = s.decLen := rfl
@[simp] theorem clearCommandError_decDst (s : State) : (clearCommandError s).decDst = s.decDst := rfl
@[simp] theorem clearCommandError_decCap (s : State) : (clearCommandError s).decCap = s.decCap := rfl
@[simp] theorem clearCommandError_decCount (s : State) : (clearCommandError s).decCount = s.decCount := rfl
@[simp] theorem clearCommandError_decConsumed (s : State) : (clearCommandError s).decConsumed = s.decConsumed := rfl
@[simp] theorem clearCommandError_decNode (s : State) : (clearCommandError s).decNode = s.decNode := rfl
@[simp] theorem clearCommandError_decCode (s : State) : (clearCommandError s).decCode = s.decCode := rfl
@[simp] theorem clearCommandError_decResult (s : State) : (clearCommandError s).decResult = s.decResult := rfl
@[simp] theorem clearCommandError_mem (s : State) : (clearCommandError s).mem = s.mem := rfl
@[simp] theorem clearCommandError_store (s : State) : (clearCommandError s).store = s.store := rfl
@[simp] theorem clearCommandError_readData (s : State) : (clearCommandError s).readData = s.readData := rfl
@[simp] theorem clearCommandError_pending (s : State) : (clearCommandError s).pending = s.pending := rfl
@[simp] theorem clearCommandError_raced (s : State) : (clearCommandError s).raced = s.raced := rfl
@[simp] theorem clearCommandError_epoch (s : State) : (clearCommandError s).epoch = s.epoch := rfl

/-! ## resetBlock -/

@[simp] theorem resetBlock_codes (s : State) : (resetBlock s).codes = s.codes := rfl
@[simp] theorem resetBlock_chunkSize (s : State) : (resetBlock s).chunkSize = s.chunkSize := rfl
@[simp] theorem resetBlock_maxChunks (s : State) : (resetBlock s).maxChunks = s.maxChunks := rfl
@[simp] theorem resetBlock_blockPage (s : State) : (resetBlock s).blockPage = s.blockPage := rfl
@[simp] theorem resetBlock_ill (s : State) : (resetBlock s).ill = State.reset.ill := rfl
@[simp] theorem resetBlock_errCmd (s : State) : (resetBlock s).errCmd = State.reset.errCmd := rfl
@[simp] theorem resetBlock_sinkMode (s : State) : (resetBlock s).sinkMode = State.reset.sinkMode := rfl
@[simp] theorem resetBlock_chainFill (s : State) : (resetBlock s).chainFill = State.reset.chainFill := rfl
@[simp] theorem resetBlock_chainCur (s : State) : (resetBlock s).chainCur = State.reset.chainCur := rfl
@[simp] theorem resetBlock_chainRaddr (s : State) : (resetBlock s).chainRaddr = State.reset.chainRaddr := rfl
@[simp] theorem resetBlock_encSrc (s : State) : (resetBlock s).encSrc = State.reset.encSrc := rfl
@[simp] theorem resetBlock_encLen (s : State) : (resetBlock s).encLen = State.reset.encLen := rfl
@[simp] theorem resetBlock_encDst (s : State) : (resetBlock s).encDst = State.reset.encDst := rfl
@[simp] theorem resetBlock_encCap (s : State) : (resetBlock s).encCap = State.reset.encCap := rfl
@[simp] theorem resetBlock_encCount (s : State) : (resetBlock s).encCount = State.reset.encCount := rfl
@[simp] theorem resetBlock_encAcc (s : State) : (resetBlock s).encAcc = State.reset.encAcc := rfl
@[simp] theorem resetBlock_encNbits (s : State) : (resetBlock s).encNbits = State.reset.encNbits := rfl
@[simp] theorem resetBlock_encOvf (s : State) : (resetBlock s).encOvf = State.reset.encOvf := rfl
@[simp] theorem resetBlock_encResult (s : State) : (resetBlock s).encResult = State.reset.encResult := rfl
@[simp] theorem resetBlock_decSrc (s : State) : (resetBlock s).decSrc = State.reset.decSrc := rfl
@[simp] theorem resetBlock_decLen (s : State) : (resetBlock s).decLen = State.reset.decLen := rfl
@[simp] theorem resetBlock_decDst (s : State) : (resetBlock s).decDst = State.reset.decDst := rfl
@[simp] theorem resetBlock_decCap (s : State) : (resetBlock s).decCap = State.reset.decCap := rfl
@[simp] theorem resetBlock_decCount (s : State) : (resetBlock s).decCount = State.reset.decCount := rfl
@[simp] theorem resetBlock_decConsumed (s : State) : (resetBlock s).decConsumed = State.reset.decConsumed := rfl
@[simp] theorem resetBlock_decNode (s : State) : (resetBlock s).decNode = State.reset.decNode := rfl
@[simp] theorem resetBlock_decCode (s : State) : (resetBlock s).decCode = State.reset.decCode := rfl
@[simp] theorem resetBlock_decResult (s : State) : (resetBlock s).decResult = State.reset.decResult := rfl
@[simp] theorem resetBlock_mem (s : State) : (resetBlock s).mem = s.mem := rfl
@[simp] theorem resetBlock_store (s : State) : (resetBlock s).store = s.store := rfl
@[simp] theorem resetBlock_readData (s : State) : (resetBlock s).readData = s.readData := rfl
@[simp] theorem resetBlock_pending (s : State) : (resetBlock s).pending = s.pending := rfl
@[simp] theorem resetBlock_raced (s : State) : (resetBlock s).raced = s.raced := rfl
@[simp] theorem resetBlock_epoch (s : State) : (resetBlock s).epoch = s.epoch := rfl

/-! ## encStart -/

@[simp] theorem encStart_codes (s : State) : (encStart s).codes = s.codes := rfl
@[simp] theorem encStart_chunkSize (s : State) : (encStart s).chunkSize = s.chunkSize := rfl
@[simp] theorem encStart_maxChunks (s : State) : (encStart s).maxChunks = s.maxChunks := rfl
@[simp] theorem encStart_blockPage (s : State) : (encStart s).blockPage = s.blockPage := rfl
@[simp] theorem encStart_ill (s : State) : (encStart s).ill = s.ill := rfl
@[simp] theorem encStart_errCmd (s : State) : (encStart s).errCmd = s.errCmd := rfl
@[simp] theorem encStart_sinkMode (s : State) : (encStart s).sinkMode = s.sinkMode := rfl
@[simp] theorem encStart_chainFill (s : State) : (encStart s).chainFill = s.chainFill := rfl
@[simp] theorem encStart_chainCur (s : State) : (encStart s).chainCur = s.chainCur := rfl
@[simp] theorem encStart_chainRaddr (s : State) : (encStart s).chainRaddr = s.chainRaddr := rfl
@[simp] theorem encStart_encSrc (s : State) : (encStart s).encSrc = s.encSrc := rfl
@[simp] theorem encStart_encLen (s : State) : (encStart s).encLen = s.encLen := rfl
@[simp] theorem encStart_encDst (s : State) : (encStart s).encDst = s.encDst := rfl
@[simp] theorem encStart_encCap (s : State) : (encStart s).encCap = s.encCap := rfl
@[simp] theorem encStart_encCount (s : State) : (encStart s).encCount = 0#64 := rfl
@[simp] theorem encStart_encAcc (s : State) : (encStart s).encAcc = 0#64 := rfl
@[simp] theorem encStart_encNbits (s : State) : (encStart s).encNbits = 0#6 := rfl
@[simp] theorem encStart_encOvf (s : State) : (encStart s).encOvf = false := rfl
@[simp] theorem encStart_encResult (s : State) : (encStart s).encResult = s.encResult := rfl
@[simp] theorem encStart_decSrc (s : State) : (encStart s).decSrc = s.decSrc := rfl
@[simp] theorem encStart_decLen (s : State) : (encStart s).decLen = s.decLen := rfl
@[simp] theorem encStart_decDst (s : State) : (encStart s).decDst = s.decDst := rfl
@[simp] theorem encStart_decCap (s : State) : (encStart s).decCap = s.decCap := rfl
@[simp] theorem encStart_decCount (s : State) : (encStart s).decCount = s.decCount := rfl
@[simp] theorem encStart_decConsumed (s : State) : (encStart s).decConsumed = s.decConsumed := rfl
@[simp] theorem encStart_decNode (s : State) : (encStart s).decNode = s.decNode := rfl
@[simp] theorem encStart_decCode (s : State) : (encStart s).decCode = s.decCode := rfl
@[simp] theorem encStart_decResult (s : State) : (encStart s).decResult = s.decResult := rfl
@[simp] theorem encStart_mem (s : State) : (encStart s).mem = s.mem := rfl
@[simp] theorem encStart_store (s : State) : (encStart s).store = s.store := rfl
@[simp] theorem encStart_readData (s : State) : (encStart s).readData = s.readData := rfl
@[simp] theorem encStart_pending (s : State) : (encStart s).pending = s.pending := rfl
@[simp] theorem encStart_raced (s : State) : (encStart s).raced = s.raced := rfl
@[simp] theorem encStart_epoch (s : State) : (encStart s).epoch = s.epoch := rfl

/-! ## pushCode -/

@[simp] theorem pushCode_codes (c : BitString) (s : State) : (pushCode c s).codes = s.codes := rfl
@[simp] theorem pushCode_chunkSize (c : BitString) (s : State) : (pushCode c s).chunkSize = s.chunkSize := rfl
@[simp] theorem pushCode_maxChunks (c : BitString) (s : State) : (pushCode c s).maxChunks = s.maxChunks := rfl
@[simp] theorem pushCode_blockPage (c : BitString) (s : State) : (pushCode c s).blockPage = s.blockPage := rfl
@[simp] theorem pushCode_ill (c : BitString) (s : State) : (pushCode c s).ill = s.ill := rfl
@[simp] theorem pushCode_errCmd (c : BitString) (s : State) : (pushCode c s).errCmd = s.errCmd := rfl
@[simp] theorem pushCode_sinkMode (c : BitString) (s : State) : (pushCode c s).sinkMode = s.sinkMode := rfl
@[simp] theorem pushCode_chainFill (c : BitString) (s : State) : (pushCode c s).chainFill = s.chainFill := rfl
@[simp] theorem pushCode_chainCur (c : BitString) (s : State) : (pushCode c s).chainCur = s.chainCur := rfl
@[simp] theorem pushCode_chainRaddr (c : BitString) (s : State) : (pushCode c s).chainRaddr = s.chainRaddr := rfl
@[simp] theorem pushCode_encSrc (c : BitString) (s : State) : (pushCode c s).encSrc = s.encSrc := rfl
@[simp] theorem pushCode_encLen (c : BitString) (s : State) : (pushCode c s).encLen = s.encLen := rfl
@[simp] theorem pushCode_encDst (c : BitString) (s : State) : (pushCode c s).encDst = s.encDst := rfl
@[simp] theorem pushCode_encCap (c : BitString) (s : State) : (pushCode c s).encCap = s.encCap := rfl
@[simp] theorem pushCode_encCount (c : BitString) (s : State) : (pushCode c s).encCount = s.encCount := rfl
@[simp] theorem pushCode_encAcc (c : BitString) (s : State) : (pushCode c s).encAcc = (s.encAcc <<< c.len) ||| BitVec.ofNat 64 c.val := rfl
@[simp] theorem pushCode_encNbits (c : BitString) (s : State) : (pushCode c s).encNbits = s.encNbits + BitVec.ofNat 6 c.len := rfl
@[simp] theorem pushCode_encOvf (c : BitString) (s : State) : (pushCode c s).encOvf = s.encOvf := rfl
@[simp] theorem pushCode_encResult (c : BitString) (s : State) : (pushCode c s).encResult = s.encResult := rfl
@[simp] theorem pushCode_decSrc (c : BitString) (s : State) : (pushCode c s).decSrc = s.decSrc := rfl
@[simp] theorem pushCode_decLen (c : BitString) (s : State) : (pushCode c s).decLen = s.decLen := rfl
@[simp] theorem pushCode_decDst (c : BitString) (s : State) : (pushCode c s).decDst = s.decDst := rfl
@[simp] theorem pushCode_decCap (c : BitString) (s : State) : (pushCode c s).decCap = s.decCap := rfl
@[simp] theorem pushCode_decCount (c : BitString) (s : State) : (pushCode c s).decCount = s.decCount := rfl
@[simp] theorem pushCode_decConsumed (c : BitString) (s : State) : (pushCode c s).decConsumed = s.decConsumed := rfl
@[simp] theorem pushCode_decNode (c : BitString) (s : State) : (pushCode c s).decNode = s.decNode := rfl
@[simp] theorem pushCode_decCode (c : BitString) (s : State) : (pushCode c s).decCode = s.decCode := rfl
@[simp] theorem pushCode_decResult (c : BitString) (s : State) : (pushCode c s).decResult = s.decResult := rfl
@[simp] theorem pushCode_mem (c : BitString) (s : State) : (pushCode c s).mem = s.mem := rfl
@[simp] theorem pushCode_store (c : BitString) (s : State) : (pushCode c s).store = s.store := rfl
@[simp] theorem pushCode_readData (c : BitString) (s : State) : (pushCode c s).readData = s.readData := rfl
@[simp] theorem pushCode_pending (c : BitString) (s : State) : (pushCode c s).pending = s.pending := rfl
@[simp] theorem pushCode_raced (c : BitString) (s : State) : (pushCode c s).raced = s.raced := rfl
@[simp] theorem pushCode_epoch (c : BitString) (s : State) : (pushCode c s).epoch = s.epoch := rfl

/-! ## dropByte -/

@[simp] theorem dropByte_codes (s : State) : (dropByte s).codes = s.codes := rfl
@[simp] theorem dropByte_chunkSize (s : State) : (dropByte s).chunkSize = s.chunkSize := rfl
@[simp] theorem dropByte_maxChunks (s : State) : (dropByte s).maxChunks = s.maxChunks := rfl
@[simp] theorem dropByte_blockPage (s : State) : (dropByte s).blockPage = s.blockPage := rfl
@[simp] theorem dropByte_ill (s : State) : (dropByte s).ill = s.ill := rfl
@[simp] theorem dropByte_errCmd (s : State) : (dropByte s).errCmd = s.errCmd := rfl
@[simp] theorem dropByte_sinkMode (s : State) : (dropByte s).sinkMode = s.sinkMode := rfl
@[simp] theorem dropByte_chainFill (s : State) : (dropByte s).chainFill = s.chainFill := rfl
@[simp] theorem dropByte_chainCur (s : State) : (dropByte s).chainCur = s.chainCur := rfl
@[simp] theorem dropByte_chainRaddr (s : State) : (dropByte s).chainRaddr = s.chainRaddr := rfl
@[simp] theorem dropByte_encSrc (s : State) : (dropByte s).encSrc = s.encSrc := rfl
@[simp] theorem dropByte_encLen (s : State) : (dropByte s).encLen = s.encLen := rfl
@[simp] theorem dropByte_encDst (s : State) : (dropByte s).encDst = s.encDst := rfl
@[simp] theorem dropByte_encCap (s : State) : (dropByte s).encCap = s.encCap := rfl
@[simp] theorem dropByte_encCount (s : State) : (dropByte s).encCount = s.encCount := rfl
@[simp] theorem dropByte_encAcc (s : State) : (dropByte s).encAcc = s.encAcc &&& BitVec.ofNat 64 (2 ^ (s.encNbits - 8#6).toNat - 1) := rfl
@[simp] theorem dropByte_encNbits (s : State) : (dropByte s).encNbits = s.encNbits - 8#6 := rfl
@[simp] theorem dropByte_encOvf (s : State) : (dropByte s).encOvf = s.encOvf := rfl
@[simp] theorem dropByte_encResult (s : State) : (dropByte s).encResult = s.encResult := rfl
@[simp] theorem dropByte_decSrc (s : State) : (dropByte s).decSrc = s.decSrc := rfl
@[simp] theorem dropByte_decLen (s : State) : (dropByte s).decLen = s.decLen := rfl
@[simp] theorem dropByte_decDst (s : State) : (dropByte s).decDst = s.decDst := rfl
@[simp] theorem dropByte_decCap (s : State) : (dropByte s).decCap = s.decCap := rfl
@[simp] theorem dropByte_decCount (s : State) : (dropByte s).decCount = s.decCount := rfl
@[simp] theorem dropByte_decConsumed (s : State) : (dropByte s).decConsumed = s.decConsumed := rfl
@[simp] theorem dropByte_decNode (s : State) : (dropByte s).decNode = s.decNode := rfl
@[simp] theorem dropByte_decCode (s : State) : (dropByte s).decCode = s.decCode := rfl
@[simp] theorem dropByte_decResult (s : State) : (dropByte s).decResult = s.decResult := rfl
@[simp] theorem dropByte_mem (s : State) : (dropByte s).mem = s.mem := rfl
@[simp] theorem dropByte_store (s : State) : (dropByte s).store = s.store := rfl
@[simp] theorem dropByte_readData (s : State) : (dropByte s).readData = s.readData := rfl
@[simp] theorem dropByte_pending (s : State) : (dropByte s).pending = s.pending := rfl
@[simp] theorem dropByte_raced (s : State) : (dropByte s).raced = s.raced := rfl
@[simp] theorem dropByte_epoch (s : State) : (dropByte s).epoch = s.epoch := rfl

/-! ## decStart -/

@[simp] theorem decStart_codes (s : State) : (decStart s).codes = s.codes := rfl
@[simp] theorem decStart_chunkSize (s : State) : (decStart s).chunkSize = s.chunkSize := rfl
@[simp] theorem decStart_maxChunks (s : State) : (decStart s).maxChunks = s.maxChunks := rfl
@[simp] theorem decStart_blockPage (s : State) : (decStart s).blockPage = s.blockPage := rfl
@[simp] theorem decStart_ill (s : State) : (decStart s).ill = s.ill := rfl
@[simp] theorem decStart_errCmd (s : State) : (decStart s).errCmd = s.errCmd := rfl
@[simp] theorem decStart_sinkMode (s : State) : (decStart s).sinkMode = s.sinkMode := rfl
@[simp] theorem decStart_chainFill (s : State) : (decStart s).chainFill = s.chainFill := rfl
@[simp] theorem decStart_chainCur (s : State) : (decStart s).chainCur = s.chainCur := rfl
@[simp] theorem decStart_chainRaddr (s : State) : (decStart s).chainRaddr = s.chainRaddr := rfl
@[simp] theorem decStart_encSrc (s : State) : (decStart s).encSrc = s.encSrc := rfl
@[simp] theorem decStart_encLen (s : State) : (decStart s).encLen = s.encLen := rfl
@[simp] theorem decStart_encDst (s : State) : (decStart s).encDst = s.encDst := rfl
@[simp] theorem decStart_encCap (s : State) : (decStart s).encCap = s.encCap := rfl
@[simp] theorem decStart_encCount (s : State) : (decStart s).encCount = s.encCount := rfl
@[simp] theorem decStart_encAcc (s : State) : (decStart s).encAcc = s.encAcc := rfl
@[simp] theorem decStart_encNbits (s : State) : (decStart s).encNbits = s.encNbits := rfl
@[simp] theorem decStart_encOvf (s : State) : (decStart s).encOvf = s.encOvf := rfl
@[simp] theorem decStart_encResult (s : State) : (decStart s).encResult = s.encResult := rfl
@[simp] theorem decStart_decSrc (s : State) : (decStart s).decSrc = s.decSrc := rfl
@[simp] theorem decStart_decLen (s : State) : (decStart s).decLen = s.decLen := rfl
@[simp] theorem decStart_decDst (s : State) : (decStart s).decDst = s.decDst := rfl
@[simp] theorem decStart_decCap (s : State) : (decStart s).decCap = s.decCap := rfl
@[simp] theorem decStart_decCount (s : State) : (decStart s).decCount = 0#64 := rfl
@[simp] theorem decStart_decConsumed (s : State) : (decStart s).decConsumed = 0#64 := rfl
@[simp] theorem decStart_decNode (s : State) : (decStart s).decNode = 0#8 := rfl
@[simp] theorem decStart_decCode (s : State) : (decStart s).decCode = .ok := rfl
@[simp] theorem decStart_decResult (s : State) : (decStart s).decResult = s.decResult := rfl
@[simp] theorem decStart_mem (s : State) : (decStart s).mem = s.mem := rfl
@[simp] theorem decStart_store (s : State) : (decStart s).store = s.store := rfl
@[simp] theorem decStart_readData (s : State) : (decStart s).readData = s.readData := rfl
@[simp] theorem decStart_pending (s : State) : (decStart s).pending = s.pending := rfl
@[simp] theorem decStart_raced (s : State) : (decStart s).raced = s.raced := rfl
@[simp] theorem decStart_epoch (s : State) : (decStart s).epoch = s.epoch := rfl

/-! ## decLoad -/

@[simp] theorem decLoad_codes (n : BitVec 8) (s : State) : (decLoad n s).codes = s.codes := rfl
@[simp] theorem decLoad_chunkSize (n : BitVec 8) (s : State) : (decLoad n s).chunkSize = s.chunkSize := rfl
@[simp] theorem decLoad_maxChunks (n : BitVec 8) (s : State) : (decLoad n s).maxChunks = s.maxChunks := rfl
@[simp] theorem decLoad_blockPage (n : BitVec 8) (s : State) : (decLoad n s).blockPage = s.blockPage := rfl
@[simp] theorem decLoad_ill (n : BitVec 8) (s : State) : (decLoad n s).ill = s.ill := rfl
@[simp] theorem decLoad_errCmd (n : BitVec 8) (s : State) : (decLoad n s).errCmd = s.errCmd := rfl
@[simp] theorem decLoad_sinkMode (n : BitVec 8) (s : State) : (decLoad n s).sinkMode = s.sinkMode := rfl
@[simp] theorem decLoad_chainFill (n : BitVec 8) (s : State) : (decLoad n s).chainFill = s.chainFill := rfl
@[simp] theorem decLoad_chainCur (n : BitVec 8) (s : State) : (decLoad n s).chainCur = s.chainCur := rfl
@[simp] theorem decLoad_chainRaddr (n : BitVec 8) (s : State) : (decLoad n s).chainRaddr = s.chainRaddr := rfl
@[simp] theorem decLoad_encSrc (n : BitVec 8) (s : State) : (decLoad n s).encSrc = s.encSrc := rfl
@[simp] theorem decLoad_encLen (n : BitVec 8) (s : State) : (decLoad n s).encLen = s.encLen := rfl
@[simp] theorem decLoad_encDst (n : BitVec 8) (s : State) : (decLoad n s).encDst = s.encDst := rfl
@[simp] theorem decLoad_encCap (n : BitVec 8) (s : State) : (decLoad n s).encCap = s.encCap := rfl
@[simp] theorem decLoad_encCount (n : BitVec 8) (s : State) : (decLoad n s).encCount = s.encCount := rfl
@[simp] theorem decLoad_encAcc (n : BitVec 8) (s : State) : (decLoad n s).encAcc = s.encAcc := rfl
@[simp] theorem decLoad_encNbits (n : BitVec 8) (s : State) : (decLoad n s).encNbits = s.encNbits := rfl
@[simp] theorem decLoad_encOvf (n : BitVec 8) (s : State) : (decLoad n s).encOvf = s.encOvf := rfl
@[simp] theorem decLoad_encResult (n : BitVec 8) (s : State) : (decLoad n s).encResult = s.encResult := rfl
@[simp] theorem decLoad_decSrc (n : BitVec 8) (s : State) : (decLoad n s).decSrc = s.decSrc := rfl
@[simp] theorem decLoad_decLen (n : BitVec 8) (s : State) : (decLoad n s).decLen = s.decLen := rfl
@[simp] theorem decLoad_decDst (n : BitVec 8) (s : State) : (decLoad n s).decDst = s.decDst := rfl
@[simp] theorem decLoad_decCap (n : BitVec 8) (s : State) : (decLoad n s).decCap = s.decCap := rfl
@[simp] theorem decLoad_decCount (n : BitVec 8) (s : State) : (decLoad n s).decCount = 0#64 := rfl
@[simp] theorem decLoad_decConsumed (n : BitVec 8) (s : State) : (decLoad n s).decConsumed = 0#64 := rfl
@[simp] theorem decLoad_decNode (n : BitVec 8) (s : State) : (decLoad n s).decNode = n := rfl
@[simp] theorem decLoad_decCode (n : BitVec 8) (s : State) : (decLoad n s).decCode = .ok := rfl
@[simp] theorem decLoad_decResult (n : BitVec 8) (s : State) : (decLoad n s).decResult = s.decResult := rfl
@[simp] theorem decLoad_mem (n : BitVec 8) (s : State) : (decLoad n s).mem = s.mem := rfl
@[simp] theorem decLoad_store (n : BitVec 8) (s : State) : (decLoad n s).store = s.store := rfl
@[simp] theorem decLoad_readData (n : BitVec 8) (s : State) : (decLoad n s).readData = s.readData := rfl
@[simp] theorem decLoad_pending (n : BitVec 8) (s : State) : (decLoad n s).pending = s.pending := rfl
@[simp] theorem decLoad_raced (n : BitVec 8) (s : State) : (decLoad n s).raced = s.raced := rfl
@[simp] theorem decLoad_epoch (n : BitVec 8) (s : State) : (decLoad n s).epoch = s.epoch := rfl

/-! ## keepChunks -/

@[simp] theorem keepChunks_codes (k : Nat) (s : State) : (keepChunks k s).codes = s.codes := rfl
@[simp] theorem keepChunks_chunkSize (k : Nat) (s : State) : (keepChunks k s).chunkSize = s.chunkSize := rfl
@[simp] theorem keepChunks_maxChunks (k : Nat) (s : State) : (keepChunks k s).maxChunks = s.maxChunks := rfl
@[simp] theorem keepChunks_blockPage (k : Nat) (s : State) : (keepChunks k s).blockPage = s.blockPage := rfl
@[simp] theorem keepChunks_ill (k : Nat) (s : State) : (keepChunks k s).ill = s.ill := rfl
@[simp] theorem keepChunks_errCmd (k : Nat) (s : State) : (keepChunks k s).errCmd = s.errCmd := rfl
@[simp] theorem keepChunks_sinkMode (k : Nat) (s : State) : (keepChunks k s).sinkMode = s.sinkMode := rfl
@[simp] theorem keepChunks_chainFill (k : Nat) (s : State) : (keepChunks k s).chainFill = List.replicate (min k s.chainFill.length) 0 := rfl
@[simp] theorem keepChunks_chainCur (k : Nat) (s : State) : (keepChunks k s).chainCur = if min k s.chainFill.length = 0 then none else some 0 := rfl
@[simp] theorem keepChunks_chainRaddr (k : Nat) (s : State) : (keepChunks k s).chainRaddr = s.chainRaddr := rfl
@[simp] theorem keepChunks_encSrc (k : Nat) (s : State) : (keepChunks k s).encSrc = s.encSrc := rfl
@[simp] theorem keepChunks_encLen (k : Nat) (s : State) : (keepChunks k s).encLen = s.encLen := rfl
@[simp] theorem keepChunks_encDst (k : Nat) (s : State) : (keepChunks k s).encDst = s.encDst := rfl
@[simp] theorem keepChunks_encCap (k : Nat) (s : State) : (keepChunks k s).encCap = s.encCap := rfl
@[simp] theorem keepChunks_encCount (k : Nat) (s : State) : (keepChunks k s).encCount = s.encCount := rfl
@[simp] theorem keepChunks_encAcc (k : Nat) (s : State) : (keepChunks k s).encAcc = s.encAcc := rfl
@[simp] theorem keepChunks_encNbits (k : Nat) (s : State) : (keepChunks k s).encNbits = s.encNbits := rfl
@[simp] theorem keepChunks_encOvf (k : Nat) (s : State) : (keepChunks k s).encOvf = s.encOvf := rfl
@[simp] theorem keepChunks_encResult (k : Nat) (s : State) : (keepChunks k s).encResult = s.encResult := rfl
@[simp] theorem keepChunks_decSrc (k : Nat) (s : State) : (keepChunks k s).decSrc = s.decSrc := rfl
@[simp] theorem keepChunks_decLen (k : Nat) (s : State) : (keepChunks k s).decLen = s.decLen := rfl
@[simp] theorem keepChunks_decDst (k : Nat) (s : State) : (keepChunks k s).decDst = s.decDst := rfl
@[simp] theorem keepChunks_decCap (k : Nat) (s : State) : (keepChunks k s).decCap = s.decCap := rfl
@[simp] theorem keepChunks_decCount (k : Nat) (s : State) : (keepChunks k s).decCount = s.decCount := rfl
@[simp] theorem keepChunks_decConsumed (k : Nat) (s : State) : (keepChunks k s).decConsumed = s.decConsumed := rfl
@[simp] theorem keepChunks_decNode (k : Nat) (s : State) : (keepChunks k s).decNode = s.decNode := rfl
@[simp] theorem keepChunks_decCode (k : Nat) (s : State) : (keepChunks k s).decCode = s.decCode := rfl
@[simp] theorem keepChunks_decResult (k : Nat) (s : State) : (keepChunks k s).decResult = s.decResult := rfl
@[simp] theorem keepChunks_mem (k : Nat) (s : State) : (keepChunks k s).mem = s.mem := rfl
@[simp] theorem keepChunks_store (k : Nat) (s : State) : (keepChunks k s).store = s.store := rfl
@[simp] theorem keepChunks_readData (k : Nat) (s : State) : (keepChunks k s).readData = s.readData := rfl
@[simp] theorem keepChunks_pending (k : Nat) (s : State) : (keepChunks k s).pending = s.pending := rfl
@[simp] theorem keepChunks_raced (k : Nat) (s : State) : (keepChunks k s).raced = s.raced := rfl
@[simp] theorem keepChunks_epoch (k : Nat) (s : State) : (keepChunks k s).epoch = s.epoch := rfl

/-! ## beginAccess -/

@[simp] theorem beginAccess_codes (rest : List HostEvent) (raced : List Word) (s : State) : (beginAccess rest raced s).codes = s.codes := rfl
@[simp] theorem beginAccess_chunkSize (rest : List HostEvent) (raced : List Word) (s : State) : (beginAccess rest raced s).chunkSize = s.chunkSize := rfl
@[simp] theorem beginAccess_maxChunks (rest : List HostEvent) (raced : List Word) (s : State) : (beginAccess rest raced s).maxChunks = s.maxChunks := rfl
@[simp] theorem beginAccess_blockPage (rest : List HostEvent) (raced : List Word) (s : State) : (beginAccess rest raced s).blockPage = s.blockPage := rfl
@[simp] theorem beginAccess_ill (rest : List HostEvent) (raced : List Word) (s : State) : (beginAccess rest raced s).ill = s.ill := rfl
@[simp] theorem beginAccess_errCmd (rest : List HostEvent) (raced : List Word) (s : State) : (beginAccess rest raced s).errCmd = s.errCmd := rfl
@[simp] theorem beginAccess_sinkMode (rest : List HostEvent) (raced : List Word) (s : State) : (beginAccess rest raced s).sinkMode = s.sinkMode := rfl
@[simp] theorem beginAccess_chainFill (rest : List HostEvent) (raced : List Word) (s : State) : (beginAccess rest raced s).chainFill = s.chainFill := rfl
@[simp] theorem beginAccess_chainCur (rest : List HostEvent) (raced : List Word) (s : State) : (beginAccess rest raced s).chainCur = s.chainCur := rfl
@[simp] theorem beginAccess_chainRaddr (rest : List HostEvent) (raced : List Word) (s : State) : (beginAccess rest raced s).chainRaddr = s.chainRaddr := rfl
@[simp] theorem beginAccess_encSrc (rest : List HostEvent) (raced : List Word) (s : State) : (beginAccess rest raced s).encSrc = s.encSrc := rfl
@[simp] theorem beginAccess_encLen (rest : List HostEvent) (raced : List Word) (s : State) : (beginAccess rest raced s).encLen = s.encLen := rfl
@[simp] theorem beginAccess_encDst (rest : List HostEvent) (raced : List Word) (s : State) : (beginAccess rest raced s).encDst = s.encDst := rfl
@[simp] theorem beginAccess_encCap (rest : List HostEvent) (raced : List Word) (s : State) : (beginAccess rest raced s).encCap = s.encCap := rfl
@[simp] theorem beginAccess_encCount (rest : List HostEvent) (raced : List Word) (s : State) : (beginAccess rest raced s).encCount = s.encCount := rfl
@[simp] theorem beginAccess_encAcc (rest : List HostEvent) (raced : List Word) (s : State) : (beginAccess rest raced s).encAcc = s.encAcc := rfl
@[simp] theorem beginAccess_encNbits (rest : List HostEvent) (raced : List Word) (s : State) : (beginAccess rest raced s).encNbits = s.encNbits := rfl
@[simp] theorem beginAccess_encOvf (rest : List HostEvent) (raced : List Word) (s : State) : (beginAccess rest raced s).encOvf = s.encOvf := rfl
@[simp] theorem beginAccess_encResult (rest : List HostEvent) (raced : List Word) (s : State) : (beginAccess rest raced s).encResult = s.encResult := rfl
@[simp] theorem beginAccess_decSrc (rest : List HostEvent) (raced : List Word) (s : State) : (beginAccess rest raced s).decSrc = s.decSrc := rfl
@[simp] theorem beginAccess_decLen (rest : List HostEvent) (raced : List Word) (s : State) : (beginAccess rest raced s).decLen = s.decLen := rfl
@[simp] theorem beginAccess_decDst (rest : List HostEvent) (raced : List Word) (s : State) : (beginAccess rest raced s).decDst = s.decDst := rfl
@[simp] theorem beginAccess_decCap (rest : List HostEvent) (raced : List Word) (s : State) : (beginAccess rest raced s).decCap = s.decCap := rfl
@[simp] theorem beginAccess_decCount (rest : List HostEvent) (raced : List Word) (s : State) : (beginAccess rest raced s).decCount = s.decCount := rfl
@[simp] theorem beginAccess_decConsumed (rest : List HostEvent) (raced : List Word) (s : State) : (beginAccess rest raced s).decConsumed = s.decConsumed := rfl
@[simp] theorem beginAccess_decNode (rest : List HostEvent) (raced : List Word) (s : State) : (beginAccess rest raced s).decNode = s.decNode := rfl
@[simp] theorem beginAccess_decCode (rest : List HostEvent) (raced : List Word) (s : State) : (beginAccess rest raced s).decCode = s.decCode := rfl
@[simp] theorem beginAccess_decResult (rest : List HostEvent) (raced : List Word) (s : State) : (beginAccess rest raced s).decResult = s.decResult := rfl
@[simp] theorem beginAccess_mem (rest : List HostEvent) (raced : List Word) (s : State) : (beginAccess rest raced s).mem = s.mem := rfl
@[simp] theorem beginAccess_store (rest : List HostEvent) (raced : List Word) (s : State) : (beginAccess rest raced s).store = s.store := rfl
@[simp] theorem beginAccess_readData (rest : List HostEvent) (raced : List Word) (s : State) : (beginAccess rest raced s).readData = s.readData := rfl
@[simp] theorem beginAccess_pending (rest : List HostEvent) (raced : List Word) (s : State) : (beginAccess rest raced s).pending = rest := rfl
@[simp] theorem beginAccess_raced (rest : List HostEvent) (raced : List Word) (s : State) : (beginAccess rest raced s).raced = raced := rfl
@[simp] theorem beginAccess_epoch (rest : List HostEvent) (raced : List Word) (s : State) : (beginAccess rest raced s).epoch = s.epoch := rfl

/-! ## endAccess -/

@[simp] theorem endAccess_codes (s : State) : (endAccess s).codes = s.codes := rfl
@[simp] theorem endAccess_chunkSize (s : State) : (endAccess s).chunkSize = s.chunkSize := rfl
@[simp] theorem endAccess_maxChunks (s : State) : (endAccess s).maxChunks = s.maxChunks := rfl
@[simp] theorem endAccess_blockPage (s : State) : (endAccess s).blockPage = s.blockPage := rfl
@[simp] theorem endAccess_ill (s : State) : (endAccess s).ill = s.ill := rfl
@[simp] theorem endAccess_errCmd (s : State) : (endAccess s).errCmd = s.errCmd := rfl
@[simp] theorem endAccess_sinkMode (s : State) : (endAccess s).sinkMode = s.sinkMode := rfl
@[simp] theorem endAccess_chainFill (s : State) : (endAccess s).chainFill = s.chainFill := rfl
@[simp] theorem endAccess_chainCur (s : State) : (endAccess s).chainCur = s.chainCur := rfl
@[simp] theorem endAccess_chainRaddr (s : State) : (endAccess s).chainRaddr = s.chainRaddr := rfl
@[simp] theorem endAccess_encSrc (s : State) : (endAccess s).encSrc = s.encSrc := rfl
@[simp] theorem endAccess_encLen (s : State) : (endAccess s).encLen = s.encLen := rfl
@[simp] theorem endAccess_encDst (s : State) : (endAccess s).encDst = s.encDst := rfl
@[simp] theorem endAccess_encCap (s : State) : (endAccess s).encCap = s.encCap := rfl
@[simp] theorem endAccess_encCount (s : State) : (endAccess s).encCount = s.encCount := rfl
@[simp] theorem endAccess_encAcc (s : State) : (endAccess s).encAcc = s.encAcc := rfl
@[simp] theorem endAccess_encNbits (s : State) : (endAccess s).encNbits = s.encNbits := rfl
@[simp] theorem endAccess_encOvf (s : State) : (endAccess s).encOvf = s.encOvf := rfl
@[simp] theorem endAccess_encResult (s : State) : (endAccess s).encResult = s.encResult := rfl
@[simp] theorem endAccess_decSrc (s : State) : (endAccess s).decSrc = s.decSrc := rfl
@[simp] theorem endAccess_decLen (s : State) : (endAccess s).decLen = s.decLen := rfl
@[simp] theorem endAccess_decDst (s : State) : (endAccess s).decDst = s.decDst := rfl
@[simp] theorem endAccess_decCap (s : State) : (endAccess s).decCap = s.decCap := rfl
@[simp] theorem endAccess_decCount (s : State) : (endAccess s).decCount = s.decCount := rfl
@[simp] theorem endAccess_decConsumed (s : State) : (endAccess s).decConsumed = s.decConsumed := rfl
@[simp] theorem endAccess_decNode (s : State) : (endAccess s).decNode = s.decNode := rfl
@[simp] theorem endAccess_decCode (s : State) : (endAccess s).decCode = s.decCode := rfl
@[simp] theorem endAccess_decResult (s : State) : (endAccess s).decResult = s.decResult := rfl
@[simp] theorem endAccess_mem (s : State) : (endAccess s).mem = scribble s.epoch s.raced s.mem := rfl
@[simp] theorem endAccess_store (s : State) : (endAccess s).store = s.store := rfl
@[simp] theorem endAccess_readData (s : State) : (endAccess s).readData = s.readData := rfl
@[simp] theorem endAccess_pending (s : State) : (endAccess s).pending = s.pending := rfl
@[simp] theorem endAccess_raced (s : State) : (endAccess s).raced = [] := rfl
@[simp] theorem endAccess_epoch (s : State) : (endAccess s).epoch = s.epoch + 1 := rfl

/-! ## raiseError -/

@[simp] theorem raiseError_encOverflow (s : State) : raiseError .encOverflow s = { s with encOvf := true } := rfl
@[simp] theorem raiseError_decOverflow (s : State) : raiseError .decOverflow s = { s with decCode := .overflow } := rfl
@[simp] theorem raiseError_invalidCode (s : State) : raiseError .invalidCode s = { s with decCode := .invalidCode } := rfl
@[simp] theorem raiseError_truncatedInput (s : State) :
    raiseError .truncatedInput s = { s with decCode := .truncatedInput } := rfl
@[simp] theorem raiseError_illegalCommand (w : Word) (s : State) :
    raiseError (.illegalCommand w) s = { s with errCmd := if s.ill then s.errCmd else w, ill := true } := rfl

/-! ## The reads that depend on few fields -/

@[simp] theorem chunkBytes_hostWrite (a : Word) (v : Byte) (s : State) : chunkBytes (hostWrite a v s) = chunkBytes s := rfl
@[simp] theorem chainLen_hostWrite (a : Word) (v : Byte) (s : State) : chainLen (hostWrite a v s) = chainLen s := rfl
@[simp] theorem chunkBytes_chunkWrite (i j : Nat) (v : Byte) (s : State) :
    chunkBytes (chunkWrite i j v s) = chunkBytes s := rfl
@[simp] theorem chainLen_chunkWrite (i j : Nat) (v : Byte) (s : State) :
    chainLen (chunkWrite i j v s) = chainLen s := rfl

end Sys2Proof.Machine
end

