-- ==== Sys2Proof/Laws/Ops.lean ====
section
/-! SUPPORT. One lemma per shared operation that says what it can do: the sinks, the chain, the error and reset
operations, and the runs of bytes statements speak of. -/

namespace Sys2Proof.Machine

/-! ## Runs of bytes -/

theorem writeBytes_append (m : Memory) (a : Word) (xs ys : List Byte) :
    writeBytes m a (xs ++ ys) = writeBytes (writeBytes m a xs) (a + BitVec.ofNat 64 xs.length) ys := by
  induction xs generalizing m a with
  | nil => simp [writeBytes]
  | cons x xs ih =>
    have hl : a + 1#64 + BitVec.ofNat 64 xs.length = a + BitVec.ofNat 64 (xs.length + 1) := by
      rw [BitVec.add_assoc, BitVec.add_comm 1#64, ← BitVec.ofNat_add]
    simp only [List.cons_append, writeBytes, ih, List.length_cons, hl]

theorem readCell_writeBytes_other (m : Memory) (a : Word) (ys : List Byte) (b : Nat)
    (h : ∀ k, k < ys.length → b ≠ (a + BitVec.ofNat 64 k).toNat) :
    readCell (writeBytes m a ys) b = readCell m b := by
  induction ys generalizing m a with
  | nil => rfl
  | cons y ys ih =>
    have h0 : b ≠ a.toNat := by simpa using h 0 (by simp)
    rw [writeBytes, ih, readCell_writeCell_other m y h0]
    intro k hk
    have := h (k + 1) (by simpa using hk)
    rwa [BitVec.add_assoc, BitVec.add_comm 1#64, ← BitVec.ofNat_add]

/-! ## The chunk chain -/

theorem fillOf_append_zero (s : State) (i : Nat) :
    (s.chainFill ++ [0]).getD i 0 = fillOf s i := by
  simp only [fillOf, List.getD_eq_getElem?_getD, List.getElem?_append]
  split
  · rfl
  · rename_i h
    rw [List.getElem?_eq_none (by omega : s.chainFill.length ≤ i)]
    cases i - s.chainFill.length <;> simp

/-- What ChainEnsure can do (R212): keep the cursor, move it to a kept chunk, or allocate a chunk. -/
theorem chainEnsure_some {s t : State} (h : chainEnsure s = some t) :
    t = { s with chainFill := t.chainFill, chainCur := t.chainCur } ∧ ∀ i, fillOf t i = fillOf s i := by
  have advance : ∀ n, chainAdvance n s = some t →
      t = { s with chainFill := t.chainFill, chainCur := t.chainCur } ∧ ∀ i, fillOf t i = fillOf s i := by
    intro n hn
    unfold chainAdvance at hn
    split at hn
    · cases hn; exact ⟨rfl, fun _ => rfl⟩
    · split at hn
      · cases hn; exact ⟨rfl, fun i => fillOf_append_zero s i⟩
      · cases hn
  unfold chainEnsure at h
  split at h
  · exact advance 0 h
  · split at h
    · cases h; exact ⟨rfl, fun _ => rfl⟩
    · exact advance _ h

/-- A chain with its invariants has room exactly when ChainEnsure finds some, and ChainEnsure leaves a cursor with room
at the end of the same stream. -/
theorem chainEnsure_spec {s : State} (hp : paramsOk s) (hc : chainOk s) :
    (chainEnsure s = none ∧ chainRoom s = 0) ∨
    ∃ t c, chainEnsure s = some t ∧ t.chainCur = some c ∧ fillOf t c < chunkBytes t ∧ chainOk t ∧
      chainLen t = chainLen s ∧ 0 < chainRoom s := by
  obtain ⟨hp1, hp2⟩ := hp
  have hb : 1 ≤ chunkBytes s := hp1
  obtain ⟨hmax, hcur⟩ := hc
  -- moving to chunk `n`, all chunks before it full
  have advance : ∀ n, n ≤ s.chainFill.length → (∀ i, i < n → fillOf s i = chunkBytes s) →
      (∀ i, n ≤ i → i < s.chainFill.length → fillOf s i = 0) → chainLen s = n * chunkBytes s →
      (chainAdvance n s = none ∧ chainRoom s = 0) ∨
      ∃ t c, chainAdvance n s = some t ∧ t.chainCur = some c ∧ fillOf t c < chunkBytes t ∧ chainOk t ∧
        chainLen t = chainLen s ∧ 0 < chainRoom s := by
    intro n hn hfull hempty hlen
    have room : n < s.maxChunks.toNat → 0 < chainRoom s := by
      intro hlt
      have : (n + 1) * chunkBytes s ≤ s.maxChunks.toNat * chunkBytes s := Nat.mul_le_mul_right _ hlt
      have : n * chunkBytes s + chunkBytes s ≤ s.maxChunks.toNat * chunkBytes s := by
        rwa [Nat.add_mul, Nat.one_mul] at this
      simp only [chainRoom, hlen]
      omega
    unfold chainAdvance
    split
    · rename_i hlt
      refine .inr ⟨_, n, rfl, rfl, ?_, ⟨hmax, hlt, ?_, hfull, fun i hi hl => hempty i (by omega) hl⟩, ?_,
        room (by omega)⟩
      · show fillOf s n < chunkBytes s
        rw [hempty n (Nat.le_refl n) hlt]; omega
      · show fillOf s n ≤ chunkBytes s
        rw [hempty n (Nat.le_refl n) hlt]; omega
      · show n * chunkBytes s + fillOf s n = chainLen s
        rw [hempty n (Nat.le_refl n) hlt, hlen]; rfl
    · have hn' : n = s.chainFill.length := by omega
      have hz : fillOf s n = 0 := by
        simp [fillOf, hn']
      split
      · rename_i hlt
        have hf : ∀ i, (s.chainFill ++ [0]).getD i 0 = fillOf s i := fillOf_append_zero s
        refine .inr ⟨_, n, rfl, rfl, ?_, ⟨?_, ?_, ?_, ?_, ?_⟩, ?_, room (by omega)⟩
        · show (s.chainFill ++ [0]).getD n 0 < chunkBytes s
          rw [hf, hz]; omega
        · show (s.chainFill ++ [0]).length ≤ s.maxChunks.toNat
          simp only [List.length_append, List.length_cons, List.length_nil]; omega
        · show n < (s.chainFill ++ [0]).length
          simp only [List.length_append, List.length_cons, List.length_nil]; omega
        · show (s.chainFill ++ [0]).getD n 0 ≤ chunkBytes s
          rw [hf, hz]; omega
        · intro i hi
          show (s.chainFill ++ [0]).getD i 0 = chunkBytes s
          rw [hf]; exact hfull i hi
        · intro i hi hl
          have hl' : i < (s.chainFill ++ [0]).length := hl
          simp only [List.length_append, List.length_cons, List.length_nil] at hl'
          omega
        · show n * chunkBytes s + (s.chainFill ++ [0]).getD n 0 = chainLen s
          rw [hf, hz, hlen]; rfl
      · refine .inl ⟨rfl, ?_⟩
        have : n = s.maxChunks.toNat := by omega
        simp only [chainRoom, hlen, this]
        omega
  unfold chainEnsure
  split
  · rename_i hnone
    rw [hnone] at hcur
    exact advance 0 (Nat.zero_le _) (by omega) (by simp [hcur]) (by simp [chainLen, hnone])
  · rename_i c hsome
    rw [hsome] at hcur
    obtain ⟨hlt, hle, hfull, hempty⟩ := hcur
    split
    · rename_i hroom
      refine .inr ⟨s, c, rfl, hsome, hroom, ⟨hmax, by rw [hsome]; exact ⟨hlt, hle, hfull, hempty⟩⟩, rfl, ?_⟩
      have : (c + 1) * chunkBytes s ≤ s.maxChunks.toNat * chunkBytes s := Nat.mul_le_mul_right _ (by omega)
      rw [Nat.add_mul, Nat.one_mul] at this
      simp only [chainRoom, chainLen, hsome]
      omega
    · rename_i hroom
      have hc' : fillOf s c = chunkBytes s := by omega
      refine advance (c + 1) (by omega) ?_ (fun i hi hl => hempty i (by omega) hl) ?_
      · intro i hi
        rcases Nat.lt_succ_iff_lt_or_eq.mp hi with h | h
        · exact hfull i h
        · rw [h]; exact hc'
      · simp only [chainLen, hsome, hc', Nat.add_mul, Nat.one_mul]

/-! ## The byte sinks -/

/-- SinkAppend changes only the sink and ENC_COUNT, which it increments (R210). -/
theorem sinkAppend_frame {v : Byte} {s t : State} (h : sinkAppend v s = some t) :
    t = { s with mem := t.mem, store := t.store, chainFill := t.chainFill, chainCur := t.chainCur,
                 encCount := t.encCount } := by
  unfold sinkAppend at h
  split at h
  · split at h
    · cases h
    · cases h; rfl
  · split at h
    · cases h
    · rename_i u hu
      cases h
      have hf := (chainEnsure_some hu).1
      unfold chainPut
      split
      · rw [hf]
      · rw [hf]; rfl

/-- SinkAppend in fixed mode (R210). -/
theorem sinkAppend_fixed {s : State} (hm : s.sinkMode = .fixed) (v : Byte) :
    sinkAppend v s =
      if s.encCap ≤ s.encCount then none
      else some { s with mem := writeCell s.mem (s.encDst + s.encCount).toNat v, encCount := s.encCount + 1#64 } := by
  unfold sinkAppend
  split
  · rfl
  · rename_i h
    rw [hm] at h
    cases h

/-- What DecOut can do (R213). -/
theorem decOut_eq (v : Byte) (s : State) :
    decOut v s =
      if s.decCap ≤ s.decCount then none
      else some { s with mem := writeCell s.mem (s.decDst + s.decCount).toNat v, decCount := s.decCount + 1#64 } := rfl

/-- `resetBlock` is the reset column over the constants, the memories and the host's side (R270). -/
theorem resetBlock_eq (s : State) : resetBlock s = registersAtReset s := rfl

end Sys2Proof.Machine
end

