-- ==== Sys2Proof/Laws/Chain.lean ====
section
/-! SUPPORT. The chunk chain as one stream (R40, R210, R212), and both sinks through `sinkTook` and `sinkRoom`. -/

namespace Sys2Proof.Machine

/-- Within the stream, byte `k` is the store's byte `k`: chunk `k / CHUNK_SIZE`, offset `k % CHUNK_SIZE` (R41). -/
theorem chainByte_eq (s : State) {k : Nat} (h : k < chainLen s) : chainByte s k = readCell s.store k := by
  simp only [chainByte, if_pos h, chunkRead, Nat.div_add_mod']

theorem chainStream_eq (s : State) : chainStream s = (List.range (chainLen s)).map (readCell s.store) := by
  refine List.map_congr_left fun k hk => chainByte_eq s ?_
  simpa using hk

/-- Two chains with streams of the same length over the same store hold the same bytes. -/
theorem chainStream_congr {s t : State} (hl : chainLen t = chainLen s)
    (hb : ∀ k, k < chainLen s → readCell t.store k = readCell s.store k) : chainStream t = chainStream s := by
  rw [chainStream_eq, chainStream_eq, hl]
  exact List.map_congr_left fun k hk => hb k (by simpa using hk)

/-- One byte put at a cursor with room (R210). -/
theorem chainPut_spec {s : State} {c : Nat} (hw : Memory.wf s.store = true) (hc : chainOk s)
    (hcur : s.chainCur = some c) (hroom : fillOf s c < chunkBytes s) (v : Byte) :
    chainOk (chainPut v s) ∧ chainLen (chainPut v s) = chainLen s + 1 ∧
    (chainPut v s).store = writeCell s.store (chainLen s) v ∧
    chainStream (chainPut v s) = chainStream s ++ [v] := by
  obtain ⟨hmax, hrest⟩ := hc
  rw [hcur] at hrest
  obtain ⟨hlt, hle, hfull, hempty⟩ := hrest
  have hput : chainPut v s =
      { s with store := writeCell s.store (chainLen s) v,
               chainFill := s.chainFill.set c (fillOf s c + 1), encCount := s.encCount + 1#64 } := by
    simp only [chainPut, hcur, chunkWrite, chainLen, chunkBytes]
  have hfill : ∀ i, fillOf (chainPut v s) i = if i = c then fillOf s c + 1 else fillOf s i := by
    intro i
    rw [hput]
    simp only [fillOf, List.getD_eq_getElem?_getD, List.getElem?_set, hlt]
    by_cases hic : c = i
    · subst hic; simp
    · rw [if_neg hic, if_neg (fun e => hic e.symm)]
  have hlen : chainLen (chainPut v s) = chainLen s + 1 := by
    have h1 : (chainPut v s).chainCur = some c := by rw [hput]; exact hcur
    have h2 : chunkBytes (chainPut v s) = chunkBytes s := by rw [hput]; rfl
    simp only [chainLen, h1, hcur, h2, hfill, if_true]
    omega
  have hstore : (chainPut v s).store = writeCell s.store (chainLen s) v := by rw [hput]
  refine ⟨⟨?_, ?_⟩, hlen, hstore, ?_⟩
  · rw [hput]; simpa using hmax
  · have h1 : (chainPut v s).chainCur = some c := by rw [hput]; exact hcur
    have h2 : chunkBytes (chainPut v s) = chunkBytes s := by rw [hput]; rfl
    have h3 : (chainPut v s).chainFill.length = s.chainFill.length := by rw [hput]; simp
    rw [h1]
    refine ⟨by rw [h3]; exact hlt, ?_, ?_, ?_⟩
    · rw [hfill, h2, if_pos rfl]; omega
    · intro i hi
      rw [hfill, h2, if_neg (by omega)]; exact hfull i hi
    · intro i hi hl
      rw [hfill, if_neg (by omega)]
      exact hempty i hi (by rwa [h3] at hl)
  · rw [chainStream_eq, chainStream_eq, hlen, hstore, List.range_succ, List.map_append, List.map_singleton,
      readCell_writeCell_same hw]
    congr 1
    refine List.map_congr_left fun k hk => readCell_writeCell_other _ _ ?_
    have : k < chainLen s := by simpa using hk
    omega

/-- SinkAppend, both sinks at once (R210, R211, R212): it overflows exactly when the sink has no room; otherwise the
sink took one byte and has one less room. -/
theorem sinkAppend_spec {s : State} (hp : paramsOk s) (hw : Memory.wf s.store = true) (hc : chainOk s) (v : Byte) :
    (sinkAppend v s = none ∧ sinkRoom s = 0) ∨
    ∃ t, sinkAppend v s = some t ∧ sinkTook s t [v] ∧ sinkRoom s = sinkRoom t + 1 ∧ chainOk t ∧
      Memory.wf t.store = true ∧ t.encCount = s.encCount + 1#64 := by
  cases hm : s.sinkMode with
  | fixed =>
    have hle : s.encCap ≤ s.encCount ↔ s.encCap.toNat ≤ s.encCount.toNat := BitVec.le_def
    rw [sinkAppend_fixed hm]
    by_cases h : s.encCap ≤ s.encCount
    · refine .inl ⟨by rw [if_pos h], ?_⟩
      simp only [sinkRoom, hm]; have := hle.mp h; omega
    · refine .inr ⟨_, if_neg h, ?_, ?_, hc, hw, rfl⟩
      · simp [sinkTook, hm, writeBytes]
      · have hlt : s.encCount.toNat < s.encCap.toNat := by rw [hle] at h; omega
        have hcap := s.encCap.isLt
        simp only [sinkRoom, hm, BitVec.toNat_add, BitVec.toNat_ofNat]
        omega
  | chain =>
    have happ : sinkAppend v s = match chainEnsure s with | none => none | some t => some (chainPut v t) := by
      unfold sinkAppend
      split
      · rename_i h; rw [hm] at h; cases h
      · rfl
    rcases chainEnsure_spec hp hc with ⟨hn, hr⟩ | ⟨u, c, hs, hcur, hroom, hu, hlen, hpos⟩
    · refine .inl ⟨by rw [happ, hn], ?_⟩
      simpa [sinkRoom, hm] using hr
    · have hf := (chainEnsure_some hs).1
      have hus : u.store = s.store := by rw [hf]
      have huw : Memory.wf u.store = true := by rw [hus]; exact hw
      obtain ⟨h1, h2, h3, h4⟩ := chainPut_spec huw hu hcur hroom v
      have hfr := sinkAppend_frame (v := v) (s := s) (t := chainPut v u) (by rw [happ, hs])
      refine .inr ⟨chainPut v u, by rw [happ, hs], ?_, ?_, h1, ?_, ?_⟩
      · simp only [sinkTook, hm]
        refine ⟨?_, h1, ?_⟩
        · rw [h4, chainStream_congr hlen (fun k _ => by rw [hus])]
        · simp only [chainPut, hcur]; rw [hf]; rfl
      · have hmode : (chainPut v u).sinkMode = .chain := by rw [hfr]; exact hm
        have hmx : (chainPut v u).maxChunks = s.maxChunks := by rw [hfr]
        have hcs : (chainPut v u).chunkSize = s.chunkSize := by rw [hfr]
        simp only [sinkRoom, hm, hmode, chainRoom, chunkBytes, hmx, hcs, h2, hlen] at hpos ⊢
        omega
      · rw [h3]; exact wf_writeCell huw _ v
      · simp only [chainPut, hcur]; rw [hf]

end Sys2Proof.Machine
end

