-- ==== Sys2Proof/Laws/CodeTree.lean ====
section
/-! SUPPORT. The code tree of a table that meets R24: nodes are the proper prefixes of codes, every string is a node or
begins with a code, there are 256 nodes, and this hardware's table (R25) is such a table. -/

namespace Sys2Proof.Machine

/-! ## Prefixes -/

theorem prefixValue_eq (c : BitString) (d : Nat) : prefixValue c d = c.val / 2 ^ (c.len - d) := by
  rw [prefixValue, Nat.shiftRight_eq_div_pow]

@[simp] theorem prefixValue_self (c : BitString) : prefixValue c c.len = c.val := by
  rw [prefixValue_eq, Nat.sub_self, Nat.pow_zero, Nat.div_one]

/-- A shorter prefix is a prefix of a longer one. -/
theorem prefixValue_div (c : BitString) {d e : Nat} (hde : d ≤ e) (he : e ≤ c.len) :
    prefixValue c e / 2 ^ (e - d) = prefixValue c d := by
  rw [prefixValue_eq, prefixValue_eq, Nat.div_div_eq_div_mul, ← Nat.pow_add]
  congr 2; omega

theorem prefixValue_lt {c : BitString} (hc : c.val < 2 ^ c.len) {d : Nat} (hd : d ≤ c.len) :
    prefixValue c d < 2 ^ d := by
  rw [prefixValue_eq, Nat.div_lt_iff_lt_mul (Nat.two_pow_pos _), ← Nat.pow_add]
  rwa [show d + (c.len - d) = c.len by omega]

theorem isNode_iff {codes : CodeTable} {x : BitString} :
    isNode codes x = true ↔ ∃ c ∈ codes, x.len < c.len ∧ prefixValue c x.len = x.val := by
  simp [isNode, List.any_eq_true]

/-! ## The node list -/

theorem mem_insertNew {v w : Nat} {l : List Nat} : w ∈ insertNew v l ↔ w = v ∨ w ∈ l := by
  induction l with
  | nil => simp [insertNew]
  | cons u rest ih =>
    unfold insertNew
    split
    · simp
    · split
      · rename_i h; subst h; simp
      · simp only [List.mem_cons, ih]; tauto

theorem insertNew_sorted {v : Nat} {l : List Nat} (h : l.Pairwise (· < ·)) : (insertNew v l).Pairwise (· < ·) := by
  induction l with
  | nil => simp [insertNew]
  | cons u rest ih =>
    obtain ⟨hu, hr⟩ := List.pairwise_cons.mp h
    unfold insertNew
    split
    · rename_i hlt
      refine List.pairwise_cons.mpr ⟨fun w hw => ?_, h⟩
      rcases List.mem_cons.mp hw with rfl | hw
      · exact hlt
      · exact hlt.trans (hu w hw)
    · split
      · exact h
      · refine List.pairwise_cons.mpr ⟨fun w hw => ?_, ih hr⟩
        rcases mem_insertNew.mp hw with rfl | hw
        · omega
        · exact hu w hw

theorem mem_prefixesAt {d v : Nat} {codes : CodeTable} :
    v ∈ prefixesAt d codes ↔ ∃ c ∈ codes, d < c.len ∧ prefixValue c d = v := by
  induction codes with
  | nil => simp [prefixesAt]
  | cons c rest ih =>
    unfold prefixesAt
    split
    · rename_i h
      rw [mem_insertNew, ih]
      simp only [List.mem_cons, exists_eq_or_imp, h, true_and, eq_comm (a := v)]
    · rename_i h
      simp only [ih, List.mem_cons, exists_eq_or_imp, h, false_and, false_or]

theorem prefixesAt_sorted (d : Nat) (codes : CodeTable) : (prefixesAt d codes).Pairwise (· < ·) := by
  induction codes with
  | nil => exact .nil
  | cons c rest ih =>
    unfold prefixesAt
    split
    · exact insertNew_sorted ih
    · exact ih

/-- NODES holds exactly the proper prefixes of codes (R51). -/
theorem mem_nodeList {codes : CodeTable} (h : ∀ c ∈ codes, c.len ≤ maxCodeLen) {x : BitString} :
    x ∈ nodeList codes ↔ isNode codes x = true := by
  rw [isNode_iff]
  simp only [nodeList, List.mem_flatMap, List.mem_range, List.mem_map, mem_prefixesAt]
  constructor
  · rintro ⟨d, -, v, ⟨c, hc, hd, rfl⟩, rfl⟩
    exact ⟨c, hc, hd, rfl⟩
  · rintro ⟨c, hc, hd, hv⟩
    exact ⟨x.len, by have := h c hc; omega, x.val, ⟨c, hc, hd, hv⟩, rfl⟩

/-- NODES is sorted by depth and then by value (R51). -/
theorem nodeList_sorted (codes : CodeTable) :
    (nodeList codes).Pairwise (fun x y => x.len < y.len ∨ x.len = y.len ∧ x.val < y.val) := by
  refine List.pairwise_flatMap.mpr ⟨fun d _ => ?_, ?_⟩
  · exact List.pairwise_map.mpr ((prefixesAt_sorted d codes).imp fun h => .inr ⟨rfl, h⟩)
  · refine List.pairwise_lt_range.imp fun {d e} hde x hx y hy => ?_
    obtain ⟨v, -, rfl⟩ := List.mem_map.mp hx
    obtain ⟨w, -, rfl⟩ := List.mem_map.mp hy
    exact .inl hde

theorem nodeList_nodup (codes : CodeTable) : (nodeList codes).Nodup :=
  (nodeList_sorted codes).imp fun {x y} h e => by subst e; omega

/-! ## The code tree of a table that meets R24 -/

variable {codes : CodeTable}

theorem codeOf_mem (h : TableOk codes) {s : Nat} (hs : s < 257) : codeOf codes s ∈ codes := by
  have hl : s < codes.length := by rw [h.size]; exact hs
  rw [codeOf, List.getD_eq_getElem _ _ hl]
  exact List.getElem_mem hl

theorem exists_codeOf (h : TableOk codes) {c : BitString} (hc : c ∈ codes) : ∃ s, s < 257 ∧ codeOf codes s = c := by
  obtain ⟨s, hs, rfl⟩ := List.getElem_of_mem hc
  exact ⟨s, h.size ▸ hs, by rw [codeOf, List.getD_eq_getElem _ _ hs]⟩

/-- Every symbol's code is within R24(a). -/
theorem codeOf_bounds (h : TableOk codes) {s : Nat} (hs : s < 257) :
    5 ≤ (codeOf codes s).len ∧ (codeOf codes s).len ≤ 30 ∧ (codeOf codes s).val < 2 ^ (codeOf codes s).len :=
  h.lengths _ (codeOf_mem h hs)

theorem codes_nodup (h : TableOk codes) : codes.Nodup :=
  h.prefixFree.imp fun {c x} hcx e => hcx.1 (by subst e; exact ⟨Nat.le_refl _, prefixValue_self _⟩)

/-- R24(b): a code that is a prefix of a code is that code. -/
theorem eq_of_beginsWith (h : TableOk codes) {c x : BitString} (hc : c ∈ codes) (hx : x ∈ codes)
    (hb : beginsWith c x) : x = c := by
  by_contra hne
  have : Std.Symm (fun c x : BitString => ¬ beginsWith c x ∧ ¬ beginsWith x c) := ⟨fun _ _ hab => ⟨hab.2, hab.1⟩⟩
  exact (h.prefixFree.forall hc hx (Ne.symm hne)).1 hb

/-- No code is a node (R24(b)). -/
theorem not_isNode_of_mem (h : TableOk codes) {c : BitString} (hc : c ∈ codes) : ¬ isNode codes c = true := by
  rw [isNode_iff]
  rintro ⟨c', hc', hlt, hv⟩
  have := eq_of_beginsWith h hc' hc ⟨hlt.le, hv⟩
  subst this
  omega

theorem len_of_isNode (h : TableOk codes) {x : BitString} (hx : isNode codes x = true) : x.len < 30 := by
  obtain ⟨c, hc, hlt, -⟩ := isNode_iff.mp hx
  have := (h.lengths c hc).2.1
  simp only [maxCodeLen] at this
  omega

theorem val_of_isNode (h : TableOk codes) {x : BitString} (hx : isNode codes x = true) : x.val < 2 ^ x.len := by
  obtain ⟨c, hc, hlt, hv⟩ := isNode_iff.mp hx
  rw [← hv]
  exact prefixValue_lt (h.lengths c hc).2.2 hlt.le

theorem isNode_root (h : TableOk codes) : isNode codes rootNode = true := by
  have hm := codeOf_mem h (s := 0) (by omega)
  have hb := codeOf_bounds h (s := 0) (by omega)
  refine isNode_iff.mpr ⟨_, hm, by simp only [rootNode]; omega, ?_⟩
  exact Nat.lt_one_iff.mp (prefixValue_lt hb.2.2 (Nat.zero_le _))

/-- The strings of 30 bits that begin with `x`, as numbers. -/
def span (x : BitString) : Finset Nat :=
  Finset.Ico (x.val * 2 ^ (30 - x.len)) ((x.val + 1) * 2 ^ (30 - x.len))

theorem card_span (x : BitString) : (span x).card = 2 ^ (30 - x.len) := by
  rw [span, Nat.card_Ico, ← Nat.sub_mul, Nat.add_sub_cancel_left, Nat.one_mul]

theorem mem_span {x : BitString} {k : Nat} : k ∈ span x ↔ k / 2 ^ (30 - x.len) = x.val := by
  rw [span, Finset.mem_Ico, Nat.div_eq_iff (Nat.two_pow_pos _)]
  have := Nat.two_pow_pos (30 - x.len)
  rw [Nat.add_mul, Nat.one_mul]
  omega

/-- Two strings that share an extension: the shorter is a prefix of the longer. -/
theorem beginsWith_of_mem_span {x y : BitString} (hl : x.len ≤ y.len) (hy : y.len ≤ 30) {k : Nat}
    (hx : k ∈ span x) (hk : k ∈ span y) : beginsWith y x := by
  rw [mem_span] at hx hk
  refine ⟨hl, ?_⟩
  rw [prefixValue_eq, ← hk, ← hx, Nat.div_div_eq_div_mul, ← Nat.pow_add]
  congr 2; omega

theorem span_subset {x : BitString} (hl : x.len ≤ 30) (hv : x.val < 2 ^ x.len) : span x ⊆ Finset.range (2 ^ 30) := by
  intro k hk
  rw [span, Finset.mem_Ico] at hk
  have : (x.val + 1) * 2 ^ (30 - x.len) ≤ 2 ^ x.len * 2 ^ (30 - x.len) := Nat.mul_le_mul_right _ hv
  rw [← Nat.pow_add, show x.len + (30 - x.len) = 30 by omega] at this
  exact Finset.mem_range.mpr (by omega)

/-- R24(d): every bit string of at most 30 bits is a proper prefix of a code or has a code as a prefix. -/
theorem node_or_code (h : TableOk codes) {x : BitString} (hl : x.len ≤ 30) (hv : x.val < 2 ^ x.len) :
    isNode codes x = true ∨ ∃ c ∈ codes, beginsWith x c := by
  by_contra hno
  obtain ⟨hn, hc⟩ := not_or.mp hno
  have bounds : ∀ c ∈ codes, c.len ≤ 30 ∧ c.val < 2 ^ c.len := fun c hc => (h.lengths c hc).2
  have disj : ∀ c ∈ codes, Disjoint (span x) (span c) := by
    intro c hcm
    rw [Finset.disjoint_left]
    intro k hk hkc
    rcases Nat.lt_or_ge x.len c.len with hlt | hge
    · have hb := beginsWith_of_mem_span hlt.le (bounds c hcm).1 hk hkc
      exact hn (isNode_iff.mpr ⟨c, hcm, hlt, hb.2⟩)
    · exact hc ⟨c, hcm, beginsWith_of_mem_span hge hl hkc hk⟩
  have pair : ((codes.toFinset : Set BitString)).PairwiseDisjoint span := by
    intro c hcm c' hcm' hne
    have hm := List.mem_toFinset.mp hcm
    have hm' := List.mem_toFinset.mp hcm'
    refine Finset.disjoint_left.mpr fun k hk hk' => hne ?_
    rcases Nat.le_total c.len c'.len with hle | hle
    · exact eq_of_beginsWith h hm' hm (beginsWith_of_mem_span hle (bounds c' hm').1 hk hk')
    · exact (eq_of_beginsWith h hm hm' (beginsWith_of_mem_span hle (bounds c hm).1 hk' hk)).symm
  have hU : (codes.toFinset.biUnion span).card = 2 ^ 30 := by
    rw [Finset.card_biUnion (fun c hc c' hc' hne => pair hc hc' hne),
      List.sum_toFinset _ (codes_nodup h)]
    simpa only [card_span, maxCodeLen] using h.complete
  have hdis : Disjoint (span x) (codes.toFinset.biUnion span) :=
    (Finset.disjoint_biUnion_right _ _ _).mpr fun c hc => disj c (List.mem_toFinset.mp hc)
  have hsub : span x ∪ codes.toFinset.biUnion span ⊆ Finset.range (2 ^ 30) :=
    Finset.union_subset (span_subset hl hv) (Finset.biUnion_subset.mpr fun c hc =>
      span_subset (bounds c (List.mem_toFinset.mp hc)).1 (bounds c (List.mem_toFinset.mp hc)).2)
  have hcard := Finset.card_le_card hsub
  rw [Finset.card_union_of_disjoint hdis, hU, card_span, Finset.card_range] at hcard
  have := Nat.two_pow_pos (30 - x.len)
  omega

theorem appendBit_half (x : BitString) (b : Bool) : (appendBit x b).val / 2 = x.val := by
  cases b
  · simp [appendBit]
  · simp only [appendBit, Bool.toNat_true]; omega

/-- One more bit after a node gives a node or a code (R24(b), (d)). -/
theorem appendBit_isNode_or_mem (h : TableOk codes) {x : BitString} (hx : isNode codes x = true) (b : Bool) :
    isNode codes (appendBit x b) = true ∨ appendBit x b ∈ codes := by
  have hl := len_of_isNode h hx
  have hv := val_of_isNode h hx
  have hbv : (appendBit x b).val < 2 ^ (appendBit x b).len := by
    have : b.toNat ≤ 1 := Bool.toNat_le b
    simp only [appendBit, Nat.pow_succ]; omega
  rcases node_or_code h (x := appendBit x b) (by simp only [appendBit]; omega) hbv with hn | ⟨c, hc, hlen, hpre⟩
  · exact .inl hn
  · refine .inr ?_
    rcases Nat.lt_or_ge c.len (appendBit x b).len with hlt | hge
    · exfalso
      have hle : c.len ≤ x.len := by simp only [appendBit] at hlt; omega
      obtain ⟨c', hc', hlt', hv'⟩ := isNode_iff.mp hx
      have hxc : prefixValue c' c.len = c.val := by
        rw [← prefixValue_div c' hle hlt'.le, hv', ← hpre, ← appendBit_half x b, prefixValue_eq,
          Nat.div_div_eq_div_mul, ← Nat.pow_succ']
        congr 2; simp only [appendBit]; omega
      have := eq_of_beginsWith h hc' hc ⟨by omega, hxc⟩
      subst this
      omega
    · have : c = appendBit x b := by
        have hle : c.len = (appendBit x b).len := by omega
        rw [hle, prefixValue_self] at hpre
        cases c; simp only [appendBit] at *; simp_all
      exact this ▸ hc

theorem appendBit_inj {x y : BitString} {b c : Bool} (e : appendBit x b = appendBit y c) : x = y ∧ b = c := by
  cases x; cases y
  simp only [appendBit, BitString.mk.injEq] at e ⊢
  cases b <;> cases c <;> simp at * <;> omega

/-- A string other than the root is its parent and one bit more. -/
theorem exists_appendBit {x : BitString} (hx : 1 ≤ x.len) :
    ∃ b, x = appendBit ⟨x.len - 1, x.val / 2⟩ b := by
  refine ⟨decide (x.val % 2 = 1), ?_⟩
  obtain ⟨x_len, x_val⟩ := x
  simp only [appendBit, BitString.mk.injEq] at *
  refine ⟨by omega, ?_⟩
  rcases Nat.mod_two_eq_zero_or_one x_val with h | h <;> simp [h] <;> omega

/-- R11, R51: a table that meets R24 has exactly 256 nodes. -/
theorem length_nodeList (h : TableOk codes) : (nodeList codes).length = 256 := by
  have mem : ∀ x, x ∈ (nodeList codes).toFinset ↔ isNode codes x = true := fun x => by
    rw [List.mem_toFinset, mem_nodeList fun c hc => (h.lengths c hc).2.1]
  set N := (nodeList codes).toFinset with hN
  have hcardN : N.card = (nodeList codes).length := List.toFinset_card_of_nodup (nodeList_nodup codes)
  have hcardC : codes.toFinset.card = 257 := by rw [List.toFinset_card_of_nodup (codes_nodup h), h.size]
  -- the children of nodes are the other nodes and the codes
  have key : N.image (appendBit · false) ∪ N.image (appendBit · true) = N.erase rootNode ∪ codes.toFinset := by
    ext x
    simp only [Finset.mem_union, Finset.mem_image, Finset.mem_erase, List.mem_toFinset, mem]
    constructor
    · have child : ∀ y b, isNode codes y = true →
          (appendBit y b ≠ rootNode ∧ isNode codes (appendBit y b) = true) ∨ appendBit y b ∈ codes := by
        intro y b hy
        rcases appendBit_isNode_or_mem h hy b with hn | hc
        · exact .inl ⟨by simp [appendBit, rootNode], hn⟩
        · exact .inr hc
      rintro (⟨y, hy, rfl⟩ | ⟨y, hy, rfl⟩) <;> exact child y _ hy
    · have parent : ∀ c ∈ codes, x.len ≤ c.len → prefixValue c x.len = x.val → 1 ≤ x.len →
          (∃ y, isNode codes y = true ∧ appendBit y false = x) ∨ ∃ y, isNode codes y = true ∧ appendBit y true = x := by
        intro c hc hle hv h1
        obtain ⟨b, hb⟩ := exists_appendBit h1
        have hp : isNode codes ⟨x.len - 1, x.val / 2⟩ = true := by
          refine isNode_iff.mpr ⟨c, hc, by simp only; omega, ?_⟩
          have := prefixValue_div c (d := x.len - 1) (e := x.len) (by omega) hle
          rw [← this, hv]
          congr 1
          rw [show x.len - (x.len - 1) = 1 by omega, Nat.pow_one]
        cases b
        · exact .inl ⟨_, hp, hb.symm⟩
        · exact .inr ⟨_, hp, hb.symm⟩
      rintro (⟨hne, hn⟩ | hc)
      · obtain ⟨c, hc, hlt, hv⟩ := isNode_iff.mp hn
        refine parent c hc hlt.le hv ?_
        by_contra h0
        have hl0 : x.len = 0 := by omega
        have := val_of_isNode h hn
        rw [hl0] at this
        apply hne
        cases x; simp only [rootNode, BitString.mk.injEq] at *; omega
      · exact parent x hc (Nat.le_refl _) (prefixValue_self x) (by
          have := (h.lengths x hc).1; simp only [minCodeLen] at this; omega)
  have d1 : Disjoint (N.image (appendBit · false)) (N.image (appendBit · true)) := by
    rw [Finset.disjoint_left]
    intro x hx hx'
    obtain ⟨y, -, rfl⟩ := Finset.mem_image.mp hx
    obtain ⟨z, -, e⟩ := Finset.mem_image.mp hx'
    exact absurd (appendBit_inj e).2 (by decide)
  have d2 : Disjoint (N.erase rootNode) codes.toFinset := by
    rw [Finset.disjoint_left]
    intro x hx hc
    exact not_isNode_of_mem h (List.mem_toFinset.mp hc) ((mem x).mp (Finset.mem_of_mem_erase hx))
  have inj : ∀ b, (N.image (appendBit · b)).card = N.card := fun b =>
    Finset.card_image_of_injective _ fun x y e => (appendBit_inj e).1
  have hroot : rootNode ∈ N := (mem _).mpr (isNode_root h)
  have := congrArg Finset.card key
  rw [Finset.card_union_of_disjoint d1, Finset.card_union_of_disjoint d2, inj, inj, hcardC,
    Finset.card_erase_of_mem hroot] at this
  have hpos : 0 < N.card := Finset.card_pos.mpr ⟨_, hroot⟩
  omega

/-- Every index names a node (R50). -/
theorem isNode_nodeAt (h : TableOk codes) (i : BitVec 8) : isNode codes (nodeAt codes i) = true := by
  have hi : i.toNat < (nodeList codes).length := by rw [length_nodeList h]; exact i.isLt
  rw [← mem_nodeList fun c hc => (h.lengths c hc).2.1, nodeAt, List.getD_eq_getElem _ _ hi]
  exact List.getElem_mem hi

/-- A node is what its index names (R51). -/
theorem nodeAt_nodeIndex (h : TableOk codes) {x : BitString} (hx : isNode codes x = true) :
    nodeAt codes (nodeIndex codes x) = x := by
  have hm := (mem_nodeList fun c hc => (h.lengths c hc).2.1).mpr hx
  have hlt : (nodeList codes).findIdx (fun y => y == x) < (nodeList codes).length :=
    List.findIdx_lt_length_of_exists ⟨x, hm, by simp⟩
  have hval : (nodeIndex codes x).toNat = (nodeList codes).findIdx (fun y => y == x) := by
    rw [length_nodeList h] at hlt
    rw [nodeIndex, BitVec.toNat_ofNat, Nat.mod_eq_of_lt (by omega)]
  rw [nodeAt, hval, List.getD_eq_getElem _ _ hlt]
  simpa using List.findIdx_getElem (w := hlt)

/-- A symbol's code is that symbol's only (R24(b)). -/
theorem symbolOf_codeOf (h : TableOk codes) {s : Nat} (hs : s < 257) : symbolOf codes (codeOf codes s) = some s := by
  have hl : s < codes.length := by rw [h.size]; exact hs
  rw [symbolOf, List.findIdx?_eq_some_iff_getElem]
  refine ⟨hl, by rw [codeOf, List.getD_eq_getElem _ _ hl]; simp, fun j hj => ?_⟩
  rw [codeOf, List.getD_eq_getElem _ _ hl]
  intro e
  have e' := beq_iff_eq.mp e
  have := (codes_nodup h).getElem_inj_iff.mp e'
  omega

theorem symbolOf_none {x : BitString} (hx : x ∉ codes) : symbolOf codes x = none := by
  rw [symbolOf, List.findIdx?_eq_none_iff]
  intro c hc
  simp only [beq_eq_false_iff_ne]
  rintro rfl
  exact hx hc

/-! ## This hardware's table -/

/-- R24: the table of this hardware meets its constraints. -/
theorem tableOk_codeTable : TableOk codeTable where
  size := by decide +kernel
  lengths := by
    have all : codeTable.all (fun c =>
        Nat.ble minCodeLen c.len && Nat.ble c.len maxCodeLen && Nat.blt c.val (2 ^ c.len)) = true := by decide +kernel
    intro c hc
    have := List.all_eq_true.mp all c hc
    simpa [and_assoc] using this
  prefixFree := by unfold beginsWith; decide +kernel
  complete := by decide +kernel
  eosLong := by decide +kernel
  eosOnes := by decide +kernel

end Sys2Proof.Machine
end

