-- ==== Sys2Proof/Laws/Decoder.lean ====
section
/-! SUPPORT. What one step of the decoder can do (R175, R176), and that nodes stay nodes. -/

namespace Sys2Proof.Machine

theorem decReady_iff (s : State) : decReady s = true ↔ s.decCode = .ok := by simp [decReady]

/-- The four things DEC_NIB can do in a state with no error (R175). -/
theorem nibStep_cases (n : BitVec 4) {s : State} (h : s.decCode = .ok) :
    (transition s.codes (nodeAt s.codes s.decNode) n = .invalid ∧ nibStep n s = { s with decCode := .invalidCode }) ∨
    (∃ y, transition s.codes (nodeAt s.codes s.decNode) n = .goes y none ∧ nibStep n s = { s with decNode := nodeIndex s.codes y }) ∨
    (∃ y b, transition s.codes (nodeAt s.codes s.decNode) n = .goes y (some b) ∧ s.decCap ≤ s.decCount ∧
      nibStep n s = { s with decCode := .overflow }) ∨
    (∃ y b, transition s.codes (nodeAt s.codes s.decNode) n = .goes y (some b) ∧ s.decCount < s.decCap ∧
      nibStep n s = { s with mem := writeCell s.mem (s.decDst + s.decCount).toNat b, decCount := s.decCount + 1#64,
                             decNode := nodeIndex s.codes y }) := by
  unfold nibStep
  rw [if_pos ((decReady_iff s).mpr h)]
  cases ht : transition s.codes (nodeAt s.codes s.decNode) n with
  | invalid => exact .inl ⟨rfl, rfl⟩
  | goes y sym =>
    cases sym with
    | none => exact .inr (.inl ⟨y, rfl, rfl⟩)
    | some b =>
      by_cases hc : s.decCap ≤ s.decCount
      · refine .inr (.inr (.inl ⟨y, b, rfl, hc, ?_⟩))
        simp only [decOut_eq, if_pos hc]; rfl
      · refine .inr (.inr (.inr ⟨y, b, rfl, BitVec.not_le.mp hc, ?_⟩))
        simp only [decOut_eq, if_neg hc]

theorem nibStep_error (n : BitVec 4) {s : State} (h : s.decCode ≠ .ok) : nibStep n s = s := by
  unfold nibStep
  rw [if_neg (fun e => h ((decReady_iff s).mp e))]

/-- DEC_NIB changes only the decoder's node, status and count, and host memory. -/
theorem nibStep_frame (n : BitVec 4) (s : State) :
    nibStep n s = { s with decNode := (nibStep n s).decNode, decCode := (nibStep n s).decCode,
                           decCount := (nibStep n s).decCount, mem := (nibStep n s).mem } := by
  by_cases h : s.decCode = .ok
  · rcases nibStep_cases n h with ⟨-, e⟩ | ⟨y, -, e⟩ | ⟨y, b, -, -, e⟩ | ⟨y, b, -, -, e⟩ <;> rw [e]
  · rw [nibStep_error n h]

theorem byteStep_error (b : Byte) {s : State} (h : s.decCode ≠ .ok) : byteStep b s = s := by
  unfold byteStep
  simp only [nibStep_error _ h]
  rw [if_neg (fun e => h ((decReady_iff s).mp e))]

/-- DEC_BYTE changes only the decoder's node, status and counts, and host memory. -/
theorem byteStep_frame (b : Byte) (s : State) :
    byteStep b s = { s with decNode := (byteStep b s).decNode, decCode := (byteStep b s).decCode,
                            decCount := (byteStep b s).decCount, decConsumed := (byteStep b s).decConsumed,
                            mem := (byteStep b s).mem } := by
  unfold byteStep
  simp only
  have h1 := nibStep_frame (b.extractLsb' 4 4) s
  have h2 := nibStep_frame (b.extractLsb' 0 4) (nibStep (b.extractLsb' 4 4) s)
  split
  · split
    · rw [h2, h1]
    · rw [h2, h1]
  · rw [h1]

/-- The loop of DEC_RUN changes only the decoder's node, status and counts, and host memory. -/
theorem decLoop_frame (n : Nat) (i : Word) (s : State) :
    decLoop n i s = { s with decNode := (decLoop n i s).decNode, decCode := (decLoop n i s).decCode,
                             decCount := (decLoop n i s).decCount, decConsumed := (decLoop n i s).decConsumed,
                             mem := (decLoop n i s).mem } := by
  induction n generalizing i s with
  | zero => rfl
  | succ n ih =>
    have hb := byteStep_frame (hostRead s (s.decSrc + i)) s
    simp only [decLoop]
    split
    · rw [ih, hb]
    · rw [hb]

/-- The node T answers is a node (R170). -/
theorem isNode_of_transition {codes : CodeTable} (hc : TableOk codes) {i : BitVec 8} {n : BitVec 4} {y : BitString}
    {sym : Option Byte} (h : transition codes (nodeAt codes i) n = .goes y sym) : isNode codes y = true := by
  have feed : ∀ (bits : List Bool) (x : BitString) (c : Option Byte), isNode codes x = true →
      feedBits codes bits x c = .goes y sym → isNode codes y = true := by
    intro bits
    induction bits with
    | nil =>
      intro x c hx h
      cases h
      exact hx
    | cons b rest ih =>
      intro x c hx h
      rw [feedBits] at h
      split at h
      · split at h
        · cases h
        · split at h
          · cases h
          · exact ih _ _ (isNode_root hc) h
      · split at h
        · exact ih _ _ ‹_› h
        · cases h
  exact feed _ _ _ (isNode_nodeAt hc i) h

end Sys2Proof.Machine
end

