-- ==== Sys2Proof/Laws/Encoder.lean ====
section
/-! SUPPORT. The encoder's shared operations: pushing a code, draining whole bytes into the sink, and
what each leaves unchanged. -/

namespace Sys2Proof.Machine

/-- One run of bytes into the sink after another. -/
theorem sinkTook_trans {s t u : State} {xs ys : List Byte} (h1 : sinkTook s t xs) (h2 : sinkTook t u ys)
    (hm : t.sinkMode = s.sinkMode) (hd : t.encDst = s.encDst)
    (hc : t.encCount = s.encCount + BitVec.ofNat 64 xs.length) : sinkTook s u (xs ++ ys) := by
  cases hs : s.sinkMode with
  | fixed =>
    rw [hs] at hm
    simp only [sinkTook, hs, hm] at h1 h2 ⊢
    obtain ⟨m1, s1, f1, c1⟩ := h1
    obtain ⟨m2, s2, f2, c2⟩ := h2
    refine ⟨?_, s2.trans s1, f2.trans f1, c2.trans c1⟩
    rw [m2, m1, hd, hc, writeBytes_append, BitVec.add_assoc]
  | chain =>
    rw [hs] at hm
    simp only [sinkTook, hs, hm] at h1 h2 ⊢
    exact ⟨by rw [h2.1, h1.1, List.append_assoc], h2.2.1, h2.2.2.trans h1.2.2⟩

/-- Nothing taken. -/
theorem sinkTook_nil {s t : State} (hc : chainOk t) (hm : t.mem = s.mem) (hs : t.store = s.store)
    (hf : t.chainFill = s.chainFill) (hcur : t.chainCur = s.chainCur) (hsz : t.chunkSize = s.chunkSize) :
    sinkTook s t [] := by
  cases h : s.sinkMode with
  | fixed => simp only [sinkTook, h]; exact ⟨by simp [hm, writeBytes], hs, hf, hcur⟩
  | chain =>
    simp only [sinkTook, h]
    have hl : chainLen t = chainLen s := by simp [chainLen, chunkBytes, fillOf, hcur, hf, hsz]
    exact ⟨by rw [List.append_nil]; exact chainStream_congr hl (fun k _ => by rw [hs]), hc, hm⟩

/-- Pushing a code appends its bits to the pending bits (R141); nothing is lost (R146). -/
theorem pushCode_spec {s : State} {c : BitString} (hn : s.encNbits.toNat ≤ 7)
    (ha : s.encAcc.toNat < 2 ^ s.encNbits.toNat) (hl : c.len ≤ 30) (hv : c.val < 2 ^ c.len) :
    (pushCode c s).encNbits.toNat = s.encNbits.toNat + c.len ∧
    (pushCode c s).encAcc.toNat < 2 ^ (pushCode c s).encNbits.toNat ∧
    pendingBits (pushCode c s) = pendingBits s ++ bitsOf c := by
  have hnb : (pushCode c s).encNbits.toNat = s.encNbits.toNat + c.len := by
    simp only [pushCode_encNbits, BitVec.toNat_add, BitVec.toNat_ofNat]
    omega
  have hbound : s.encAcc.toNat * 2 ^ c.len + c.val < 2 ^ (s.encNbits.toNat + c.len) := by
    have h1 : s.encAcc.toNat + 1 ≤ 2 ^ s.encNbits.toNat := ha
    have h2 : (s.encAcc.toNat + 1) * 2 ^ c.len ≤ 2 ^ s.encNbits.toNat * 2 ^ c.len := Nat.mul_le_mul_right _ h1
    rw [Nat.pow_add]
    rw [Nat.add_mul, Nat.one_mul] at h2
    omega
  have hsmall : 2 ^ (s.encNbits.toNat + c.len) ≤ 2 ^ 37 := Nat.pow_le_pow_right (by omega) (by omega)
  have hacc : (pushCode c s).encAcc.toNat = s.encAcc.toNat * 2 ^ c.len + c.val := by
    have e1 : (s.encAcc <<< c.len).toNat = s.encAcc.toNat * 2 ^ c.len := by
      rw [BitVec.toNat_shiftLeft, Nat.shiftLeft_eq, Nat.mod_eq_of_lt]
      omega
    have e2 : (BitVec.ofNat 64 c.val).toNat = c.val := by
      rw [BitVec.toNat_ofNat, Nat.mod_eq_of_lt]
      have : 2 ^ c.len ≤ 2 ^ 30 := Nat.pow_le_pow_right (by omega) hl
      omega
    rw [pushCode_encAcc, BitVec.toNat_or, e1, e2, ← Nat.shiftLeft_eq, Nat.shiftLeft_add_eq_or_of_lt hv]
  refine ⟨hnb, by rw [hacc, hnb]; exact hbound, ?_⟩
  rw [pendingBits, pendingBits, hnb, hacc]
  exact (bitsOf_append s.encNbits.toNat c.len s.encAcc.toNat c.val hv).symm

/-- Removing the oldest byte (R141): the pending bits are that byte's bits, then the bits that remain. -/
theorem dropByte_spec {s : State} (h8 : 8 ≤ s.encNbits.toNat) :
    (dropByte s).encNbits.toNat = s.encNbits.toNat - 8 ∧
    (dropByte s).encAcc.toNat < 2 ^ (dropByte s).encNbits.toNat ∧
    pendingBits s = byteBits (oldestByte s) ++ pendingBits (dropByte s) := by
  have hn := s.encNbits.isLt
  have hnb : (s.encNbits - 8#6).toNat = s.encNbits.toNat - 8 := by
    rw [BitVec.toNat_sub]; simp only [BitVec.toNat_ofNat]; omega
  obtain ⟨n, hnn⟩ : ∃ n, s.encNbits.toNat = 8 + n := ⟨s.encNbits.toNat - 8, by omega⟩
  have hdn : (dropByte s).encNbits.toNat = n := by rw [dropByte_encNbits, hnb]; omega
  have hacc : (dropByte s).encAcc.toNat = s.encAcc.toNat % 2 ^ n := by
    have hpow : 2 ^ n < 2 ^ 64 := Nat.pow_lt_pow_right (by omega) (by omega)
    rw [dropByte_encAcc, hnb, BitVec.toNat_and, BitVec.toNat_ofNat, show s.encNbits.toNat - 8 = n by omega,
      Nat.mod_eq_of_lt (by omega), Nat.and_two_pow_sub_one_eq_mod]
  have hold : byteBits (oldestByte s) = bitsOf ⟨8, s.encAcc.toNat / 2 ^ n⟩ := by
    have : (oldestByte s).toNat = (s.encAcc.toNat / 2 ^ n) % 2 ^ 8 := by
      simp only [oldestByte, BitVec.toNat_setWidth, BitVec.toNat_ushiftRight, Nat.shiftRight_eq_div_pow]
      rw [show s.encNbits.toNat - 8 = n by omega]
    rw [byteBits, this, bitsOf_mod]
  refine ⟨by omega, ?_, ?_⟩
  · rw [hacc, hdn]; exact Nat.mod_lt _ (Nat.two_pow_pos n)
  · rw [hold, pendingBits, pendingBits, hdn, hacc, hnn, bitsOf_split]

/-- What draining whole bytes from `s` does (R141): the sink took `ys`, as many bytes as were whole and it had room for;
the other bits stay pending; Overflow is raised when it refused one. -/
structure Drained (s t : State) (ys : List Byte) : Prop where
  length : ys.length = min (s.encNbits.toNat / 8) (sinkRoom s)
  bits : pendingBits s = ys.flatMap byteBits ++ pendingBits t
  nbits : t.encNbits.toNat = s.encNbits.toNat - 8 * ys.length
  acc : t.encAcc.toNat < 2 ^ t.encNbits.toNat
  ovf : t.encOvf = decide (sinkRoom s < s.encNbits.toNat / 8)
  count : t.encCount = s.encCount + BitVec.ofNat 64 ys.length
  took : sinkTook s t ys
  chain : chainOk t
  store : Memory.wf t.store = true
  room : sinkRoom s = sinkRoom t + ys.length
  frame : t = { s with encAcc := t.encAcc, encNbits := t.encNbits, encCount := t.encCount, encOvf := t.encOvf,
                       mem := t.mem, store := t.store, chainFill := t.chainFill, chainCur := t.chainCur }

theorem drained_nothing {s : State} (hw : Memory.wf s.store = true) (hc : chainOk s)
    (ha : s.encAcc.toNat < 2 ^ s.encNbits.toNat) (ho : s.encOvf = false) (h0 : s.encNbits.toNat / 8 = 0) :
    Drained s s [] where
  length := by simp [h0]
  bits := rfl
  nbits := rfl
  acc := ha
  ovf := by simp [ho, h0]
  count := by simp
  took := sinkTook_nil hc rfl rfl rfl rfl rfl
  chain := hc
  store := hw
  room := rfl
  frame := rfl

theorem drained_overflow {s : State} (hw : Memory.wf s.store = true) (hc : chainOk s)
    (ha : s.encAcc.toNat < 2 ^ s.encNbits.toNat) (h8 : 8 ≤ s.encNbits.toNat) (hr : sinkRoom s = 0) :
    Drained s { s with encOvf := true } [] where
  length := by simp [hr]
  bits := rfl
  nbits := rfl
  acc := ha
  ovf := by
    have : 0 < s.encNbits.toNat / 8 := by omega
    simp [hr, this]
  count := by simp
  took := sinkTook_nil (t := { s with encOvf := true }) hc rfl rfl rfl rfl rfl
  chain := hc
  store := hw
  room := rfl
  frame := rfl

theorem drained_step {s t u : State} {v : Byte} {ys : List Byte} (hv : v = oldestByte s) (h8 : 8 ≤ s.encNbits.toNat)
    (hs : sinkAppend v s = some t) (htook : sinkTook s t [v])
    (hroom : sinkRoom s = sinkRoom t + 1) (hcnt : t.encCount = s.encCount + 1#64)
    (hd : Drained (dropByte t) u ys) : Drained s u (v :: ys) := by
  have hf := sinkAppend_frame hs
  have tn : t.encNbits = s.encNbits := by rw [hf]
  have tacc : t.encAcc = s.encAcc := by rw [hf]
  have hr : sinkRoom (dropByte t) = sinkRoom t := rfl
  obtain ⟨dn, -, db⟩ := dropByte_spec (s := t) (by rw [tn]; exact h8)
  have dn' : (dropByte t).encNbits.toNat = s.encNbits.toNat - 8 := by rw [dn, tn]
  have hlen := hd.length
  have hnb := hd.nbits
  have hov := hd.ovf
  have hrm := hd.room
  rw [dn', hr] at hlen hov
  rw [dn'] at hnb
  rw [hr] at hrm
  refine ⟨?_, ?_, ?_, hd.acc, ?_, ?_, ?_, hd.chain, hd.store, ?_, ?_⟩
  · rw [List.length_cons]; omega
  · have hold : v = oldestByte t := by rw [hv]; simp only [oldestByte, tn, tacc]
    have hpend : pendingBits s = pendingBits t := by simp only [pendingBits, tn, tacc]
    rw [List.flatMap_cons, List.append_assoc, ← hd.bits, hold, ← db, hpend]
  · rw [List.length_cons]; omega
  · rw [hov]; exact decide_eq_decide.mpr (by omega)
  · rw [hd.count, dropByte_encCount, hcnt, BitVec.add_assoc, ← BitVec.ofNat_add, List.length_cons, Nat.add_comm 1]
  · exact sinkTook_trans (xs := [v]) htook hd.took (by rw [hf]) (by rw [hf]) (by simpa using hcnt)
  · rw [List.length_cons]; omega
  · rw [hd.frame, hf]; rfl

/-- Draining whole bytes (R141), with enough rounds. -/
theorem drainBytes_spec (fuel : Nat) {s : State} (hp : paramsOk s) (hw : Memory.wf s.store = true) (hc : chainOk s)
    (ha : s.encAcc.toNat < 2 ^ s.encNbits.toNat) (ho : s.encOvf = false) (hfuel : s.encNbits.toNat / 8 ≤ fuel) :
    ∃ ys, Drained s (drainBytes fuel s) ys := by
  induction fuel generalizing s with
  | zero => exact ⟨[], drained_nothing hw hc ha ho (by omega)⟩
  | succ fuel ih =>
    by_cases h8 : 8 ≤ s.encNbits.toNat
    · rcases sinkAppend_spec hp hw hc (oldestByte s) with ⟨hn, hr⟩ | ⟨t, hs, htook, hroom, hct, hwt, hcnt⟩
      · simp only [drainBytes, if_pos h8, hn]
        exact ⟨[], drained_overflow hw hc ha h8 hr⟩
      · simp only [drainBytes, if_pos h8, hs]
        have hf := sinkAppend_frame hs
        have tn : t.encNbits = s.encNbits := by rw [hf]
        have tacc : t.encAcc = s.encAcc := by rw [hf]
        obtain ⟨dn, da, -⟩ := dropByte_spec (s := t) (by rw [tn]; exact h8)
        have hpd : paramsOk (dropByte t) := by
          have h1 : (dropByte t).chunkSize = s.chunkSize := by rw [dropByte_chunkSize, hf]
          have h2 : (dropByte t).maxChunks = s.maxChunks := by rw [dropByte_maxChunks, hf]
          simpa only [paramsOk, h1, h2] using hp
        obtain ⟨ys, hd⟩ := ih hpd hwt hct da (by rw [dropByte_encOvf, hf]; exact ho) (by rw [dn, tn]; omega)
        exact ⟨_, drained_step rfl h8 hs htook hroom hcnt hd⟩
    · simp only [drainBytes, if_neg h8]
      exact ⟨[], drained_nothing hw hc ha ho (by omega)⟩

/-- Draining changes only the accumulator, OVF, the count, and the sink. -/
theorem drainBytes_frame (fuel : Nat) (s : State) :
    drainBytes fuel s = { s with
      encAcc := (drainBytes fuel s).encAcc, encNbits := (drainBytes fuel s).encNbits,
      encOvf := (drainBytes fuel s).encOvf, encCount := (drainBytes fuel s).encCount,
      mem := (drainBytes fuel s).mem, store := (drainBytes fuel s).store,
      chainFill := (drainBytes fuel s).chainFill, chainCur := (drainBytes fuel s).chainCur } := by
  induction fuel generalizing s with
  | zero => rfl
  | succ fuel ih =>
    rw [drainBytes]
    split
    · split
      · rfl
      · rename_i t ht
        rw [ih, dropByte, sinkAppend_frame ht]
    · rfl

theorem symStep_error (b : Byte) {s : State} (h : s.encOvf = true) : symStep b s = s := by
  rw [symStep, if_pos h]

/-- ENC_SYM changes only the accumulator, OVF, the count, and the sink. -/
theorem symStep_frame (b : Byte) (s : State) :
    symStep b s = { s with
      encAcc := (symStep b s).encAcc, encNbits := (symStep b s).encNbits, encOvf := (symStep b s).encOvf,
      encCount := (symStep b s).encCount, mem := (symStep b s).mem, store := (symStep b s).store,
      chainFill := (symStep b s).chainFill, chainCur := (symStep b s).chainCur } := by
  rw [symStep]
  split
  · rfl
  · rw [drainBytes_frame, pushCode]

theorem flushStep_error {s : State} (h : s.encOvf = true) : flushStep s = s := by
  rw [flushStep, if_pos h]

/-- ENC_FLUSH changes only the accumulator, OVF, the count, and the sink. -/
theorem flushStep_frame (s : State) :
    flushStep s = { s with
      encAcc := (flushStep s).encAcc, encNbits := (flushStep s).encNbits, encOvf := (flushStep s).encOvf,
      encCount := (flushStep s).encCount, mem := (flushStep s).mem, store := (flushStep s).store,
      chainFill := (flushStep s).chainFill, chainCur := (flushStep s).chainCur } := by
  rw [flushStep]
  split
  · rfl
  · split
    · rfl
    · split
      · rfl
      · rename_i t ht
        rw [sinkAppend_frame ht]

/-- The loop of ENC_RUN changes only the accumulator, OVF, the count, and the sink. -/
theorem encLoop_frame (n : Nat) (i : Word) (s : State) :
    encLoop n i s = { s with
      encAcc := (encLoop n i s).encAcc, encNbits := (encLoop n i s).encNbits, encOvf := (encLoop n i s).encOvf,
      encCount := (encLoop n i s).encCount, mem := (encLoop n i s).mem, store := (encLoop n i s).store,
      chainFill := (encLoop n i s).chainFill, chainCur := (encLoop n i s).chainCur } := by
  induction n generalizing i s with
  | zero => rfl
  | succ n ih =>
    have hb := symStep_frame (hostRead s (s.encSrc + i)) s
    simp only [encLoop]
    split
    · rw [hb]
    · rw [ih, hb]

end Sys2Proof.Machine
end

