-- ==== Sys2Proof/Laws/PerInstr.lean ====
section
/-! SUPPORT. What holds of every instruction as syntax, one lemma a constructor. -/

namespace Sys2Proof.Laws

/-- R90: a command word has 32 bits, so the value written to CMD has bits [63:32] at 0. -/
def EncodeWidth.Statement (i : Instr) : Prop := ∀ w, encode i = some w → w.extractLsb' 32 32 = 0#32

theorem extract_commandWord_high (opc : BitVec 8) (imm : BitVec 24) :
    (commandWord opc imm).extractLsb' 32 32 = 0#32 := by
  have h : (opc ++ imm).toNat < 2 ^ 32 := (opc ++ imm).isLt
  apply BitVec.eq_of_toNat_eq
  rw [commandWord, BitVec.extractLsb'_toNat, BitVec.toNat_setWidth, BitVec.toNat_append]
  simp only [BitVec.toNat_ofNat, Nat.zero_mod, Nat.zero_shiftLeft, Nat.zero_or, Nat.shiftRight_eq_div_pow]
  omega

theorem encodeWidth_of {i : Instr} {opc : BitVec 8} {imm : BitVec 24}
    (h : encode i = some (commandWord opc imm)) : EncodeWidth.Statement i := by
  intro w hw
  obtain rfl := Option.some.inj (h.symm.trans hw)
  exact extract_commandWord_high opc imm

theorem EncodeWidth.nop : EncodeWidth.Statement .nop := encodeWidth_of rfl

theorem EncodeWidth.clrErr : EncodeWidth.Statement .clrErr := encodeWidth_of rfl

theorem EncodeWidth.softReset : EncodeWidth.Statement .softReset := encodeWidth_of rfl

theorem EncodeWidth.encInit : EncodeWidth.Statement .encInit := encodeWidth_of rfl

theorem EncodeWidth.encSym (b : Byte) : EncodeWidth.Statement (.encSym b) := encodeWidth_of rfl

theorem EncodeWidth.encFlush : EncodeWidth.Statement .encFlush := encodeWidth_of rfl

theorem EncodeWidth.encRun : EncodeWidth.Statement .encRun := encodeWidth_of rfl

theorem EncodeWidth.decInit : EncodeWidth.Statement .decInit := encodeWidth_of rfl

theorem EncodeWidth.decNib (n : BitVec 4) : EncodeWidth.Statement (.decNib n) := encodeWidth_of rfl

theorem EncodeWidth.decByte (b : Byte) : EncodeWidth.Statement (.decByte b) := encodeWidth_of rfl

theorem EncodeWidth.decEnd : EncodeWidth.Statement .decEnd := encodeWidth_of rfl

theorem EncodeWidth.decRun (m : DecMode) : EncodeWidth.Statement (.decRun m) := encodeWidth_of rfl

theorem EncodeWidth.sinkReset (k : BitVec 24) : EncodeWidth.Statement (.sinkReset k) := encodeWidth_of rfl

theorem EncodeWidth.rd (width : Nat) (off : BitVec 12) : EncodeWidth.Statement (.rd width off) := by
  intro w hw; cases hw

theorem EncodeWidth.wr (width : Nat) (off : BitVec 12) (v : Word) : EncodeWidth.Statement (.wr width off v) := by
  intro w hw; cases hw

end Sys2Proof.Laws
end

