-- ==== Sys2Proof/Tests/Slice0.lean ====
section
/-! SUPPORT. Smoke tests of the checks, words written out from 30_encoding.md, vectors of 95_test_vectors.md (their
numbers stand in the docstrings), and a witness for the hypotheses of every statement that has some. -/

namespace Sys2Proof.Tests

open Sys2Proof Sys2Proof.Machine

set_option maxRecDepth 100000
set_option Elab.async false

/-! ## Small states -/

/-- The reset state of a block built with CHUNK_SIZE = 4 and MAX_CHUNKS = 2 (95_test_vectors.md, introduction) and
placed at address 0xF000. -/
def blank : State := { State.reset with chunkSize := 4#32, maxChunks := 2#16, blockPage := 0xF#52 }

/-- The state after an instruction (the state itself where it is refused). -/
def after (i : Instr) (s : State) : State :=
  match exec i s with
  | .next t => t
  | .fault _ => s
  | .refused _ => s

/-- An encoder set up with `bytes` at 0x1000 and a buffer of `cap` bytes at 0x2000. -/
def encoding (bytes : List Byte) (cap : Word) : State :=
  { blank with
    mem := writeBytes [] 0x1000#64 bytes
    encSrc := 0x1000#64, encLen := BitVec.ofNat 64 bytes.length, encDst := 0x2000#64, encCap := cap }

/-- A decoder set up with `bytes` at 0x1000 and a buffer of `cap` bytes at 0x3000. -/
def decoding (bytes : List Byte) (cap : Word) : State :=
  { blank with
    mem := writeBytes [] 0x1000#64 bytes
    decSrc := 0x1000#64, decLen := BitVec.ofNat 64 bytes.length, decDst := 0x3000#64, decCap := cap }

/-- What memory holds in the `n` bytes at `a`. -/
def bytesAt (s : State) (a : Nat) (n : Nat) : List Byte := (List.range n).map (fun k => readCell s.mem (a + k))

/-- Seven pending bits, after `ENC_SYM ':'` (E7), with room for four bytes. -/
def midEncode : State := { blank with encDst := 0x2000#64, encCap := 4#64, encAcc := 0x5c#64, encNbits := 7#6 }

/-- After an Overflow of ENC_SYM (E10). -/
def spilled : State := { blank with encAcc := 0xf8#64, encNbits := 8#6, encOvf := true }

/-- Five pending bits and no room (E12). -/
def noRoom : State := { blank with encAcc := 0x0#64, encNbits := 5#6 }

/-- A chain that holds 64 02 64 02 64 02 (S3), with five bits pending. -/
def midChain : State :=
  { blank with
    sinkMode := .chain, chainFill := [4, 2], chainCur := some 1
    store := [(0, 0x64#8), (1, 0x02#8), (2, 0x64#8), (3, 0x02#8), (4, 0x64#8), (5, 0x02#8)]
    encNbits := 5#6 }

/-- A chain at its ceiling (S4), with five bits pending. -/
def fullChain : State := { midChain with chainFill := [4, 4], store := midChain.store ++ [(6, 0x64#8), (7, 0x02#8)] }

/-! ## The form checks refuse ill-formed terms -/

theorem test_wf_refuses_a_narrow_read : (Instr.rd 32 0x000#12).wf = false := by decide

theorem test_wf_refuses_a_misaligned_read : (Instr.rd 64 0x004#12).wf = false := by decide

theorem test_wf_refuses_a_narrow_write : (Instr.wr 8 0x010#12 0#64).wf = false := by decide

theorem test_wf_refuses_a_misaligned_write : (Instr.wr 64 0x081#12 0#64).wf = false := by decide

theorem test_wf_accepts_the_last_offset : (Instr.rd 64 0xFF8#12).wf = true := by decide

/-! ## Words written out from R90-R93, OPC then IMM -/

theorem test_decode_nop : decode 0b00000000_000000000000000000000000#64 = .ok .nop := by decide

theorem test_decode_clr_err : decode 0b00000001_000000000000000000000000#64 = .ok .clrErr := by decide

theorem test_decode_soft_reset : decode 0b00000010_000000000000000000000000#64 = .ok .softReset := by decide

theorem test_decode_enc_init : decode 0b00010000_000000000000000000000000#64 = .ok .encInit := by decide

theorem test_decode_enc_sym :
    decode 0b00010001_000000000000000001100001#64 = .ok (.encSym 0x61#8) := by decide

theorem test_decode_enc_flush : decode 0b00010010_000000000000000000000000#64 = .ok .encFlush := by decide

theorem test_decode_enc_run : decode 0b00010011_000000000000000000000000#64 = .ok .encRun := by decide

theorem test_decode_dec_init : decode 0b00100000_000000000000000000000000#64 = .ok .decInit := by decide

theorem test_decode_dec_nib :
    decode 0b00100001_000000000000000000001001#64 = .ok (.decNib 9#4) := by decide

theorem test_decode_dec_byte :
    decode 0b00100010_000000000000000010000111#64 = .ok (.decByte 0x87#8) := by decide

theorem test_decode_dec_end : decode 0b00100011_000000000000000000000000#64 = .ok .decEnd := by decide

theorem test_decode_dec_run_resumable :
    decode 0b00100100_000000000000000000000000#64 = .ok (.decRun .resumable) := by decide

theorem test_decode_dec_run_final :
    decode 0b00100100_000000000000000000000001#64 = .ok (.decRun .final) := by decide

theorem test_decode_sink_reset :
    decode 0b00110000_100000000000000000000001#64 = .ok (.sinkReset 0x800001#24) := by decide

/-- K5, K8-K12: the six kinds of illegal value. -/
theorem test_decode_refuses_by_name :
    decode 0xFF000000#64 = .error .undefinedOpcode ∧ decode 0x03000000#64 = .error .undefinedOpcode ∧
    decode 0x11000161#64 = .error .reservedImmediate ∧ decode 0x21000010#64 = .error .reservedImmediate ∧
    decode 0x24000002#64 = .error .reservedImmediate ∧ decode 0x00000001#64 = .error .reservedImmediate ∧
    decode 0x0000000100000000#64 = .error .highBitsSet := by decide

theorem test_table_word_decodes : decodeTableWord 32 0x22000007 = some (.decByte 0x07#8) := by decide

/-! ## Control and register access -/

/-- K17. -/
theorem test_nop_keeps_all : exec .nop spilled = .next spilled := rfl

/-- K5-K7. -/
theorem test_clr_err_clears :
    let s := after (.wr 64 0x010#12 0x03000000#64) (after (.wr 64 0x010#12 0xFF000000#64) blank)
    (s.ill, s.errCmd) = (true, 0xFF000000#64) ∧ after .clrErr s = blank := by decide +kernel

/-- K18. -/
theorem test_soft_reset_keeps_memory :
    after .softReset { midChain with ill := true, encOvf := true, mem := [(5, 9#8)] }
      = { blank with mem := [(5, 9#8)], store := midChain.store } := by decide +kernel

/-- K2. -/
theorem test_rd_dec_state : (after (.rd 64 0x130#12) blank).readData = 0x100#64 := by decide +kernel

/-- S10, S11's reads on the chain of S3. -/
theorem test_rd_chain_rdata :
    (after (.rd 64 0x050#12) { midChain with chainRaddr := 5#64 }).readData = 0x02#64 ∧
    (after (.rd 64 0x050#12) { midChain with chainRaddr := 6#64 }).readData = 0#64 := by decide +kernel

/-- K14. -/
theorem test_wr_sink_cfg :
    (after (.rd 64 0x028#12) (after (.wr 64 0x028#12 0xFFFFFFFFFFFFFFFF#64) blank)).readData = 1#64 := by decide +kernel

/-- R180's example. -/
theorem test_wr_dec_state :
    after (.wr 64 0x130#12 0x70E#64) { blank with decCode := .truncatedInput, decCount := 3#64 }
      = { blank with decNode := 14#8 } := by decide +kernel

/-! ## Encoder -/

/-- E1. -/
theorem test_enc_init : after .encInit { spilled with encCount := 9#64 } = blank := by decide +kernel

/-- E8: a 30-bit code after 7 pending bits. -/
theorem test_enc_sym_longest :
    let t := after (.encSym 0x0A#8) midEncode
    (t.encAcc, t.encNbits, t.encCount) = (0x1c#64, 5#6, 4#64) ∧
    bytesAt t 0x2000 4 = [0xb9#8, 0xff#8, 0xff#8, 0xff#8] := by decide +kernel

/-- S5's case: a full chain refuses the byte. -/
theorem test_enc_sym_full_chain :
    after (.encSym 0x30#8) fullChain = { fullChain with encNbits := 10#6, encOvf := true } := by decide +kernel

/-- E9. -/
theorem test_enc_flush :
    let t := after .encFlush { midEncode with encAcc := 0x1c#64, encNbits := 5#6 }
    (t.encAcc, t.encNbits, bytesAt t 0x2000 1) = (0#64, 0#6, [0xe7#8]) := by decide +kernel

/-- E12. -/
theorem test_enc_flush_no_room : after .encFlush noRoom = { noRoom with encOvf := true } := by decide +kernel

/-- E17. -/
theorem test_enc_run :
    let t := after .encRun (encoding [0x30#8, 0x61#8] 2#64)
    (t.encResult, bytesAt t 0x2000 3) = (2#64, [0x00#8, 0xff#8, 0x00#8]) := by decide +kernel

/-- E21. -/
theorem test_enc_run_overflow :
    let t := after .encRun (encoding [0x0A#8] 3#64)
    (t.encResult, t.encAcc, t.encNbits, bytesAt t 0x2000 4) =
      (0xFFFFFFFFFFFFFFFF#64, 0x3c#64, 6#6, [0xff#8, 0xff#8, 0xff#8, 0x00#8]) := by decide +kernel

/-! ## Decoder -/

theorem test_dec_init :
    after .decInit { blank with decNode := 9#8, decCode := .overflow, decCount := 2#64 } = blank := by decide +kernel

/-- T2. -/
theorem test_dec_nib_writes :
    let t := after (.decNib 0#4) { decoding [] 1#64 with decNode := 15#8 }
    (t.decNode, t.decCount, bytesAt t 0x3000 1) = (7#8, 1#64, [0x30#8]) := by decide +kernel

/-- T4. -/
theorem test_dec_nib_invalid :
    after (.decNib 0xC#4) { decoding [] 1#64 with decNode := 253#8 }
      = { decoding [] 1#64 with decNode := 253#8, decCode := .invalidCode } := by decide +kernel

/-- T6. -/
theorem test_dec_byte :
    let t := after (.decByte 0x07#8) (decoding [] 1#64)
    (t.decNode, t.decConsumed, bytesAt t 0x3000 1) = (14#8, 1#64, [0x30#8]) := by decide +kernel

/-- T7, T8, T9. -/
theorem test_dec_end :
    (after .decEnd { blank with decNode := 14#8 }).decCode = .ok ∧
    (after .decEnd { blank with decNode := 7#8 }).decCode = .truncatedInput ∧
    (after .decEnd { blank with decNode := 76#8 }).decCode = .truncatedInput := by decide +kernel

/-- D23. -/
theorem test_dec_run_final :
    let t := after (.decRun .final) (decoding [0x00#8, 0xff#8] 2#64)
    (t.decResult, t.decConsumed, t.decNode, bytesAt t 0x3000 2) = (2#64, 2#64, 70#8, [0x30#8, 0x61#8]) := by decide +kernel

/-- D8. -/
theorem test_dec_run_invalid :
    let t := after (.decRun .resumable) (decoding [0xff#8, 0xff#8, 0xff#8, 0xff#8] 10#64)
    (t.decResult, t.decConsumed, t.decNode) = (0xFFFFFFFFFFFFFFFE#64, 3#64, 253#8) := by decide +kernel

/-! ## Sinks -/

/-- R214's example, with CHAIN_COUNT = 2 instead of 3. -/
theorem test_sink_reset_keeps : after (.sinkReset 1#24) midChain = { midChain with chainFill := [0], chainCur := some 0 } := by
  decide +kernel

/-- S6. -/
theorem test_sink_reset_frees : after (.sinkReset 0#24) midChain = { midChain with chainFill := [], chainCur := none } := by
  decide +kernel

/-! ## Steps -/

/-- The command word of `ENC_INIT`, written to CMD by the host, runs as the first step after reset. -/
theorem test_step_runs_a_command :
    step (State.reset.withFetchWord 32 0x10000000) = .next { State.reset with epoch := 1 } := rfl

/-- A bus write at BLOCK_BASE + 0x080 writes ENC_SRC. -/
theorem test_step_selects_the_window :
    step { blank with pending := [.busWrite 64 0xF080#64 7#64 []] } = .next { blank with encSrc := 7#64, epoch := 1 } := rfl

/-! ## Witnesses -/

theorem good_midEncode : Good midEncode :=
  ⟨⟨by decide +kernel, by decide +kernel⟩, ⟨rfl, rfl, rfl, rfl⟩, ⟨by decide +kernel, rfl⟩, ⟨by decide +kernel, by decide +kernel⟩, tableOk_codeTable⟩

theorem good_spilled : Good spilled :=
  ⟨⟨by decide +kernel, by decide +kernel⟩, ⟨rfl, rfl, rfl, rfl⟩, ⟨by decide +kernel, rfl⟩, ⟨by decide +kernel, by decide +kernel⟩, tableOk_codeTable⟩

theorem good_noRoom : Good noRoom :=
  ⟨⟨by decide +kernel, by decide +kernel⟩, ⟨rfl, rfl, rfl, rfl⟩, ⟨by decide +kernel, rfl⟩, ⟨by decide +kernel, by decide +kernel⟩, tableOk_codeTable⟩

theorem chainOk_midChain : chainOk midChain := by
  refine ⟨by decide +kernel, by decide +kernel, by decide +kernel, fun i h => ?_, fun i h k => ?_⟩
  · obtain rfl : i = 0 := by omega
    decide +kernel
  · have : i < 2 := k
    omega

theorem chainOk_fullChain : chainOk fullChain := by
  refine ⟨by decide +kernel, by decide +kernel, by decide +kernel, fun i h => ?_, fun i h k => ?_⟩
  · obtain rfl : i = 0 := by omega
    decide +kernel
  · have : i < 2 := k
    omega

theorem good_midChain : Good midChain :=
  ⟨⟨by decide +kernel, by decide +kernel⟩, ⟨by decide +kernel, by decide +kernel, by decide +kernel, by decide +kernel⟩, chainOk_midChain, ⟨by decide +kernel, by decide +kernel⟩, tableOk_codeTable⟩

theorem good_fullChain : Good fullChain :=
  ⟨⟨by decide +kernel, by decide +kernel⟩, ⟨by decide +kernel, by decide +kernel, by decide +kernel, by decide +kernel⟩, chainOk_fullChain, ⟨by decide +kernel, by decide +kernel⟩, tableOk_codeTable⟩

theorem good_encoding : Good (encoding [0x30#8, 0x61#8] 2#64) :=
  ⟨⟨by decide +kernel, by decide +kernel⟩, ⟨by decide +kernel, by decide +kernel, rfl, rfl⟩, ⟨by decide +kernel, rfl⟩, ⟨by decide +kernel, by decide +kernel⟩, tableOk_codeTable⟩

theorem apart_small (a b : Word) (n m : Nat) (h : a.toNat + n ≤ b.toNat) (k : b.toNat + m < 2 ^ 64) : apart a n b m := by
  intro i j hi hj he
  have := congrArg BitVec.toNat he
  simp only [BitVec.toNat_add, BitVec.toNat_ofNat] at this
  omega

theorem witness_DecodeOfEncodeIsTheCommand : (Instr.sinkReset 0xFFFFFF#24).isCommand = true := rfl

theorem witness_EncodeOfDecodeIsTheWord : decode 0x30FFFFFF#64 = .ok (.sinkReset 0xFFFFFF#24) := by decide +kernel

theorem witness_StepRunsThePendingAccess :
    let s := { blank with pending := [.access (.write 64 0x080#12 5#64) [0x10#64], .reset] }
    s.pending = .access (.write 64 0x080#12 5#64) [0x10#64] :: [.reset] ∧
    ∃ t, exec (accessInstr (.write 64 0x080#12 5#64)) { s with pending := [.reset], raced := [0x10#64] } = .next t :=
  ⟨rfl, _, rfl⟩

theorem witness_StepRunsTheDecodedCommand :
    let s := { blank with pending := [.access (.write 64 0x010#12 0x10000000#64) [0x10#64]] }
    s.pending = .access (.write 64 0x010#12 0x10000000#64) [0x10#64] :: [] ∧
    decode 0x10000000#64 = .ok .encInit ∧
    ∃ t, exec .encInit { s with pending := [], raced := [0x10#64] } = .next t :=
  ⟨rfl, rfl, _, rfl⟩

theorem witness_WithFetchWordRunsTheWord :
    decodeTableWord 32 0x2100000F = some (.decNib 0xF#4) ∧
    ∃ t, exec (.decNib 0xF#4) { blank with raced := [] } = .next t :=
  ⟨by decide +kernel, _, rfl⟩

theorem witness_IdleLosesNoState : blank.pending = [] := rfl

theorem witness_ResetInputResetsTheBlock :
    ({ spilled with pending := [.reset, .store 1#64 2#8] } : State).pending = .reset :: [.store 1#64 2#8] := rfl

theorem witness_StoreEventStoresOneByte :
    let s := { midEncode with pending := [.store 0xFFFFFFFFFFFFFFFF#64 2#8], mem := [(0, 1#8)] }
    s.pending = .store 0xFFFFFFFFFFFFFFFF#64 2#8 :: [] ∧ Memory.wf s.mem = true :=
  ⟨rfl, rfl⟩

theorem witness_RegisterWindowIsAtBlockBase :
    0xEFFF#64 >>> 12 ≠ blockBase blank >>> 12 ∧ 0x10000#64 >>> 12 ≠ blockBase blank >>> 12 := by decide +kernel

theorem witness_RacedBytesAreAnyValue :
    let s := { blank with pending := [.access (.read 64 0x000#12) [0x1000#64]] }
    s.pending = .access (.read 64 0x000#12) [0x1000#64] :: [] ∧ 0x1000#64 ∈ [0x1000#64] ∧ Memory.wf s.mem = true ∧
    ∃ t, step s = .next t :=
  ⟨rfl, by decide +kernel, rfl, _, rfl⟩

theorem witness_StepKeepsTheInvariant :
    let s := { midChain with pending := asProgram (issue (.encSym 0x61#8)) }
    Inv s ∧ ∃ t, step s = .next t :=
  ⟨⟨⟨good_midChain.params, good_midChain.memories, chainOk_midChain, good_midChain.acc, tableOk_codeTable⟩, rfl⟩, _, rfl⟩

theorem witness_ExecKeepsParametersAndHostSide : ∃ t, exec .softReset midChain = .next t := ⟨_, rfl⟩

theorem witness_EveryOffsetReadsItsRegister :
    ∀ off ∈ [0x058#12, 0x078#12, 0x0C8#12, 0x0F8#12, 0x148#12, 0xFF8#12], off.toNat % 8 = 0 ∧
      (0x058 ≤ off.toNat ∧ off.toNat ≤ 0x07F ∨ 0x0C8 ≤ off.toNat ∧ off.toNat ≤ 0x0FF ∨ 0x148 ≤ off.toNat) := by decide +kernel

theorem witness_WritesReachTheirRegisters :
    decode 0x22000007#64 = .ok (.decByte 7#8) ∧ decode 0x22000107#64 = .error .reservedImmediate := by decide +kernel

theorem witness_IllegalCommandIsRecorded :
    ¬ legalWord 0xFF000000#64 ∧ ¬ legalWord 0x100000000#64 ∧ ¬ legalWord 0x1#64 ∧ legalWord 0x30FFFFFF#64 := by
  unfold legalWord
  decide +kernel

theorem witness_OtherAccessesAreRefused : 32 ≠ 64 ∧ (0x011#12).toNat % 8 ≠ 0 := by decide +kernel

theorem witness_EncSymAppendsTheCode :
    (Good spilled ∧ spilled.encOvf = true) ∧ (Good midEncode ∧ midEncode.encOvf = false) ∧
    (Good midChain ∧ midChain.encOvf = false) ∧ (Good fullChain ∧ fullChain.encOvf = false ∧ sinkRoom fullChain = 0) :=
  ⟨⟨good_spilled, rfl⟩, ⟨good_midEncode, rfl⟩, ⟨good_midChain, rfl⟩, good_fullChain, rfl, by decide +kernel⟩

theorem witness_EncFlushPadsAndEmits :
    (Good spilled ∧ spilled.encOvf = true) ∧
    (Good (encoding [0x30#8, 0x61#8] 2#64) ∧ (encoding [0x30#8, 0x61#8] 2#64).encNbits = 0#6) ∧
    (Good noRoom ∧ noRoom.encOvf = false ∧ noRoom.encNbits ≠ 0#6 ∧ sinkRoom noRoom = 0) ∧
    (Good fullChain ∧ fullChain.encOvf = false ∧ fullChain.encNbits ≠ 0#6 ∧ sinkRoom fullChain = 0) ∧
    (Good midEncode ∧ midEncode.encOvf = false ∧ midEncode.encNbits ≠ 0#6 ∧ sinkRoom midEncode ≠ 0) ∧
    (Good midChain ∧ midChain.encOvf = false ∧ midChain.encNbits ≠ 0#6 ∧ sinkRoom midChain ≠ 0) :=
  ⟨⟨good_spilled, rfl⟩, ⟨good_encoding, rfl⟩, ⟨good_noRoom, rfl, by decide +kernel, by decide +kernel⟩,
   ⟨good_fullChain, rfl, by decide +kernel, by decide +kernel⟩, ⟨good_midEncode, rfl, by decide +kernel, by decide +kernel⟩,
   good_midChain, rfl, by decide +kernel, by decide +kernel⟩

theorem witness_EncRunEqualsItsCommands : 1 < (encoding [0x30#8, 0x61#8] 2#64).encLen.toNat := by decide +kernel

theorem witness_EncRunWritesThePackedStream :
    (Good (encoding [0x30#8, 0x61#8] 2#64) ∧ apart 0x1000#64 2 0x2000#64 2) ∧
    (Good midChain ∧ midChain.sinkMode = .chain) ∧
    (Good { blank with sinkMode := .chain } ∧ chainLen { blank with sinkMode := .chain } = 0) :=
  ⟨⟨good_encoding, apart_small _ _ _ _ (by decide +kernel) (by decide +kernel)⟩, ⟨good_midChain, rfl⟩,
   ⟨⟨by decide +kernel, by decide +kernel⟩, ⟨rfl, rfl, rfl, rfl⟩, ⟨by decide +kernel, rfl⟩, ⟨by decide +kernel, by decide +kernel⟩, tableOk_codeTable⟩, rfl⟩

theorem witness_EncRunIsDeterministic :
    let s := encoding [0x30#8, 0x61#8] 2#64
    let u := { encoding [0x30#8, 0x61#8] 2#64 with encDst := 0x2800#64, encAcc := 1#64, ill := true }
    s.codes = u.codes ∧ s.sinkMode = .fixed ∧ u.sinkMode = .fixed ∧ s.encCap = u.encCap ∧ s.encLen = u.encLen ∧
    Memory.wf s.mem = true ∧ Memory.wf u.mem = true ∧
    sourceBytes s s.encSrc s.encLen.toNat = sourceBytes u u.encSrc u.encLen.toNat ∧
    apart s.encSrc s.encLen.toNat s.encDst s.encCap.toNat ∧ apart u.encSrc u.encLen.toNat u.encDst u.encCap.toNat :=
  ⟨rfl, rfl, rfl, rfl, rfl, by decide +kernel, by decide +kernel, rfl, apart_small _ _ _ _ (by decide +kernel) (by decide +kernel),
   apart_small _ _ _ _ (by decide +kernel) (by decide +kernel)⟩

theorem witness_TransitionFollowsTheCodeTree :
    transition codeTable (nodeAt codeTable 253#8) 0xC#4 = .invalid ∧ transition codeTable (nodeAt codeTable 0#8) 0x0#4 = .goes ⟨4, 0⟩ none ∧
    transition codeTable (nodeAt codeTable 31#8) 0xF#4 = .goes ⟨3, 7⟩ (some 0x25#8) := by decide +kernel

theorem witness_DecNibTakesOneTransition :
    spilled.decCode = .ok ∧ transition codeTable (nodeAt codeTable 253#8) 0xC#4 = .invalid ∧
    transition codeTable (nodeAt codeTable 0#8) 0x0#4 = .goes ⟨4, 0⟩ none ∧ transition codeTable (nodeAt codeTable 15#8) 0x0#4 = .goes ⟨3, 0⟩ (some 0x30#8) ∧
    (decoding [] 0#64).decCap ≤ (decoding [] 0#64).decCount ∧ (decoding [] 1#64).decCount < (decoding [] 1#64).decCap ∧
    ({ blank with decCode := .overflow } : State).decCode ≠ .ok := by decide +kernel

theorem witness_DecByteIsTwoNibbles :
    (after (.decNib 0#4) { decoding [] 0#64 with decNode := 15#8 }).decCode = .overflow ∧
    (after (.decNib 0#4) (decoding [] 0#64)).decCode = .ok ∧
    (after (.decNib 7#4) (after (.decNib 0#4) (decoding [] 0#64))).decCode = .overflow := by decide +kernel

theorem witness_DecoderErrorGatesItsCommands :
    let s := { blank with decCode := .truncatedInput }
    s.decCode ≠ .ok ∧ exec .decInit s = .next (after .decInit s) ∧ (after .decInit s).decCode ≠ s.decCode :=
  ⟨by decide +kernel, rfl, by decide +kernel⟩

theorem witness_DecRunEqualsItsCommands :
    (decoding [0x07#8] 1#64).decCode = .ok ∧ 0 < (decoding [0x07#8] 1#64).decLen.toNat ∧
    ({ blank with decCode := .overflow } : State).decCode ≠ .ok := by decide +kernel

/-- D1, D10, D7's first four bytes and D11: each outcome of DEC_RUN is met. -/
theorem witness_DecRunReportsItsResult :
    (after (.decRun .final) (decoding [0x07#8] 10#64)).decCode = .ok ∧
    (after (.decRun .final) (decoding [0x00#8] 10#64)).decCode = .truncatedInput ∧
    (after (.decRun .final) { decoding [0xC0#8] 10#64 with decNode := 253#8 }).decCode = .invalidCode ∧
    (after (.decRun .final) (decoding [0x07#8] 0#64)).decCode = .overflow := by decide +kernel

theorem witness_SplitDecodeAgreesWithWhole :
    let s := decoding [0x00#8, 0xff#8] 2#64
    let u := decoding [0x00#8, 0xff#8] 0#64
    (s.decCode = .ok ∧ 1 ≤ s.decLen.toNat ∧ (after (.decRun .resumable) { s with decLen := 1#64 }).decCode = .ok) ∧
    (u.decCode = .ok ∧ 1 ≤ u.decLen.toNat ∧ (after (.decRun .resumable) { u with decLen := 1#64 }).decCode ≠ .ok) := by
  decide +kernel

theorem witness_ValidStreamDecodesToItsSource :
    let s := decoding [0x00#8, 0xff#8] 2#64
    let xs := [0x30#8, 0x61#8]
    TableOk s.codes ∧ s.decCode = .ok ∧ s.decNode = 0#8 ∧ s.decLen.toNat = (packedStream s.codes xs).length ∧
    sourceBytes s s.decSrc s.decLen.toNat = packedStream s.codes xs ∧ xs.length ≤ s.decCap.toNat ∧
    apart s.decSrc s.decLen.toNat s.decDst xs.length :=
  ⟨tableOk_codeTable, rfl, rfl, by decide +kernel, by decide +kernel, by decide +kernel, apart_small _ _ _ _ (by decide +kernel) (by decide +kernel)⟩

/-- W4. -/
theorem test_packed_stream : packedStream codeTable [0x30#8, 0x61#8] = [0x00#8, 0xff#8] := by decide +kernel

theorem witness_EncodeThenDecodeReturnsTheSource :
    let s := encoding [0x30#8, 0x61#8] 2#64
    let t := after .encRun s
    TableOk s.codes ∧ s.sinkMode = .fixed ∧ s.raced = [] ∧ Memory.wf s.mem = true ∧
    apart s.encSrc s.encLen.toNat s.encDst s.encCap.toNat ∧ exec .encRun s = .next t ∧ t.encOvf = false ∧
    s.encLen.toNat ≤ (2#64).toNat ∧ apart s.encDst t.encCount.toNat 0x3000#64 s.encLen.toNat :=
  ⟨tableOk_codeTable, rfl, rfl, by decide +kernel, apart_small _ _ _ _ (by decide +kernel) (by decide +kernel), rfl, by decide +kernel, by decide +kernel,
   apart_small _ _ _ _ (by decide +kernel) (by decide +kernel)⟩

theorem witness_RefedInvalidNibbleFailsAgain :
    let s := { blank with decNode := 253#8 }
    s.decCode = .ok ∧ exec (.decNib 0xC#4) s = .next (after (.decNib 0xC#4) s) ∧
    (after (.decNib 0xC#4) s).decCode = .invalidCode ∧ (after (.decNib 0xC#4) s).decNode = 253#8 :=
  ⟨rfl, rfl, by decide +kernel⟩

theorem witness_SinkResetKeepsEmptyChunks :
    (after (.sinkReset 0#24) midChain).chainFill.length = 0 ∧ (after (.sinkReset 5#24) midChain).chainFill.length = 2 := by
  decide +kernel

theorem witness_ChainStreamIsTheChunksInOrder :
    (paramsOk midChain ∧ chainOk midChain ∧ midChain.chainCur = some 1) ∧
    (paramsOk blank ∧ chainOk blank ∧ blank.chainCur = none) :=
  ⟨⟨good_midChain.params, chainOk_midChain, rfl⟩, ⟨by decide +kernel, by decide +kernel⟩, ⟨by decide +kernel, rfl⟩, rfl⟩

theorem witness_ChainGrowsByTheChunksItNeeds :
    Good midChain ∧ midChain.sinkMode = .chain ∧ isEncoderCommand (.encSym 0x61#8) = true ∧
    exec (.encSym 0x61#8) midChain = .next (after (.encSym 0x61#8) midChain) ∧
    chainLen midChain < chainLen (after (.encSym 0x61#8) midChain) ∧
    chainLen (after .encInit midChain) = chainLen midChain :=
  ⟨good_midChain, rfl, rfl, rfl, by decide +kernel, rfl⟩

theorem witness_HiddenChunkBytesAreUnobservable :
    let u := { midChain with store := midChain.store ++ [(7, 0x55#8)] }
    Good midChain ∧ Memory.wf u.store = true ∧ sameButHidden midChain u := by
  refine ⟨good_midChain, by decide +kernel, rfl, fun k hk => ?_⟩
  have : k < 6 := hk
  interval_cases k <;> decide

theorem witness_StatusChangesOnlyByItsCommands :
    (spilled.encOvf = true ∧ (after .encInit spilled).encOvf = false) ∧
    (let s := { blank with ill := true }; s.ill = true ∧ (after (.wr 64 0x010#12 0x01000000#64) s).ill = false) ∧
    (let s := { blank with decNode := 7#8 }; s.decCode = .ok ∧ (after .decEnd s).decCode ≠ .ok) ∧
    (noRoom.encOvf = false ∧ (after .encFlush noRoom).encOvf = true) ∧
    (blank.ill = false ∧ (after (.wr 64 0x010#12 0x03000000#64) blank).ill = true) ∧
    (after .encRun (encoding [0x30#8] 1#64)).encResult ≠ (encoding [0x30#8] 1#64).encResult ∧
    (after (.decRun .final) (decoding [0x07#8] 1#64)).decResult ≠ (decoding [0x07#8] 1#64).decResult := by decide +kernel

theorem witness_EnginesAreIndependent :
    isEncoderCommand (performed (.wr 64 0x010#12 0x13000000#64)) = true ∧ isDecoderCommand (performed .decEnd) = true ∧
    (∃ t, exec (.wr 64 0x010#12 0x13000000#64) midEncode = .next t) ∧ ∃ t, exec .decEnd midEncode = .next t :=
  ⟨by decide +kernel, rfl, ⟨_, rfl⟩, _, rfl⟩

theorem witness_HostMemoryWritesStayInTheBuffers :
    (exec (.encSym 0x61#8) midEncode = .next (after (.encSym 0x61#8) midEncode) ∧
      readCell (after (.encSym 0x61#8) midEncode).mem 0x2000 ≠ readCell midEncode.mem 0x2000) ∧
    (exec (.decByte 0x07#8) (decoding [] 1#64) = .next (after (.decByte 0x07#8) (decoding [] 1#64)) ∧
      readCell (after (.decByte 0x07#8) (decoding [] 1#64)).mem 0x3000 ≠ readCell (decoding [] 1#64).mem 0x3000) :=
  ⟨⟨rfl, by decide +kernel⟩, rfl, by decide +kernel⟩

end Sys2Proof.Tests
end

section
/-! PROOFS of the scope family (R12, R19): what each register access can do, what no instruction changes, and the
independence of the two engines. -/

namespace Sys2Proof.Proofs

open Sys2Proof.Machine

/-! ## Commands and the accesses that issue them -/

theorem commandOf_isCommand {opc : BitVec 8} {imm : BitVec 24} {c : Instr} (h : commandOf opc imm = some c) :
    c.isCommand = true := by
  unfold commandOf at h
  split at h <;> cases h <;> rfl

/-- No value written to CMD decodes to a bus operation (R93). -/
theorem decode_isCommand {w : Word} {c : Instr} (h : decode w = .ok c) : c.isCommand = true := by
  unfold decode at h
  split at h
  · split at h
    · cases h
    · split at h
      · split at h
        · cases h
        · rename_i hc
          cases h
          exact commandOf_isCommand hc
      · cases h
  · cases h

/-- Dispatch of a legal word runs its command (R125). -/
theorem dispatch_ok {w : Word} {c : Instr} (h : decode w = .ok c) (s : State) : dispatch w s = exec c s := by
  have hc := decode_isCommand h
  cases c with
  | rd width off => cases hc
  | wr width off v => cases hc
  | _ => simp only [dispatch, h, exec]

/-- Dispatch of an illegal word records it (R125, R243). -/
theorem dispatch_error {w : Word} {e : DecodeError} (h : decode w = .error e) (s : State) :
    dispatch w s = .next (raiseError (.illegalCommand w) s) := by
  simp only [dispatch, h]

/-- A write to CMD is Dispatch (R125). -/
theorem exec_wr_cmd (w : Word) (s : State) : exec (.wr 64 0x010#12 w) s = dispatch w s := rfl

/-- An instruction does what the instruction it performs does (R125). -/
theorem exec_performed (i : Instr) (s : State) : exec (performed i) s = exec i s := by
  unfold performed
  split
  · split
    · rename_i w c hc
      rw [exec_wr_cmd, dispatch_ok hc]
    · rfl
  · rfl

/-- What RD can do (R123). -/
theorem execRd_next {width : Nat} {off : BitVec 12} {s t : State} (h : execRd width off s = .next t) :
    t = returned (offsetValue off s) s := by
  unfold execRd at h
  split at h
  · split at h <;> cases h
    rfl
  · cases h

/-- What WR can do (R124): nothing at a reserved offset, Dispatch at CMD, a register write elsewhere. -/
theorem execWr_next {width : Nat} {off : BitVec 12} {v : Word} {s t : State} (h : execWr width off v s = .next t) :
    (regAt off = none ∧ t = s) ∨ (regAt off = some .cmd ∧ dispatch v s = .next t) ∨
    ∃ r, regAt off = some r ∧ r ≠ .cmd ∧ t = regWrite r v s := by
  unfold execWr at h
  split at h
  · split at h
    · split at h
      · rename_i hr
        cases h
        exact .inl ⟨hr, rfl⟩
      · rename_i r hr
        split at h
        · rename_i hcmd
          exact .inr (.inl ⟨hcmd ▸ hr, h⟩)
        · rename_i hcmd
          cases h
          exact .inr (.inr ⟨r, hr, hcmd, rfl⟩)
    · cases h
  · cases h

theorem isEncoderCommand_iff (c : Instr) :
    isEncoderCommand c = true ↔ c = .encInit ∨ (∃ b, c = .encSym b) ∨ c = .encFlush ∨ c = .encRun := by
  cases c <;> simp [isEncoderCommand]

theorem isDecoderCommand_iff (c : Instr) :
    isDecoderCommand c = true ↔
      c = .decInit ∨ (∃ n, c = .decNib n) ∨ (∃ b, c = .decByte b) ∨ c = .decEnd ∨ ∃ m, c = .decRun m := by
  cases c <;> simp [isDecoderCommand]

/-! ## Frames of the whole commands -/

/-- What ENC_RUN does after its loop (R143): the flush, then the result. -/
def finishEncode (s : State) : State :=
  let t := flushStep s
  { t with encResult := if t.encOvf then overflowResult else t.encCount }

theorem runEncoder_eq (s : State) :
    runEncoder s = finishEncode (encLoop s.encLen.toNat 0#64 (encStart s)) := rfl

theorem finishEncode_frame (s : State) :
    finishEncode s = { s with
      encAcc := (finishEncode s).encAcc, encNbits := (finishEncode s).encNbits, encOvf := (finishEncode s).encOvf,
      encCount := (finishEncode s).encCount, encResult := (finishEncode s).encResult, mem := (finishEncode s).mem,
      store := (finishEncode s).store, chainFill := (finishEncode s).chainFill,
      chainCur := (finishEncode s).chainCur } := by
  rw [finishEncode, flushStep_frame]

/-- ENC_RUN changes only the accumulator, OVF, the count, the result, and the sink. -/
theorem runEncoder_frame (s : State) :
    runEncoder s = { s with
      encAcc := (runEncoder s).encAcc, encNbits := (runEncoder s).encNbits, encOvf := (runEncoder s).encOvf,
      encCount := (runEncoder s).encCount, encResult := (runEncoder s).encResult, mem := (runEncoder s).mem,
      store := (runEncoder s).store, chainFill := (runEncoder s).chainFill, chainCur := (runEncoder s).chainCur } := by
  rw [runEncoder_eq, finishEncode_frame, encLoop_frame, encStart]

/-- DEC_END changes only the decoder's status. -/
theorem endStep_frame (s : State) : endStep s = { s with decCode := (endStep s).decCode } := by
  unfold endStep
  split
  · split <;> rfl
  · rfl

/-- What DEC_RUN starts its loop from (R178). -/
def clearCounts (s : State) : State := { s with decCount := 0#64, decConsumed := 0#64 }

/-- What DEC_RUN does after its loop (R178): the end-of-input check in Final mode, then the result. -/
def finishRun (m : DecMode) (s : State) : State :=
  let u := if m.bit then endStep s else s
  { u with decResult := if decReady u then u.decCount else resultOfCode u.decCode }

theorem runDecoder_eq (m : DecMode) (s : State) :
    runDecoder m s =
      if decReady s then finishRun m (decLoop s.decLen.toNat 0#64 (clearCounts s))
      else { s with decResult := resultOfCode s.decCode } := rfl

theorem finishRun_frame (m : DecMode) (s : State) :
    finishRun m s = { s with decCode := (finishRun m s).decCode, decResult := (finishRun m s).decResult } := by
  cases m with
  | resumable => rfl
  | final => simp only [finishRun, DecMode.bit, if_true]; rw [endStep_frame]

/-- DEC_RUN changes only the decoder's node, status, counts and result, and host memory. -/
theorem runDecoder_frame (m : DecMode) (s : State) :
    runDecoder m s = { s with
      decNode := (runDecoder m s).decNode, decCode := (runDecoder m s).decCode,
      decCount := (runDecoder m s).decCount, decConsumed := (runDecoder m s).decConsumed,
      decResult := (runDecoder m s).decResult, mem := (runDecoder m s).mem } := by
  rw [runDecoder_eq]
  split
  · rw [finishRun_frame, decLoop_frame, clearCounts]
  · rfl

/-- An encoder command changes only the encoder, its sink and host memory (R19, R30). -/
theorem encoderCommand_frame {c : Instr} {s t : State} (hc : isEncoderCommand c = true) (h : exec c s = .next t) :
    t = { s with encCount := t.encCount, encAcc := t.encAcc, encNbits := t.encNbits, encOvf := t.encOvf,
                 encResult := t.encResult, mem := t.mem, store := t.store, chainFill := t.chainFill,
                 chainCur := t.chainCur } := by
  obtain rfl | ⟨b, rfl⟩ | rfl | rfl := (isEncoderCommand_iff c).mp hc <;> cases h
  · rfl
  · rw [symStep_frame]
  · rw [flushStep_frame]
  · exact runEncoder_frame s

/-- A decoder command changes only the decoder and host memory (R19, R56). -/
theorem decoderCommand_frame {c : Instr} {s t : State} (hc : isDecoderCommand c = true) (h : exec c s = .next t) :
    t = { s with decCount := t.decCount, decConsumed := t.decConsumed, decNode := t.decNode,
                 decCode := t.decCode, decResult := t.decResult, mem := t.mem } := by
  obtain rfl | ⟨n, rfl⟩ | ⟨b, rfl⟩ | rfl | ⟨m, rfl⟩ := (isDecoderCommand_iff c).mp hc <;> cases h
  · rfl
  · rw [nibStep_frame]
  · rw [byteStep_frame]
  · rw [endStep_frame]
  · exact runDecoder_frame m s

/-! ## The build parameters and the host's side -/

/-- The fields no instruction changes: the build parameters and BLOCK_BASE (R12, R22, R23, R74), and the model's record
of the host's side (log 1, log 4). -/
def fixedFields (s : State) :
    CodeTable × BitVec 32 × BitVec 16 × BitVec 52 × List HostEvent × List Word × Nat :=
  (s.codes, s.chunkSize, s.maxChunks, s.blockPage, s.pending, s.raced, s.epoch)

theorem fixedFields_eq_iff (s t : State) :
    fixedFields t = fixedFields s ↔
      t.codes = s.codes ∧ t.chunkSize = s.chunkSize ∧ t.maxChunks = s.maxChunks ∧ t.blockPage = s.blockPage ∧
      t.pending = s.pending ∧ t.raced = s.raced ∧ t.epoch = s.epoch := by
  simp only [fixedFields, Prod.mk.injEq]

theorem fixedFields_regWrite (r : Reg) (v : Word) (s : State) : fixedFields (regWrite r v s) = fixedFields s := by
  cases r <;> rfl

theorem fixedFields_of_encoderCommand {c : Instr} {s t : State} (hc : isEncoderCommand c = true)
    (h : exec c s = .next t) : fixedFields t = fixedFields s := by
  rw [encoderCommand_frame hc h]; rfl

theorem fixedFields_of_decoderCommand {c : Instr} {s t : State} (hc : isDecoderCommand c = true)
    (h : exec c s = .next t) : fixedFields t = fixedFields s := by
  rw [decoderCommand_frame hc h]; rfl

theorem fixedFields_of_command {c : Instr} {s t : State} (hc : c.isCommand = true) (h : exec c s = .next t) :
    fixedFields t = fixedFields s := by
  cases c with
  | nop | clrErr | softReset | sinkReset => cases h; rfl
  | encInit | encSym | encFlush | encRun => exact fixedFields_of_encoderCommand rfl h
  | decInit | decNib | decByte | decEnd | decRun => exact fixedFields_of_decoderCommand rfl h
  | rd | wr => cases hc

theorem fixedFields_of_dispatch {w : Word} {s t : State} (h : dispatch w s = .next t) :
    fixedFields t = fixedFields s := by
  cases hd : decode w with
  | ok c => exact fixedFields_of_command (decode_isCommand hd) (dispatch_ok hd s ▸ h)
  | error e =>
    rw [dispatch_error hd] at h
    cases h
    rfl

theorem fixedFields_of_exec {i : Instr} {s t : State} (h : exec i s = .next t) : fixedFields t = fixedFields s := by
  cases i with
  | rd width off => rw [execRd_next h]; rfl
  | wr width off v =>
    obtain ⟨-, rfl⟩ | ⟨-, hd⟩ | ⟨r, -, -, rfl⟩ := execWr_next h
    · rfl
    · exact fixedFields_of_dispatch hd
    · exact fixedFields_regWrite r v s
  | _ => exact fixedFields_of_command rfl h

/-- Settles O17, through the instructions' frames. -/
theorem execKeepsParametersAndHostSide : Obligations.ExecKeepsParametersAndHostSide := by
  intro i s t h
  exact (fixedFields_eq_iff s t).mp (fixedFields_of_exec h)

/-! ## The encoder does not read the decoder's registers -/

theorem chainAdvance_withDecoderOf (u : State) (n : Nat) (s : State) :
    chainAdvance n (withDecoderOf u s) = (chainAdvance n s).map (withDecoderOf u) := by
  simp only [chainAdvance, apply_ite (Option.map (withDecoderOf u))]
  rfl

theorem chainEnsure_withDecoderOf (u s : State) :
    chainEnsure (withDecoderOf u s) = (chainEnsure s).map (withDecoderOf u) := by
  have hcur : (withDecoderOf u s).chainCur = s.chainCur := rfl
  rw [chainEnsure, chainEnsure, hcur]
  cases s.chainCur with
  | none => exact chainAdvance_withDecoderOf u 0 s
  | some c =>
    simp only [apply_ite (Option.map (withDecoderOf u)), ← chainAdvance_withDecoderOf]
    rfl

theorem chainPut_withDecoderOf (u : State) (v : Byte) (s : State) :
    chainPut v (withDecoderOf u s) = withDecoderOf u (chainPut v s) := by
  have hcur : (withDecoderOf u s).chainCur = s.chainCur := rfl
  rw [chainPut, chainPut, hcur]
  cases s.chainCur <;> rfl

theorem sinkAppend_withDecoderOf (u : State) (v : Byte) (s : State) :
    sinkAppend v (withDecoderOf u s) = (sinkAppend v s).map (withDecoderOf u) := by
  have hmode : (withDecoderOf u s).sinkMode = s.sinkMode := rfl
  rw [sinkAppend, sinkAppend, hmode]
  cases s.sinkMode with
  | fixed =>
    simp only [apply_ite (Option.map (withDecoderOf u))]
    rfl
  | chain =>
    simp only [chainEnsure_withDecoderOf]
    cases chainEnsure s with
    | none => rfl
    | some t => exact congrArg some (chainPut_withDecoderOf u v t)

theorem drainBytes_withDecoderOf (u : State) (fuel : Nat) (s : State) :
    drainBytes fuel (withDecoderOf u s) = withDecoderOf u (drainBytes fuel s) := by
  induction fuel generalizing s with
  | zero => rfl
  | succ fuel ih =>
    have hbits : (withDecoderOf u s).encNbits = s.encNbits := rfl
    have hold : oldestByte (withDecoderOf u s) = oldestByte s := rfl
    rw [drainBytes, drainBytes, hbits, hold, sinkAppend_withDecoderOf]
    split
    · cases sinkAppend (oldestByte s) s with
      | none => rfl
      | some t => exact ih (dropByte t)
    · rfl

theorem symStep_withDecoderOf (u : State) (b : Byte) (s : State) :
    symStep b (withDecoderOf u s) = withDecoderOf u (symStep b s) := by
  rw [symStep, symStep, apply_ite (withDecoderOf u), ← drainBytes_withDecoderOf]
  rfl

theorem flushStep_withDecoderOf (u s : State) : flushStep (withDecoderOf u s) = withDecoderOf u (flushStep s) := by
  have hovf : (withDecoderOf u s).encOvf = s.encOvf := rfl
  have hbits : (withDecoderOf u s).encNbits = s.encNbits := rfl
  have hpad : padByte (withDecoderOf u s) = padByte s := rfl
  rw [flushStep, flushStep, hovf, hbits, hpad, sinkAppend_withDecoderOf]
  split
  · rfl
  · split
    · rfl
    · cases sinkAppend (padByte s) s <;> rfl

theorem encLoop_withDecoderOf (u : State) (n : Nat) (i : Word) (s : State) :
    encLoop n i (withDecoderOf u s) = withDecoderOf u (encLoop n i s) := by
  induction n generalizing i s with
  | zero => rfl
  | succ n ih =>
    have hread : hostRead (withDecoderOf u s) ((withDecoderOf u s).encSrc + i) = hostRead s (s.encSrc + i) := rfl
    simp only [encLoop, hread, symStep_withDecoderOf, ih, apply_ite (withDecoderOf u)]
    rfl

theorem finishEncode_withDecoderOf (u s : State) :
    finishEncode (withDecoderOf u s) = withDecoderOf u (finishEncode s) := by
  rw [finishEncode, finishEncode, flushStep_withDecoderOf]
  rfl

theorem runEncoder_withDecoderOf (u s : State) : runEncoder (withDecoderOf u s) = withDecoderOf u (runEncoder s) := by
  rw [runEncoder_eq s, ← finishEncode_withDecoderOf, ← encLoop_withDecoderOf]
  rfl

/-- An encoder command answers the same whatever the decoder's registers hold (R19). -/
theorem encoderCommand_withDecoderOf {c : Instr} {s t : State} (u : State) (hc : isEncoderCommand c = true)
    (h : exec c s = .next t) : exec c (withDecoderOf u s) = .next (withDecoderOf u t) := by
  obtain rfl | ⟨b, rfl⟩ | rfl | rfl := (isEncoderCommand_iff c).mp hc <;> cases h
  · rfl
  · exact congrArg Host.Outcome.next (symStep_withDecoderOf u b s)
  · exact congrArg Host.Outcome.next (flushStep_withDecoderOf u s)
  · exact congrArg Host.Outcome.next (runEncoder_withDecoderOf u s)

/-! ## The decoder does not read the encoder's registers or its sink -/

theorem decOut_withEncoderOf (u : State) (v : Byte) (s : State) :
    decOut v (withEncoderOf u s) = (decOut v s).map (withEncoderOf u) := by
  simp only [decOut, apply_ite (Option.map (withEncoderOf u))]
  rfl

theorem nibStep_withEncoderOf (u : State) (n : BitVec 4) (s : State) :
    nibStep n (withEncoderOf u s) = withEncoderOf u (nibStep n s) := by
  have hready : decReady (withEncoderOf u s) = decReady s := rfl
  have hcodes : (withEncoderOf u s).codes = s.codes := rfl
  have hnode : (withEncoderOf u s).decNode = s.decNode := rfl
  simp only [nibStep, hready, hcodes, hnode, decOut_withEncoderOf]
  split
  · cases transition s.codes (nodeAt s.codes s.decNode) n with
    | invalid => rfl
    | goes y sym =>
      cases sym with
      | none => rfl
      | some b =>
        dsimp only
        cases decOut b s <;> rfl
  · rfl

theorem byteStep_withEncoderOf (u : State) (b : Byte) (s : State) :
    byteStep b (withEncoderOf u s) = withEncoderOf u (byteStep b s) := by
  simp only [byteStep, nibStep_withEncoderOf, apply_ite (withEncoderOf u)]
  rfl

theorem endStep_withEncoderOf (u s : State) : endStep (withEncoderOf u s) = withEncoderOf u (endStep s) := by
  simp only [endStep, apply_ite (withEncoderOf u)]
  rfl

theorem decLoop_withEncoderOf (u : State) (n : Nat) (i : Word) (s : State) :
    decLoop n i (withEncoderOf u s) = withEncoderOf u (decLoop n i s) := by
  induction n generalizing i s with
  | zero => rfl
  | succ n ih =>
    have hread : hostRead (withEncoderOf u s) ((withEncoderOf u s).decSrc + i) = hostRead s (s.decSrc + i) := rfl
    simp only [decLoop, hread, byteStep_withEncoderOf, ih, apply_ite (withEncoderOf u)]
    rfl

theorem finishRun_withEncoderOf (u : State) (m : DecMode) (s : State) :
    finishRun m (withEncoderOf u s) = withEncoderOf u (finishRun m s) := by
  cases m with
  | resumable => rfl
  | final => simp only [finishRun, DecMode.bit, if_true, endStep_withEncoderOf]; rfl

theorem runDecoder_withEncoderOf (u : State) (m : DecMode) (s : State) :
    runDecoder m (withEncoderOf u s) = withEncoderOf u (runDecoder m s) := by
  rw [runDecoder_eq m s, apply_ite (withEncoderOf u), ← finishRun_withEncoderOf, ← decLoop_withEncoderOf]
  rfl

/-- A decoder command answers the same whatever the encoder's registers and sink hold (R19). -/
theorem decoderCommand_withEncoderOf {c : Instr} {s t : State} (u : State) (hc : isDecoderCommand c = true)
    (h : exec c s = .next t) : exec c (withEncoderOf u s) = .next (withEncoderOf u t) := by
  obtain rfl | ⟨n, rfl⟩ | ⟨b, rfl⟩ | rfl | ⟨m, rfl⟩ := (isDecoderCommand_iff c).mp hc <;> cases h
  · rfl
  · exact congrArg Host.Outcome.next (nibStep_withEncoderOf u n s)
  · exact congrArg Host.Outcome.next (byteStep_withEncoderOf u b s)
  · exact congrArg Host.Outcome.next (endStep_withEncoderOf u s)
  · exact congrArg Host.Outcome.next (runDecoder_withEncoderOf u m s)

/-- Settles O53, by each engine's frame and by its commands' commuting with a change of the other's registers. -/
theorem enginesAreIndependent : Obligations.EnginesAreIndependent := by
  intro i s u t h
  rw [← exec_performed] at h
  rw [← exec_performed i, ← exec_performed i]
  exact ⟨fun hi => ⟨encoderCommand_withDecoderOf u hi h, encoderCommand_frame hi h⟩,
    fun hi => ⟨decoderCommand_withEncoderOf u hi h, decoderCommand_frame hi h⟩⟩

end Sys2Proof.Proofs
end

section
/-! PROOFS of the state family (R20-R58): the invariant of the machine and that every step keeps it, the code table and
its node list, the chain's stream, and which commands change each status. -/

namespace Sys2Proof.Proofs

open Sys2Proof.Machine

/-! ## What an instruction can do -/

/-- A WR that is let through to CMD is the CMD write of `performed`. -/
theorem wr_cmd_of_next {width : Nat} {off : BitVec 12} {v : Word} {s t : State}
    (h : execWr width off v s = .next t) (hr : regAt off = some .cmd) : width = 64 ∧ off = 0x010#12 := by
  constructor
  · by_contra hw
    have : accessWidthOk width = false := beq_false_of_ne hw
    simp [execWr, this] at h
  · have := List.find?_some hr
    exact (beq_iff_eq.mp this).symm

/-- What an instruction can do: run the command it performs, record an illegal command, return a value, or write a
register other than CMD. -/
theorem exec_next {i : Instr} {s t : State} (h : exec i s = .next t) :
    ((performed i).isCommand = true ∧ exec (performed i) s = .next t) ∨
    (∃ w e, i = .wr 64 0x010#12 w ∧ decode w = .error e ∧ t = raiseError (.illegalCommand w) s) ∨
    (∃ v, t = returned v s) ∨ ∃ r v, t = regWrite r v s := by
  cases i with
  | rd width off => exact .inr (.inr (.inl ⟨_, execRd_next h⟩))
  | wr width off v =>
    obtain ⟨-, rfl⟩ | ⟨hr, hd⟩ | ⟨r, -, -, rfl⟩ := execWr_next h
    · exact .inr (.inr (.inr ⟨.id, v, rfl⟩))
    · obtain ⟨rfl, rfl⟩ := wr_cmd_of_next h hr
      cases hw : decode v with
      | ok c =>
        have hp : performed (.wr 64 0x010#12 v) = c := by simp only [performed, hw]
        exact .inl ⟨by rw [hp]; exact decode_isCommand hw, by rw [exec_performed]; exact h⟩
      | error e =>
        rw [dispatch_error hw] at hd
        cases hd
        exact .inr (.inl ⟨v, e, rfl, hw, rfl⟩)
    · exact .inr (.inr (.inr ⟨r, v, rfl⟩))
  | _ => exact .inl ⟨rfl, h⟩

/-! ## What the invariant depends on -/

/-- The fields the invariant speaks of. -/
def goodFields (s : State) :
    CodeTable × BitVec 32 × BitVec 16 × Memory × Memory × List Nat × Option Nat × Word × BitVec 6 × Bool :=
  (s.codes, s.chunkSize, s.maxChunks, s.mem, s.store, s.chainFill, s.chainCur, s.encAcc, s.encNbits, s.encOvf)

/-- The invariant depends on those fields only. -/
theorem good_congr {s t : State} (h : goodFields t = goodFields s) (hs : Good s) : Good t := by
  cases s; cases t
  simp only [goodFields, Prod.mk.injEq] at h
  obtain ⟨rfl, rfl, rfl, rfl, rfl, rfl, rfl, rfl, rfl, rfl⟩ := h
  exact ⟨hs.params, hs.memories, hs.chain, hs.acc, hs.table⟩

/-! ## Host memory -/

/-- Host memory is in canonical form, inside its address space (R70). -/
def hostMemOk (m : Memory) : Prop := Memory.wf m = true ∧ Memory.within (2 ^ 64) m = true

theorem hostMemOk_of_good {s : State} (h : Good s) : hostMemOk s.mem := ⟨h.memories.1, h.memories.2.1⟩

theorem hostMemOk_writeCell {m : Memory} (h : hostMemOk m) (a : Word) (v : Byte) :
    hostMemOk (writeCell m a.toNat v) := ⟨wf_writeCell h.1 _ v, within_writeCell h.2 a.isLt v⟩

theorem hostMemOk_scribble {m : Memory} (h : hostMemOk m) (epoch : Nat) (raced : List Word) :
    hostMemOk (scribble epoch raced m) := ⟨wf_scribble h.1 epoch raced, within_scribble h.2 epoch raced⟩

/-- Host memory may change to any memory in canonical form. -/
theorem good_withMem {s : State} {m : Memory} (h : Good s) (hm : hostMemOk m) : Good { s with mem := m } :=
  ⟨h.params, ⟨hm.1, hm.2, h.memories.2.2⟩, h.chain, h.acc, h.table⟩

/-! ## The decoder's commands -/

theorem hostMemOk_nibStep {s : State} (n : BitVec 4) (h : hostMemOk s.mem) : hostMemOk (nibStep n s).mem := by
  by_cases hc : s.decCode = .ok
  · obtain ⟨-, e⟩ | ⟨y, -, e⟩ | ⟨y, b, -, -, e⟩ | ⟨y, b, -, -, e⟩ := nibStep_cases n hc <;> rw [e]
    · exact h
    · exact h
    · exact h
    · exact hostMemOk_writeCell h _ b
  · rwa [nibStep_error n hc]

theorem hostMemOk_byteStep {s : State} (b : Byte) (h : hostMemOk s.mem) : hostMemOk (byteStep b s).mem := by
  have high := hostMemOk_nibStep (b.extractLsb' 4 4) h
  have low := hostMemOk_nibStep (b.extractLsb' 0 4) high
  simp only [byteStep]
  split
  · split <;> exact low
  · exact high

theorem hostMemOk_decLoop {s : State} (n : Nat) (i : Word) (h : hostMemOk s.mem) : hostMemOk (decLoop n i s).mem := by
  induction n generalizing i s with
  | zero => exact h
  | succ n ih =>
    have byte := hostMemOk_byteStep (hostRead s (s.decSrc + i)) h
    simp only [decLoop]
    split
    · exact ih _ byte
    · exact byte

theorem hostMemOk_runDecoder {s : State} (m : DecMode) (h : hostMemOk s.mem) : hostMemOk (runDecoder m s).mem := by
  rw [runDecoder_eq]
  split
  · rw [finishRun_frame]
    exact hostMemOk_decLoop (s := clearCounts s) _ _ h
  · exact h

/-- A decoder command keeps host memory in canonical form. -/
theorem hostMemOk_of_decoderCommand {c : Instr} {s t : State} (hc : isDecoderCommand c = true)
    (h : exec c s = .next t) (hm : hostMemOk s.mem) : hostMemOk t.mem := by
  obtain rfl | ⟨n, rfl⟩ | ⟨b, rfl⟩ | rfl | ⟨m, rfl⟩ := (isDecoderCommand_iff c).mp hc <;> cases h
  · exact hm
  · exact hostMemOk_nibStep n hm
  · exact hostMemOk_byteStep b hm
  · rw [endStep_frame]; exact hm
  · exact hostMemOk_runDecoder m hm

theorem good_of_decoderCommand {c : Instr} {s t : State} (hc : isDecoderCommand c = true) (h : exec c s = .next t)
    (hs : Good s) : Good t := by
  have hm := hostMemOk_of_decoderCommand hc h (hostMemOk_of_good hs)
  have hf := decoderCommand_frame hc h
  exact good_congr (s := { s with mem := t.mem }) (by rw [hf]; rfl) (good_withMem hs hm)

/-! ## The sinks -/

/-- What the invariant says apart from the accumulator and the code table. -/
structure SinkOk (s : State) : Prop where
  params : paramsOk s
  memories : memoriesOk s
  chain : chainOk s

theorem sinkOk_of_good {s : State} (h : Good s) : SinkOk s := ⟨h.params, h.memories, h.chain⟩

/-- A byte put into a chain with room is stored at the end of its stream, inside the chunk store (R72, R210, R212). -/
theorem sinkAppend_chain_store {v : Byte} {s t : State} (hm : s.sinkMode = .chain) (h : sinkAppend v s = some t)
    (hp : paramsOk s) (hc : chainOk s) (hw : Memory.wf s.store = true) :
    t.store = writeCell s.store (chainLen s) v ∧ chainLen s < s.maxChunks.toNat * chunkBytes s ∧ t.mem = s.mem := by
  simp only [sinkAppend, hm] at h
  obtain ⟨he, -⟩ | ⟨u, c, he, hcur, hroom, hu, hlen, hpos⟩ := chainEnsure_spec hp hc
  · rw [he] at h; cases h
  · simp only [he, Option.some.injEq] at h
    subst h
    have hstore : u.store = s.store := by rw [(chainEnsure_some he).1]
    have hmem : u.mem = s.mem := by rw [(chainEnsure_some he).1]
    obtain ⟨-, -, hput, -⟩ := chainPut_spec (hstore ▸ hw) hu hcur hroom v
    refine ⟨by rw [hput, hstore, hlen], ?_, ?_⟩
    · simp only [chainRoom] at hpos; omega
    · simp only [chainPut, hcur]; exact hmem

theorem memoriesOk_of_sinkAppend {v : Byte} {s t : State} (hs : SinkOk s) (h : sinkAppend v s = some t) :
    memoriesOk t := by
  obtain ⟨hwf, hin, hswf, hsin⟩ := hs.memories
  cases hm : s.sinkMode with
  | fixed =>
    rw [sinkAppend_fixed hm] at h
    split at h
    · cases h
    · cases h
      exact ⟨wf_writeCell hwf _ v, within_writeCell hin (BitVec.isLt _) v, hswf, hsin⟩
  | chain =>
    obtain ⟨hstore, hlt, hmem⟩ := sinkAppend_chain_store hm h hs.params hs.chain hswf
    have hmax : t.maxChunks = s.maxChunks := by rw [sinkAppend_frame h]
    have hsize : t.chunkSize = s.chunkSize := by rw [sinkAppend_frame h]
    refine ⟨by rwa [hmem], by rwa [hmem], by rw [hstore]; exact wf_writeCell hswf _ v, ?_⟩
    rw [hstore, chunkBytes, hmax, hsize]
    exact within_writeCell hsin hlt v

/-- SinkAppend keeps the memories and the chain. -/
theorem sinkOk_of_sinkAppend {v : Byte} {s t : State} (hs : SinkOk s) (h : sinkAppend v s = some t) : SinkOk t where
  params := by
    have hf := sinkAppend_frame h
    have hmax : t.maxChunks = s.maxChunks := by rw [hf]
    have hsize : t.chunkSize = s.chunkSize := by rw [hf]
    rw [paramsOk, hmax, hsize]
    exact hs.params
  memories := memoriesOk_of_sinkAppend hs h
  chain := by
    obtain ⟨he, -⟩ | ⟨u, he, -, -, hu, -, -⟩ := sinkAppend_spec hs.params hs.memories.2.2.1 hs.chain v
    · rw [h] at he; cases he
    · rw [h] at he; cases he; exact hu

/-- Draining whole bytes keeps the memories and the chain. -/
theorem sinkOk_drainBytes {s : State} (fuel : Nat) (hs : SinkOk s) : SinkOk (drainBytes fuel s) := by
  induction fuel generalizing s with
  | zero => exact hs
  | succ fuel ih =>
    rw [drainBytes]
    split
    · split
      · exact ⟨hs.params, hs.memories, hs.chain⟩
      · rename_i t ht
        obtain ⟨hp, hm, hc⟩ := sinkOk_of_sinkAppend hs ht
        exact ih ⟨hp, hm, hc⟩
    · exact hs

/-! ## The encoder's commands -/

/-- With nothing pending and no Overflow the accumulator's invariants hold. -/
theorem accOk_of_empty {s : State} (ha : s.encAcc = 0#64) (hn : s.encNbits = 0#6) (ho : s.encOvf = false) :
    accOk s := by
  simp [accOk, ha, hn, ho]

/-- An Overflow raised with pending bits, at most 7 of them, keeps the accumulator's invariants (R33). -/
theorem accOk_overflow {s : State} (h : accOk s) (ho : s.encOvf = false) (h0 : s.encNbits ≠ 0#6) :
    accOk { s with encOvf := true } := by
  obtain ⟨hacc, hnb⟩ := h
  have hpos : s.encNbits.toNat ≠ 0 := fun e => h0 (BitVec.eq_of_toNat_eq e)
  simp only [ho, Bool.false_eq_true, if_false] at hnb
  refine ⟨hacc, ?_⟩
  simp only [if_true]
  omega

/-- After draining at most 37 pending bits, at most 7 are left, or the refused ones after an Overflow (R32, R33). -/
theorem accOk_of_drained {s t : State} {ys : List Byte} (h : Drained s t ys) (hn : s.encNbits.toNat ≤ 37) :
    accOk t := by
  have hlen := h.length
  have hnb := h.nbits
  refine ⟨h.acc, ?_⟩
  rw [h.ovf]
  by_cases hr : sinkRoom s < s.encNbits.toNat / 8
  · simp only [hr, decide_true, if_true]; omega
  · simp only [hr, decide_false, Bool.false_eq_true, if_false]; omega

theorem good_symStep {s : State} (b : Byte) (h : Good s) : Good (symStep b s) := by
  cases ho : s.encOvf with
  | true => rwa [symStep_error b ho]
  | false =>
    have hb : b.toNat < 257 := by have := b.isLt; omega
    obtain ⟨-, hlen, hval⟩ := codeOf_bounds h.table hb
    obtain ⟨hacc, hnb⟩ := h.acc
    simp only [ho, Bool.false_eq_true, if_false] at hnb
    obtain ⟨pn, pacc, -⟩ := pushCode_spec hnb hacc hlen hval
    set p := pushCode (codeOf s.codes b.toNat) s
    have hpo : p.encOvf = false := ho
    have hps : SinkOk p := ⟨h.params, h.memories, h.chain⟩
    have hn : p.encNbits.toNat ≤ 37 := by omega
    obtain ⟨ys, hd⟩ := drainBytes_spec 8 hps.params hps.memories.2.2.1 hps.chain pacc hpo (by omega)
    have hsym : symStep b s = drainBytes 8 p := by rw [symStep, if_neg (by simp [ho])]
    have hds := sinkOk_drainBytes 8 hps
    have hcodes : (drainBytes 8 p).codes = s.codes := by rw [drainBytes_frame]; rfl
    rw [hsym]
    exact ⟨hds.params, hds.memories, hds.chain, accOk_of_drained hd hn, hcodes ▸ h.table⟩

theorem good_flushStep {s : State} (h : Good s) : Good (flushStep s) := by
  rw [flushStep]
  split
  · exact h
  · rename_i ho
    have ho' : s.encOvf = false := by simpa using ho
    split
    · exact h
    · rename_i h0
      split
      · exact ⟨h.params, h.memories, h.chain, accOk_overflow h.acc ho' h0, h.table⟩
      · rename_i t ht
        obtain ⟨hp, hm, hc⟩ := sinkOk_of_sinkAppend (sinkOk_of_good h) ht
        have hovf : t.encOvf = false := by rw [sinkAppend_frame ht]; exact ho'
        have hcodes : t.codes = s.codes := by rw [sinkAppend_frame ht]
        exact ⟨hp, hm, hc, accOk_of_empty rfl rfl hovf, hcodes ▸ h.table⟩

theorem good_encStart {s : State} (h : Good s) : Good (encStart s) :=
  ⟨h.params, h.memories, h.chain, accOk_of_empty rfl rfl rfl, h.table⟩

theorem good_encLoop {s : State} (n : Nat) (i : Word) (h : Good s) : Good (encLoop n i s) := by
  induction n generalizing i s with
  | zero => exact h
  | succ n ih =>
    have sym := good_symStep (hostRead s (s.encSrc + i)) h
    simp only [encLoop]
    split
    · exact sym
    · exact ih _ sym

theorem good_runEncoder {s : State} (h : Good s) : Good (runEncoder s) :=
  good_congr (s := flushStep (encLoop s.encLen.toNat 0#64 (encStart s))) rfl
    (good_flushStep (good_encLoop _ _ (good_encStart h)))

theorem good_of_encoderCommand {c : Instr} {s t : State} (hc : isEncoderCommand c = true) (h : exec c s = .next t)
    (hs : Good s) : Good t := by
  obtain rfl | ⟨b, rfl⟩ | rfl | rfl := (isEncoderCommand_iff c).mp hc <;> cases h
  · exact good_encStart hs
  · exact good_symStep b hs
  · exact good_flushStep hs
  · exact good_runEncoder hs

/-! ## Every instruction and every step -/

theorem good_resetBlock {s : State} (h : Good s) : Good (resetBlock s) :=
  ⟨h.params, h.memories, ⟨Nat.zero_le _, rfl⟩, accOk_of_empty rfl rfl rfl, h.table⟩

theorem fillOf_keepChunks (k : Nat) (s : State) (i : Nat) : fillOf (keepChunks k s) i = 0 := by
  rw [fillOf, keepChunks_chainFill, List.getD_eq_getElem?_getD, List.getElem?_replicate]
  split <;> rfl

theorem chainOk_keepChunks {s : State} (k : Nat) (h : chainOk s) : chainOk (keepChunks k s) := by
  have hlen : (keepChunks k s).chainFill.length = min k s.chainFill.length := List.length_replicate
  have hmax : (keepChunks k s).chainFill.length ≤ s.maxChunks.toNat := by have := h.1; omega
  refine ⟨hmax, ?_⟩
  rw [keepChunks_chainCur]
  by_cases h0 : min k s.chainFill.length = 0
  · rw [if_pos h0]
    exact List.length_eq_zero_iff.mp (hlen.trans h0)
  · rw [if_neg h0]
    exact ⟨by omega, by rw [fillOf_keepChunks]; exact Nat.zero_le _, fun i hi => absurd hi (Nat.not_lt_zero i),
      fun i _ _ => fillOf_keepChunks k s i⟩

theorem good_keepChunks {s : State} (k : Nat) (h : Good s) : Good (keepChunks k s) :=
  ⟨h.params, h.memories, chainOk_keepChunks k h.chain, h.acc, h.table⟩

theorem good_of_command {c : Instr} {s t : State} (hc : c.isCommand = true) (h : exec c s = .next t) (hs : Good s) :
    Good t := by
  cases c with
  | nop => cases h; exact hs
  | clrErr => cases h; exact good_congr (s := s) rfl hs
  | softReset => cases h; exact good_resetBlock hs
  | sinkReset k => cases h; exact good_keepChunks k.toNat hs
  | encInit | encSym | encFlush | encRun => exact good_of_encoderCommand rfl h hs
  | decInit | decNib | decByte | decEnd | decRun => exact good_of_decoderCommand rfl h hs
  | rd | wr => cases hc

theorem goodFields_regWrite (r : Reg) (v : Word) (s : State) : goodFields (regWrite r v s) = goodFields s := by
  cases r <;> rfl

theorem good_of_exec {i : Instr} {s t : State} (h : exec i s = .next t) (hs : Good s) : Good t := by
  obtain ⟨hc, hx⟩ | ⟨w, e, -, -, rfl⟩ | ⟨v, rfl⟩ | ⟨r, v, rfl⟩ := exec_next h
  · exact good_of_command hc hx hs
  · exact good_congr (s := s) rfl hs
  · exact good_congr (s := s) rfl hs
  · exact good_congr (goodFields_regWrite r v s) hs

/-- An access ends between steps, in the invariant, whatever other agents left in host memory (R83). -/
theorem inv_endAccess {s : State} (h : Good s) : Inv (endAccess s) where
  good := good_congr (s := { s with mem := scribble s.epoch s.raced s.mem }) rfl
    (good_withMem h (hostMemOk_scribble (hostMemOk_of_good h) _ _))
  quiet := rfl

/-- A register access that answers a next state ran its instruction to one. -/
theorem runAccess_next {a : RegAccess} {raced : List Word} {rest : List HostEvent} {s t : State}
    (h : runAccess a raced rest s = .next t) :
    ∃ u, exec (accessInstr a) (beginAccess rest raced s) = .next u ∧ t = endAccess u := by
  rw [runAccess] at h
  cases hx : exec (accessInstr a) (beginAccess rest raced s) with
  | next u => rw [hx] at h; cases h; exact ⟨u, rfl, rfl⟩
  | fault f => cases f
  | refused r => rw [hx] at h; cases h

/-- What a step can do: nothing when idle, a register access, a host store, or the reset input. -/
theorem step_next {s t : State} (h : step s = .next t) :
    t = s ∨ (∃ a raced rest, runAccess a raced rest s = .next t) ∨
    (∃ addr v rest, t = hostWrite addr v { s with pending := rest }) ∨
    ∃ rest, t = resetBlock { s with pending := rest } := by
  unfold step at h
  split at h
  · cases h; exact .inl rfl
  · exact .inr (.inl ⟨_, _, _, h⟩)
  · split at h
    · exact .inr (.inl ⟨_, _, _, h⟩)
    · cases h
  · split at h
    · exact .inr (.inl ⟨_, _, _, h⟩)
    · cases h
  · cases h; exact .inr (.inr (.inl ⟨_, _, _, rfl⟩))
  · cases h; exact .inr (.inr (.inr ⟨_, rfl⟩))

/-- Settles O16: every instruction keeps `Good`, and so does every other event. -/
theorem stepKeepsTheInvariant : Obligations.StepKeepsTheInvariant := by
  intro s t hs h
  obtain rfl | ⟨a, raced, rest, hr⟩ | ⟨addr, v, rest, rfl⟩ | ⟨rest, rfl⟩ := step_next h
  · exact hs
  · obtain ⟨u, hx, rfl⟩ := runAccess_next hr
    exact inv_endAccess (good_of_exec hx (good_congr (s := s) rfl hs.good))
  · exact ⟨good_congr (s := { s with mem := writeCell s.mem addr.toNat v }) rfl
      (good_withMem hs.good (hostMemOk_writeCell (hostMemOk_of_good hs.good) addr v)), hs.quiet⟩
  · exact ⟨good_congr (s := resetBlock s) rfl (good_resetBlock hs.good), hs.quiet⟩

/-! ## The pending access and the reset state -/

/-- Settles O6: no instruction changes the raced addresses or the access count, which the end of the access uses. -/
theorem stepRunsThePendingAccess : Obligations.StepRunsThePendingAccess := by
  intro s t a raced rest hp h
  have hx : exec (accessInstr a) (beginAccess rest raced s) = .next t := h
  obtain ⟨-, -, -, -, -, hraced, hepoch⟩ := (fixedFields_eq_iff _ t).mp (fixedFields_of_exec hx)
  simp only [beginAccess_raced, beginAccess_epoch] at hraced hepoch
  simp only [step, hp, runAccess, hx, finishAccess, endAccess, hraced, hepoch]

theorem paramsOk_reset : paramsOk State.reset := by
  have hsize : Config.chunkSize.toNat = Config.chunkSizeLessOne.val + 1 := by
    rw [Config.chunkSize, BitVec.toNat_ofNat, Nat.mod_eq_of_lt]
    have := Config.chunkSizeLessOne.isLt; omega
  have hmax : Config.maxChunks.toNat = Config.maxChunksLessOne.val + 1 := by
    rw [Config.maxChunks, BitVec.toNat_ofNat, Nat.mod_eq_of_lt]
    have := Config.maxChunksLessOne.isLt; omega
  exact ⟨by show 1 ≤ Config.chunkSize.toNat; omega, by show 1 ≤ Config.maxChunks.toNat; omega⟩

/-- Settles O15. -/
theorem resetMeetsTheInvariant : Obligations.ResetMeetsTheInvariant :=
  ⟨⟨paramsOk_reset, ⟨wf_reset_mem, rfl, wf_reset_store, rfl⟩, ⟨Nat.zero_le _, rfl⟩, accOk_of_empty rfl rfl rfl,
    tableOk_codeTable⟩, rfl⟩

/-! ## The chain's stream, chunk by chunk -/

@[simp] theorem length_chainStream (s : State) : (chainStream s).length = chainLen s := by simp [chainStream]

/-- A range cut into `c` rows of `b` numbers. -/
theorem range_mul_eq_flatMap (c b : Nat) :
    List.range (c * b) = (List.range c).flatMap (fun i => (List.range b).map (i * b + ·)) := by
  induction c with
  | zero => simp
  | succ c ih => rw [Nat.succ_mul, List.range_add, ih, List.range_succ, List.flatMap_append, List.flatMap_singleton]

/-- Chunks `0 .. c - 1` full and `n` bytes of chunk `c`, read in order, are the first bytes of the store (R72). -/
theorem readCells_eq_flatMap_chunks (s : State) (c n : Nat) :
    (List.range (c * chunkBytes s + n)).map (readCell s.store) =
      (List.range c).flatMap (fun i => (List.range (chunkBytes s)).map (chunkRead s i)) ++
        (List.range n).map (chunkRead s c) := by
  rw [List.range_add, range_mul_eq_flatMap, List.map_append, List.map_flatMap]
  simp only [List.map_map]
  rfl

/-- R40: the stream is chunks 0 .. CHAIN_CUR, each up to its FILL. -/
theorem chainStream_eq_flatMap_fills {s : State} (hc : chainOk s) {c : Nat} (hcur : s.chainCur = some c) :
    chainStream s = (List.range (c + 1)).flatMap (fun i => (List.range (fillOf s i)).map (chunkRead s i)) := by
  obtain ⟨-, hrest⟩ := hc
  rw [hcur] at hrest
  obtain ⟨-, -, hfull, -⟩ := hrest
  have hlen : chainLen s = c * chunkBytes s + fillOf s c := by simp only [chainLen, hcur]
  rw [chainStream_eq, hlen, readCells_eq_flatMap_chunks, List.range_succ, List.flatMap_append, List.flatMap_singleton]
  congr 1
  refine List.flatMap_congr fun i hi => ?_
  rw [hfull i (List.mem_range.mp hi)]

/-- Settles O49: the chunks before the cursor are full. -/
theorem chainStreamIsTheChunksInOrder : Obligations.ChainStreamIsTheChunksInOrder := by
  intro s _ hc
  refine ⟨by rw [length_chainStream]; rfl, fun hnone => ?_, fun c hcur => ⟨chainStream_eq_flatMap_fills hc hcur, ?_⟩⟩
  · simp [chainStream, chainLen, hnone]
  · rw [length_chainStream]
    simp only [chainLen, hcur, chunkBytes]

/-! ## Prefixes of bit strings -/

/-- The first `d` bits of a bit string. -/
theorem take_bitsOf (x : BitString) {d : Nat} (hd : d ≤ x.len) :
    (bitsOf x).take d = bitsOf ⟨d, prefixValue x d⟩ := by
  have hs := bitsOf_split d (x.len - d) x.val
  rw [show d + (x.len - d) = x.len by omega, ← prefixValue_eq] at hs
  exact (congrArg (List.take d) hs).trans (List.take_left' (length_bitsOf _))

/-- `c` begins with `x` as a list of bits iff it does as a bit string (R15, R51). -/
theorem bitsOf_prefix_iff {c x : BitString} (hc : c.val < 2 ^ c.len) (hx : x.val < 2 ^ x.len) :
    bitsOf x <+: bitsOf c ↔ beginsWith c x := by
  rw [List.prefix_iff_eq_take, length_bitsOf]
  constructor
  · intro h
    have hl : x.len ≤ c.len := by
      have := congrArg List.length h
      simp only [length_bitsOf, List.length_take] at this
      omega
    rw [take_bitsOf c hl] at h
    exact ⟨hl, (bitsOf_inj hx (prefixValue_lt hc hl) h).symm⟩
  · rintro ⟨hl, hv⟩
    rw [take_bitsOf c hl, hv]

/-- `n` bits that are all 1. -/
theorem bitsOf_ones (n : Nat) : bitsOf ⟨n, 2 ^ n - 1⟩ = List.replicate n true := by
  refine List.eq_replicate_iff.mpr ⟨length_bitsOf _, fun b hb => ?_⟩
  obtain ⟨k, hk, rfl⟩ := List.mem_map.mp hb
  have hkn : k < n := List.mem_range.mp hk
  rw [Nat.testBit_two_pow_sub_one]
  exact decide_eq_true (show n - 1 - k < n by omega)

/-! ## The code table of this hardware -/

theorem codeOf_inj {codes : CodeTable} (h : TableOk codes) {s u : Nat} (hs : s < 257) (hu : u < 257)
    (e : codeOf codes s = codeOf codes u) : s = u := by
  have := symbolOf_codeOf h hs
  rw [e, symbolOf_codeOf h hu] at this
  exact (Option.some.inj this).symm

/-- R24(b), of the codes as lists of bits. -/
theorem eq_of_codeBits_prefix {codes : CodeTable} (h : TableOk codes) {s u : Nat} (hs : s < 257) (hu : u < 257)
    (hp : bitsOf (codeOf codes s) <+: bitsOf (codeOf codes u)) : s = u := by
  have hb := (bitsOf_prefix_iff (codeOf_bounds h hu).2.2 (codeOf_bounds h hs).2.2).mp hp
  exact codeOf_inj h hs hu (eq_of_beginsWith h (codeOf_mem h hu) (codeOf_mem h hs) hb)

/-- R24(c): no truncation of EOS is a code. -/
theorem eos_truncation_not_code {codes : CodeTable} (h : TableOk codes) {n s : Nat}
    (hn : n < (codeOf codes eosSymbol).len) (hs : s < 257) :
    (bitsOf (codeOf codes eosSymbol)).take n ≠ bitsOf (codeOf codes s) := by
  intro e
  have hse := eq_of_codeBits_prefix h hs (by decide) (e ▸ List.take_prefix n _)
  have := congrArg List.length e
  rw [hse, List.length_take, length_bitsOf] at this
  omega

/-- R24(f) within a length, over the rows of R25. -/
theorem codeTable_ascending : codeTable.Pairwise (fun c x => c.len = x.len → c.val < x.val) := by decide +kernel

/-- R24(f) across lengths, over the rows of R25. -/
theorem codeTable_below_longer {c x : BitString} (hc : c ∈ codeTable) (hx : x ∈ codeTable) (hl : c.len < x.len) :
    c.val < x.val >>> (x.len - c.len) := by
  have all : codeTable.all (fun c => codeTable.all (fun x =>
      Nat.ble x.len c.len || Nat.blt c.val (x.val >>> (x.len - c.len)))) = true := by decide +kernel
  have hcx := List.all_eq_true.mp (List.all_eq_true.mp all c hc) x hx
  rw [Bool.or_eq_true, Nat.ble_eq, Nat.blt_eq] at hcx
  exact hcx.resolve_left (by omega)

theorem codeOf_ascending {s u : Nat} (hsu : s < u) (hu : u < 257)
    (hl : (codeOf codeTable s).len = (codeOf codeTable u).len) :
    (codeOf codeTable s).val < (codeOf codeTable u).val := by
  have hu' : u < codeTable.length := by rw [tableOk_codeTable.size]; exact hu
  have hs' : s < codeTable.length := by omega
  rw [codeOf, codeOf, List.getD_eq_getElem _ _ hs', List.getD_eq_getElem _ _ hu'] at *
  exact List.pairwise_iff_getElem.mp codeTable_ascending s u hs' hu' hsu hl

/-- Settles O32: (a), (b), (d), (e) are those of `TableOk`, (c) follows from (b), and (f) is read off the rows. -/
theorem codeTableMeetsItsConstraints : Obligations.CodeTableMeetsItsConstraints := by
  have h := tableOk_codeTable
  have heos : (codeOf codeTable eosSymbol).len = 30 := by decide +kernel
  refine ⟨rfl, h.size, fun s hs => codeOf_bounds h hs, ?_, ?_, h.complete, h.eosLong, ?_, ?_, ?_⟩
  · exact fun s u hs hu hne hp => hne (eq_of_codeBits_prefix h hs hu hp)
  · exact fun n s hn hs => eos_truncation_not_code h (heos ▸ hn) hs
  · rw [take_bitsOf _ (by omega), h.eosOnes, bitsOf_ones]
  · exact fun s u hsu hu hl => codeOf_ascending hsu hu hl
  · exact fun s u hs hu hl => codeTable_below_longer (codeOf_mem h hs) (codeOf_mem h hu) hl

/-! ## The node list -/

theorem nodeList_getElem? {codes : CodeTable} (h : TableOk codes) (i : BitVec 8) :
    (nodeList codes)[i.toNat]? = some (nodeAt codes i) := by
  have hi : i.toNat < (nodeList codes).length := by rw [length_nodeList h]; exact i.isLt
  rw [nodeAt, List.getD_eq_getElem _ _ hi, List.getElem?_eq_getElem hi]

/-- Two indices of one node are one index (R51). -/
theorem nodeAt_inj {codes : CodeTable} (h : TableOk codes) {i j : BitVec 8} (e : nodeAt codes i = nodeAt codes j) :
    i = j := by
  have hi : i.toNat < (nodeList codes).length := by rw [length_nodeList h]; exact i.isLt
  have hij : (nodeList codes)[i.toNat]? = (nodeList codes)[j.toNat]? := by
    rw [nodeList_getElem? h, nodeList_getElem? h, e]
  exact BitVec.eq_of_toNat_eq ((List.getElem?_inj hi (nodeList_nodup codes)).mp hij)

theorem nodeIndex_nodeAt {codes : CodeTable} (h : TableOk codes) (i : BitVec 8) :
    nodeIndex codes (nodeAt codes i) = i := nodeAt_inj h (nodeAt_nodeIndex h (isNode_nodeAt h i))

/-- A node by depth and value, from the symbols (R51). -/
theorem isNode_iff_exists_symbol {codes : CodeTable} (h : TableOk codes) (d p : Nat) :
    isNode codes ⟨d, p⟩ = true ↔
      ∃ s, s < 257 ∧ d < (codeOf codes s).len ∧ p = (codeOf codes s).val >>> ((codeOf codes s).len - d) := by
  rw [isNode_iff]
  constructor
  · rintro ⟨c, hc, hlt, hv⟩
    obtain ⟨s, hs, rfl⟩ := exists_codeOf h hc
    exact ⟨s, hs, hlt, hv.symm⟩
  · rintro ⟨s, hs, hlt, hv⟩
    exact ⟨_, codeOf_mem h hs, hlt, hv.symm⟩

/-- The node list begins with the root, below which nothing sorts (R51). -/
theorem nodeAt_zero {codes : CodeTable} (h : TableOk codes) : nodeAt codes 0#8 = ⟨0, 0⟩ := by
  have hroot := (mem_nodeList fun c hc => (h.lengths c hc).2.1).mpr (isNode_root h)
  have hsorted := nodeList_sorted codes
  show (nodeList codes).getD 0 ⟨0, 0⟩ = rootNode
  cases hl : nodeList codes with
  | nil => rfl
  | cons x rest =>
    rw [hl] at hroot hsorted
    obtain rfl | hr := List.mem_cons.mp hroot
    · rfl
    · have hlt := (List.pairwise_cons.mp hsorted).1 rootNode hr
      simp only [rootNode, Nat.not_lt_zero, and_false, or_self] at hlt

/-- The list R51 prints is the node list of R25's table. -/
theorem nodeList_codeTable : nodeList codeTable = printedNodes := by decide +kernel

/-- Settles O33. -/
theorem nodeListIsTheProperPrefixes : Obligations.NodeListIsTheProperPrefixes := by
  refine ⟨fun codes h => ?_, nodeList_codeTable⟩
  have hmem : ∀ x, x ∈ nodeList codes ↔ isNode codes x = true :=
    fun x => mem_nodeList fun c hc => (h.lengths c hc).2.1
  refine ⟨length_nodeList h, nodeList_sorted codes, fun d p => (hmem _).trans (isNode_iff_exists_symbol h d p),
    fun x => (hmem x).symm, fun i => ⟨nodeList_getElem? h i, nodeIndex_nodeAt h i, ?_⟩, nodeAt_zero h⟩
  exact Nat.le_of_lt_succ (len_of_isNode h (isNode_nodeAt h i))

/-! ## Accepting nodes -/

/-- R55: a bit string is accepting iff it is at most 7 bits, all 1. -/
theorem accepting_iff {x : BitString} (hx : x.val < 2 ^ x.len) :
    accepting x = true ↔ ∃ n, n ≤ 7 ∧ bitsOf x = List.replicate n true := by
  simp only [accepting, Bool.and_eq_true, decide_eq_true_eq, beq_iff_eq]
  constructor
  · rintro ⟨hl, hv⟩
    exact ⟨x.len, hl, by rw [← bitsOf_ones, ← hv]⟩
  · rintro ⟨n, hn, he⟩
    have hl : x.len = n := by simpa using congrArg List.length he
    subst hl
    have := Nat.two_pow_pos x.len
    exact ⟨hn, bitsOf_inj hx (by omega) (he.trans (bitsOf_ones _).symm)⟩

/-- R55: the accepting nodes of the list R51 prints. -/
theorem accepting_printedNodes : ∀ i : BitVec 8, accepting (printedNodes.getD i.toNat ⟨0, 0⟩) = true ↔
    i ∈ ([0#8, 2#8, 6#8, 14#8, 30#8, 52#8, 70#8, 74#8] : List (BitVec 8)) := by decide +kernel

/-- Settles O34. -/
theorem acceptingNodesAreThePadding : Obligations.AcceptingNodesAreThePadding := by
  refine ⟨fun codes h i => accepting_iff (val_of_isNode h (isNode_nodeAt h i)), fun i => ?_⟩
  rw [nodeAt, nodeList_codeTable]
  exact accepting_printedNodes i

/-! ## Legal command words -/

/-- OPC as R95 writes it. -/
theorem opcField_eq (w : Word) : opcField w = ((w >>> 24) &&& 0xFF#64).setWidth 8 := by
  rw [BitVec.setWidth_and]
  exact BitVec.and_allOnes.symm

/-- The IMM bits outside a mask, as R95 writes them. -/
theorem immField_and_not (w mask : Word) :
    immField w &&& ~~~(mask.setWidth 24) = ((w &&& 0xFFFFFF#64) &&& ~~~mask).setWidth 24 := by
  rw [BitVec.setWidth_and, BitVec.setWidth_and, BitVec.setWidth_not (by decide)]
  exact congrArg (· &&& ~~~(mask.setWidth 24)) BitVec.and_allOnes.symm

/-- A defined opcode names a command (R93). -/
theorem commandOf_of_formatOf {opc : BitVec 8} {f : Format} (h : formatOf opc = some f) (imm : BitVec 24) :
    ∃ c, commandOf opc imm = some c := by
  unfold formatOf at h
  unfold commandOf
  split at h <;> simp_all

/-- The three checks of R95 are all `decode` makes. -/
theorem decode_of_checks {w : Word} {f : Format} (hhigh : w >>> 32 = 0#64) (hopc : formatOf (opcField w) = some f)
    (himm : immField w &&& ~~~(opmask f) = 0#24) : ∃ c, decode w = .ok c := by
  obtain ⟨c, hc⟩ := commandOf_of_formatOf hopc (immField w)
  have hzero : w.extractLsb' 32 32 = 0#32 := congrArg (BitVec.setWidth 32) hhigh
  have hlegal : immLegal f (immField w) = true := by rw [immLegal, himm]; rfl
  exact ⟨c, by simp only [decode, hzero, hopc, hlegal, hc, if_true]⟩

/-- A legal value of CMD, in R95's words, decodes. -/
theorem decode_of_legalWord {w : Word} (h : legalWord w) : ∃ c, decode w = .ok c := by
  obtain ⟨hhigh, row, hrow, hopc, himm⟩ := h
  have hof := opcField_eq w
  have hif := immField_and_not w row.2
  rw [hopc] at hof
  rw [himm] at hif
  have hformat : ∃ f, formatOf (row.1.setWidth 8) = some f ∧ opmask f = row.2.setWidth 24 := by
    simp only [List.mem_cons, List.not_mem_nil, or_false] at hrow
    obtain rfl | rfl | rfl | rfl | rfl | rfl | rfl | rfl | rfl | rfl | rfl | rfl | rfl := hrow <;>
      exact ⟨_, rfl, rfl⟩
  obtain ⟨f, hf, hmask⟩ := hformat
  exact decode_of_checks hhigh (by rw [hof]; exact hf) (by rw [hmask, hif]; rfl)

/-! ## Which commands change each status -/

/-- What the rules let a command `c` do to the statuses and the results (R34, R35, R36, R54, R241, R247), apart from
setting ILL, which no command does. -/
structure StatusRule (c : Instr) (s t : State) : Prop where
  ovfCleared : s.encOvf = true → t.encOvf = false → c = .encInit ∨ c = .encRun ∨ c = .softReset
  illCleared : s.ill = true → t.ill = false → c = .clrErr ∨ c = .softReset
  codeSet : s.decCode = .ok → t.decCode ≠ .ok →
    (∃ n, c = .decNib n) ∨ (∃ b, c = .decByte b) ∨ c = .decEnd ∨ ∃ m, c = .decRun m
  ovfSet : s.encOvf = false → t.encOvf = true → (∃ b, c = .encSym b) ∨ c = .encFlush ∨ c = .encRun
  encResult : t.encResult ≠ s.encResult → c = .encRun ∨ c = .softReset
  decResult : t.decResult ≠ s.decResult → (∃ m, c = .decRun m) ∨ c = .softReset

/-- An instruction that clears and sets no status, but for ILL set and CODE cleared, and keeps the results. -/
theorem statusRule_of_kept (c : Instr) {s t : State} (hovf : t.encOvf = s.encOvf) (hill : s.ill = true → t.ill = true)
    (hcode : s.decCode = .ok → t.decCode = .ok) (henc : t.encResult = s.encResult)
    (hdec : t.decResult = s.decResult) : StatusRule c s t where
  ovfCleared h h' := by rw [hovf, h] at h'; cases h'
  illCleared h h' := by rw [hill h] at h'; cases h'
  codeSet h h' := absurd (hcode h) h'
  ovfSet h h' := by rw [hovf, h] at h'; cases h'
  encResult h := absurd henc h
  decResult h := absurd hdec h

/-- ENC_INIT and ENC_RUN alone of the encoder's commands clear OVF: after an Overflow the others do nothing (R34). -/
theorem ovfCleared_of_encoderCommand {c : Instr} {s t : State} (hc : isEncoderCommand c = true)
    (h : exec c s = .next t) (hs : s.encOvf = true) (ht : t.encOvf = false) : c = .encInit ∨ c = .encRun := by
  obtain rfl | ⟨b, rfl⟩ | rfl | rfl := (isEncoderCommand_iff c).mp hc <;> cases h
  · exact .inl rfl
  · rw [symStep_error b hs, hs] at ht; cases ht
  · rw [flushStep_error hs, hs] at ht; cases ht
  · exact .inr rfl

/-- ENC_RUN alone of the encoder's commands writes ENC_RESULT (R35). -/
theorem encResult_of_encoderCommand {c : Instr} {s t : State} (hc : isEncoderCommand c = true)
    (h : exec c s = .next t) : c = .encRun ∨ t.encResult = s.encResult := by
  obtain rfl | ⟨b, rfl⟩ | rfl | rfl := (isEncoderCommand_iff c).mp hc <;> cases h
  · exact .inr rfl
  · exact .inr (by rw [symStep_frame])
  · exact .inr (by rw [flushStep_frame])
  · exact .inl rfl

theorem ovfSet_of_encoderCommand {c : Instr} {s t : State} (hc : isEncoderCommand c = true)
    (h : exec c s = .next t) (ht : t.encOvf = true) : (∃ b, c = .encSym b) ∨ c = .encFlush ∨ c = .encRun := by
  obtain rfl | hrest := (isEncoderCommand_iff c).mp hc
  · cases h; cases ht
  · exact hrest

theorem statusRule_of_encoderCommand {c : Instr} {s t : State} (hc : isEncoderCommand c = true)
    (h : exec c s = .next t) : StatusRule c s t := by
  have hill : t.ill = s.ill := by rw [encoderCommand_frame hc h]
  have hcode : t.decCode = s.decCode := by rw [encoderCommand_frame hc h]
  have hdec : t.decResult = s.decResult := by rw [encoderCommand_frame hc h]
  have kept := statusRule_of_kept c (s := s) (t := { t with encOvf := s.encOvf, encResult := s.encResult }) rfl
    hill.trans hcode.trans rfl hdec
  exact {
    ovfCleared := fun hs ht => (ovfCleared_of_encoderCommand hc h hs ht).imp_right .inl
    illCleared := kept.illCleared
    codeSet := kept.codeSet
    ovfSet := fun _ ht => ovfSet_of_encoderCommand hc h ht
    encResult := fun hne => .inl ((encResult_of_encoderCommand hc h).resolve_right hne)
    decResult := kept.decResult }

/-- DEC_RUN alone of the decoder's commands writes DEC_RESULT (R54). -/
theorem decResult_of_decoderCommand {c : Instr} {s t : State} (hc : isDecoderCommand c = true)
    (h : exec c s = .next t) : (∃ m, c = .decRun m) ∨ t.decResult = s.decResult := by
  obtain rfl | ⟨n, rfl⟩ | ⟨b, rfl⟩ | rfl | ⟨m, rfl⟩ := (isDecoderCommand_iff c).mp hc <;> cases h
  · exact .inr rfl
  · exact .inr (by rw [nibStep_frame])
  · exact .inr (by rw [byteStep_frame])
  · exact .inr (by rw [endStep_frame])
  · exact .inl ⟨m, rfl⟩

theorem codeSet_of_decoderCommand {c : Instr} {s t : State} (hc : isDecoderCommand c = true)
    (h : exec c s = .next t) (ht : t.decCode ≠ .ok) :
    (∃ n, c = .decNib n) ∨ (∃ b, c = .decByte b) ∨ c = .decEnd ∨ ∃ m, c = .decRun m := by
  obtain rfl | hrest := (isDecoderCommand_iff c).mp hc
  · cases h; exact absurd rfl ht
  · exact hrest

theorem statusRule_of_decoderCommand {c : Instr} {s t : State} (hc : isDecoderCommand c = true)
    (h : exec c s = .next t) : StatusRule c s t := by
  have hovf : t.encOvf = s.encOvf := by rw [decoderCommand_frame hc h]
  have hill : t.ill = s.ill := by rw [decoderCommand_frame hc h]
  have henc : t.encResult = s.encResult := by rw [decoderCommand_frame hc h]
  have kept := statusRule_of_kept c (s := s) (t := { t with decCode := s.decCode, decResult := s.decResult }) hovf
    hill.trans id henc rfl
  exact {
    ovfCleared := kept.ovfCleared
    illCleared := kept.illCleared
    codeSet := fun _ ht => codeSet_of_decoderCommand hc h ht
    ovfSet := kept.ovfSet
    encResult := kept.encResult
    decResult := fun hne => .inl ((decResult_of_decoderCommand hc h).resolve_right hne) }

theorem statusRule_clrErr (s : State) : StatusRule .clrErr s (clearCommandError s) :=
  { statusRule_of_kept .clrErr (s := s) (t := { s with errCmd := 0#64 }) rfl id id rfl rfl with
    illCleared := fun _ _ => .inl rfl }

theorem statusRule_softReset (s : State) : StatusRule .softReset s (resetBlock s) where
  ovfCleared _ _ := .inr (.inr rfl)
  illCleared _ _ := .inr rfl
  codeSet _ h := absurd rfl h
  ovfSet _ h := by cases h
  encResult _ := .inr rfl
  decResult _ := .inr rfl

theorem statusRule_of_command {c : Instr} {s t : State} (hc : c.isCommand = true) (h : exec c s = .next t) :
    StatusRule c s t := by
  cases c with
  | nop | sinkReset => cases h; exact statusRule_of_kept _ rfl id id rfl rfl
  | clrErr => cases h; exact statusRule_clrErr s
  | softReset => cases h; exact statusRule_softReset s
  | encInit | encSym | encFlush | encRun => exact statusRule_of_encoderCommand rfl h
  | decInit | decNib | decByte | decEnd | decRun => exact statusRule_of_decoderCommand rfl h
  | rd | wr => cases hc

/-- A register write keeps the statuses, but for the CODE that a write to DEC_STATE clears (R180). -/
theorem statusRule_regWrite (c : Instr) (r : Reg) (v : Word) (s : State) : StatusRule c s (regWrite r v s) := by
  cases r with
  | decState => exact statusRule_of_kept c rfl id (fun _ => rfl) rfl rfl
  | _ => exact statusRule_of_kept c rfl id id rfl rfl

theorem statusRule_of_exec {i : Instr} {s t : State} (h : exec i s = .next t) : StatusRule (performed i) s t := by
  obtain ⟨hc, hx⟩ | ⟨w, e, -, -, rfl⟩ | ⟨v, rfl⟩ | ⟨r, v, rfl⟩ := exec_next h
  · exact statusRule_of_command hc hx
  · exact statusRule_of_kept _ rfl (fun _ => rfl) id rfl rfl
  · exact statusRule_of_kept _ rfl id id rfl rfl
  · exact statusRule_regWrite _ r v s

/-- No command sets ILL (R36). -/
theorem ill_of_command {c : Instr} {s t : State} (hc : c.isCommand = true) (h : exec c s = .next t)
    (hs : s.ill = false) : t.ill = false := by
  cases c with
  | nop | sinkReset => cases h; exact hs
  | clrErr | softReset => cases h; rfl
  | encInit | encSym | encFlush | encRun => rw [encoderCommand_frame rfl h]; exact hs
  | decInit | decNib | decByte | decEnd | decRun => rw [decoderCommand_frame rfl h]; exact hs
  | rd | wr => cases hc

theorem ill_regWrite (r : Reg) (v : Word) (s : State) : (regWrite r v s).ill = s.ill := by
  cases r <;> rfl

/-- ILL is set by the write of an illegal value to CMD only (R36, R243). -/
theorem illSet_of_exec {i : Instr} {s t : State} (h : exec i s = .next t) (hs : s.ill = false) (ht : t.ill = true) :
    ∃ w, i = .wr 64 0x010#12 w ∧ ¬ legalWord w := by
  obtain ⟨hc, hx⟩ | ⟨w, e, rfl, hw, -⟩ | ⟨v, rfl⟩ | ⟨r, v, rfl⟩ := exec_next h
  · rw [ill_of_command hc hx hs] at ht; cases ht
  · refine ⟨w, rfl, fun hl => ?_⟩
    obtain ⟨c, hc⟩ := decode_of_legalWord hl
    rw [hw] at hc
    cases hc
  · exact absurd (hs.symm.trans ht) (by decide)
  · rw [ill_regWrite, hs] at ht; cases ht

/-- Settles O52, from what each instruction can do. -/
theorem statusChangesOnlyByItsCommands : Obligations.StatusChangesOnlyByItsCommands := by
  intro i s t h
  obtain ⟨ovfCleared, illCleared, codeSet, ovfSet, encResult, decResult⟩ := statusRule_of_exec h
  exact ⟨ovfCleared, illCleared, codeSet, ovfSet, illSet_of_exec h, encResult, decResult⟩

end Sys2Proof.Proofs
end

section
/-! PROOFS of the memory family (R70-R87): chunk-store bytes no register shows, the register window, the bytes other
agents touch, and where host memory changes. -/

namespace Sys2Proof.Proofs

open Sys2Proof.Machine

/-! ## Chunk-store bytes beyond the stream -/

/-- `s` with the chunk store `m`. -/
def withStore (m : Memory) (s : State) : State := { s with store := m }

/-- Two states that differ only in chunk-store bytes beyond the chain's stream (R72), with what an append to the chain
needs to keep them so. -/
structure HiddenApart (s u : State) : Prop where
  params : paramsOk s
  chain : chainOk s
  store : Memory.wf s.store = true
  otherStore : Memory.wf u.store = true
  same : sameButHidden s u

/-- The fields the chain's stream and its invariants speak of. -/
def chainFields (s : State) : BitVec 32 × BitVec 16 × Memory × List Nat × Option Nat :=
  (s.chunkSize, s.maxChunks, s.store, s.chainFill, s.chainCur)

/-- The stores stay hidden apart under any state with the same chain. -/
theorem hiddenApart_of_chainFields {s t u : State} (h : HiddenApart s u) (hchain : chainFields t = chainFields s) :
    HiddenApart t (withStore u.store t) := by
  obtain ⟨hp, hc, hw, hwu, -, hsame⟩ := h
  simp only [chainFields, Prod.mk.injEq] at hchain
  obtain ⟨hsize, hmax, hst, hfill, hcur⟩ := hchain
  have hlen : chainLen t = chainLen s := by simp only [chainLen, chunkBytes, fillOf, hsize, hfill, hcur]
  refine ⟨?_, ?_, hst ▸ hw, hwu, rfl, ?_⟩
  · rw [paramsOk, hsize, hmax]; exact hp
  · simp only [chainOk, chunkBytes, fillOf, hsize, hmax, hfill, hcur]; exact hc
  · rw [hlen, hst]; exact hsame

/-- An operation that neither reads the chunk store nor changes the chain shows no hidden byte. -/
theorem hiddenApart_map {s u : State} (f : State → State) (h : HiddenApart s u)
    (hstore : f (withStore u.store s) = withStore u.store (f s)) (hchain : chainFields (f s) = chainFields s) :
    HiddenApart (f s) (f u) := by
  rw [(congrArg f h.same.1).trans hstore]
  exact hiddenApart_of_chainFields h hchain

/-! ### An append to the sink -/

theorem chainAdvance_withStore (m : Memory) (n : Nat) (s : State) :
    chainAdvance n (withStore m s) = (chainAdvance n s).map (withStore m) := by
  simp only [chainAdvance, apply_ite (Option.map (withStore m))]
  rfl

theorem chainEnsure_withStore (m : Memory) (s : State) :
    chainEnsure (withStore m s) = (chainEnsure s).map (withStore m) := by
  have hcur : (withStore m s).chainCur = s.chainCur := rfl
  rw [chainEnsure, chainEnsure, hcur]
  cases s.chainCur with
  | none => exact chainAdvance_withStore m 0 s
  | some c =>
    simp only [apply_ite (Option.map (withStore m)), ← chainAdvance_withStore]
    rfl

/-- A byte put at a cursor goes to the end of the stream, in whatever chunk store (R210). -/
theorem chainPut_withStore {s : State} {c : Nat} (hcur : s.chainCur = some c) (m : Memory) (v : Byte) :
    chainPut v (withStore m s) = withStore (writeCell m (chainLen s) v) (chainPut v s) := by
  have hcur' : (withStore m s).chainCur = some c := hcur
  simp only [chainPut, chainLen, hcur, hcur']
  rfl

/-- In chain mode SinkAppend does the same in whatever chunk store: it writes the byte at the end of the stream. -/
theorem sinkAppend_withStore {s : State} (hm : s.sinkMode = .chain) (hp : paramsOk s) (hc : chainOk s) (m : Memory)
    (v : Byte) :
    sinkAppend v (withStore m s) = (sinkAppend v s).map (withStore (writeCell m (chainLen s) v)) := by
  have hm' : (withStore m s).sinkMode = .chain := hm
  simp only [sinkAppend, hm, hm', chainEnsure_withStore]
  obtain ⟨he, -⟩ | ⟨t, c, he, hcur, -, -, hlen, -⟩ := chainEnsure_spec hp hc
  · simp only [he, Option.map_none]
  · simp only [he, Option.map_some, chainPut_withStore hcur, hlen]

/-- A byte appended in chain mode makes the stream longer by one. -/
theorem chainLen_of_sinkAppend {v : Byte} {s t : State} (hm : s.sinkMode = .chain) (h : sinkAppend v s = some t)
    (hp : paramsOk s) (hc : chainOk s) (hw : Memory.wf s.store = true) :
    chainOk t ∧ chainLen t = chainLen s + 1 := by
  obtain ⟨he, -⟩ | ⟨u, he, htook, -, hu, -, -⟩ := sinkAppend_spec hp hw hc v <;> rw [h] at he <;> cases he
  simp only [sinkTook, hm] at htook
  have hlen := congrArg List.length htook.1
  rw [List.length_append, length_chainStream, length_chainStream] at hlen
  exact ⟨hu, hlen⟩

theorem hiddenApart_sinkAppend_chain {s t u : State} (h : HiddenApart s u) (v : Byte) (hm : s.sinkMode = .chain)
    (ht : sinkAppend v s = some t) : HiddenApart t (withStore (writeCell u.store (chainLen s) v) t) := by
  obtain ⟨hp, hc, hw, hwu, -, hsame⟩ := h
  obtain ⟨hct, hlen⟩ := chainLen_of_sinkAppend hm ht hp hc hw
  obtain ⟨hstore, -, -⟩ := sinkAppend_chain_store hm ht hp hc hw
  have hmax : t.maxChunks = s.maxChunks := by rw [sinkAppend_frame ht]
  have hsize : t.chunkSize = s.chunkSize := by rw [sinkAppend_frame ht]
  refine ⟨?_, hct, ?_, wf_writeCell hwu _ v, rfl, fun k hk => ?_⟩
  · rw [paramsOk, hsize, hmax]; exact hp
  · rw [hstore]; exact wf_writeCell hw _ v
  · show readCell (writeCell u.store (chainLen s) v) k = readCell t.store k
    rw [hstore, readCell_writeCell hwu, readCell_writeCell hw]
    obtain rfl | hlt : k = chainLen s ∨ k < chainLen s := by omega
    · rw [if_pos rfl, if_pos rfl]
    · rw [hsame k hlt]

/-- The byte a fixed sink with room takes (R210). -/
def putFixed (v : Byte) (s : State) : State :=
  { s with mem := writeCell s.mem (s.encDst + s.encCount).toNat v, encCount := s.encCount + 1#64 }

/-- SinkAppend does the same in both states, and the byte it appends is hidden in neither. -/
theorem hiddenApart_sinkAppend {s u : State} (h : HiddenApart s u) (v : Byte) :
    Option.Rel HiddenApart (sinkAppend v s) (sinkAppend v u) := by
  have hu : u = withStore u.store s := h.same.1
  cases hm : s.sinkMode with
  | fixed =>
    have hmu : u.sinkMode = .fixed := by rw [hu]; exact hm
    have hfull : u.encCap ≤ u.encCount ↔ s.encCap ≤ s.encCount := by rw [hu]; rfl
    simp only [sinkAppend_fixed hm, sinkAppend_fixed hmu, hfull]
    split
    · exact .none
    · exact .some (hiddenApart_map (putFixed v) h rfl rfl)
  | chain =>
    rw [hu, sinkAppend_withStore hm h.params h.chain]
    cases ht : sinkAppend v s with
    | none => exact .none
    | some t => exact .some (hiddenApart_sinkAppend_chain h v hm ht)

/-! ### The encoder shows no hidden byte -/

theorem hiddenApart_overflow {s u : State} (h : HiddenApart s u) :
    HiddenApart (raiseError .encOverflow s) (raiseError .encOverflow u) :=
  hiddenApart_map (raiseError .encOverflow) h rfl rfl

theorem hiddenApart_drainBytes {s u : State} (fuel : Nat) (h : HiddenApart s u) :
    HiddenApart (drainBytes fuel s) (drainBytes fuel u) := by
  induction fuel generalizing s u with
  | zero => exact h
  | succ fuel ih =>
    have hbits : u.encNbits = s.encNbits := by rw [h.same.1]
    have hold : oldestByte u = oldestByte s := by rw [h.same.1]; rfl
    have happ := hiddenApart_sinkAppend h (oldestByte s)
    rw [drainBytes, drainBytes, hbits, hold]
    generalize sinkAppend (oldestByte s) s = a, sinkAppend (oldestByte s) u = b at happ ⊢
    split
    · cases happ with
      | none => exact hiddenApart_overflow h
      | some ht => exact ih (hiddenApart_map dropByte ht rfl rfl)
    · exact h

theorem hiddenApart_symStep {s u : State} (b : Byte) (h : HiddenApart s u) :
    HiddenApart (symStep b s) (symStep b u) := by
  have hovf : u.encOvf = s.encOvf := by rw [h.same.1]
  have hcodes : u.codes = s.codes := by rw [h.same.1]
  rw [symStep, symStep, hovf, hcodes]
  split
  · exact h
  · exact hiddenApart_drainBytes 8 (hiddenApart_map (pushCode (codeOf s.codes b.toNat)) h rfl rfl)

/-- The accumulator emptied (R142). -/
def clearAcc (s : State) : State := { s with encAcc := 0#64, encNbits := 0#6 }

theorem hiddenApart_flushStep {s u : State} (h : HiddenApart s u) : HiddenApart (flushStep s) (flushStep u) := by
  have hovf : u.encOvf = s.encOvf := by rw [h.same.1]
  have hbits : u.encNbits = s.encNbits := by rw [h.same.1]
  have hpad : padByte u = padByte s := by rw [h.same.1]; rfl
  have happ := hiddenApart_sinkAppend h (padByte s)
  rw [flushStep, flushStep, hovf, hbits, hpad]
  generalize sinkAppend (padByte s) s = a, sinkAppend (padByte s) u = b at happ ⊢
  split
  · exact h
  · split
    · exact h
    · cases happ with
      | none => exact hiddenApart_overflow h
      | some ht => exact hiddenApart_map clearAcc ht rfl rfl

theorem hiddenApart_encLoop {s u : State} (n : Nat) (i : Word) (h : HiddenApart s u) :
    HiddenApart (encLoop n i s) (encLoop n i u) := by
  induction n generalizing i s u with
  | zero => exact h
  | succ n ih =>
    have hread : hostRead u (u.encSrc + i) = hostRead s (s.encSrc + i) := by rw [h.same.1]; rfl
    have sym := hiddenApart_symStep (hostRead s (s.encSrc + i)) h
    have hovf : (symStep (hostRead s (s.encSrc + i)) u).encOvf = (symStep (hostRead s (s.encSrc + i)) s).encOvf := by
      rw [sym.same.1]
    simp only [encLoop, hread, hovf]
    split
    · exact sym
    · exact ih _ sym

/-- ENC_RESULT as ENC_RUN leaves it (R35, R143). -/
def writeEncResult (s : State) : State := { s with encResult := if s.encOvf then overflowResult else s.encCount }

theorem hiddenApart_runEncoder {s u : State} (h : HiddenApart s u) : HiddenApart (runEncoder s) (runEncoder u) := by
  have hlen : u.encLen = s.encLen := by rw [h.same.1]
  have hstart := hiddenApart_map encStart h rfl rfl
  rw [runEncoder_eq, runEncoder_eq, hlen]
  exact hiddenApart_map writeEncResult (hiddenApart_flushStep (hiddenApart_encLoop _ _ hstart)) rfl rfl

/-! ### No instruction shows a hidden byte -/

theorem outcomes_of_encoderCommand {c : Instr} {s u : State} (hc : isEncoderCommand c = true)
    (h : HiddenApart s u) : outcomesRelated sameButHidden (exec c s) (exec c u) := by
  obtain rfl | ⟨b, rfl⟩ | rfl | rfl := (isEncoderCommand_iff c).mp hc
  · exact (hiddenApart_map encStart h rfl rfl).same
  · exact (hiddenApart_symStep b h).same
  · exact (hiddenApart_flushStep h).same
  · exact (hiddenApart_runEncoder h).same

/-- A decoder command keeps the encoder and its sink, and answers the same whatever they hold (R19). -/
theorem outcomes_of_decoderCommand {c : Instr} {s t u : State} (hc : isDecoderCommand c = true)
    (ht : exec c s = .next t) (h : HiddenApart s u) : outcomesRelated sameButHidden (exec c s) (exec c u) := by
  have hu : withEncoderOf u s = u := by rw [h.same.1]; rfl
  have hx : exec c u = .next (withEncoderOf u t) := by rw [← decoderCommand_withEncoderOf u hc ht, hu]
  have hkeep : chainFields t = chainFields s := by rw [decoderCommand_frame hc ht]; rfl
  have hw : withEncoderOf u t = withStore u.store t := by
    rw [decoderCommand_frame hc ht, h.same.1]; rfl
  rw [ht, hx, hw]
  exact (hiddenApart_of_chainFields h hkeep).same

theorem regValue_of_hiddenApart {s u : State} (h : HiddenApart s u) (r : Reg) : regValue r u = regValue r s := by
  cases r with
  | chainRdata =>
    have hlen : chainLen u = chainLen s := by rw [h.same.1]; rfl
    have hraddr : u.chainRaddr = s.chainRaddr := by rw [h.same.1]
    simp only [regValue, hraddr]
    by_cases hk : s.chainRaddr.toNat < chainLen s
    · rw [chainByte_eq s hk, chainByte_eq u (hlen ▸ hk), h.same.2 _ hk]
    · simp only [chainByte, hlen, if_neg hk]
  | _ => rw [h.same.1]; rfl

theorem offsetValue_of_hiddenApart {s u : State} (h : HiddenApart s u) (off : BitVec 12) :
    offsetValue off u = offsetValue off s := by
  simp only [offsetValue, regValue_of_hiddenApart h]

theorem outcomes_of_rd {s u : State} (h : HiddenApart s u) (width : Nat) (off : BitVec 12) :
    outcomesRelated sameButHidden (execRd width off s) (execRd width off u) := by
  simp only [execRd, offsetValue_of_hiddenApart h]
  split
  · split
    · exact (hiddenApart_map (returned (offsetValue off s)) h rfl rfl).same
    · rfl
  · rfl

theorem chainLen_keepChunks (k : Nat) (s : State) : chainLen (keepChunks k s) = 0 := by
  by_cases h0 : min k s.chainFill.length = 0 <;>
    simp only [chainLen, keepChunks_chainCur, h0, if_true, if_false, fillOf_keepChunks, Nat.zero_mul, Nat.add_zero]

/-- With nothing in the stream every chunk-store byte is hidden (R72). -/
theorem sameButHidden_of_empty {t : State} (h0 : chainLen t = 0) (m : Memory) : sameButHidden t (withStore m t) :=
  ⟨rfl, fun k hk => absurd hk (by omega)⟩

theorem outcomes_of_command {c : Instr} {s u : State} (hc : c.isCommand = true) (h : HiddenApart s u) :
    outcomesRelated sameButHidden (exec c s) (exec c u) := by
  cases c with
  | nop => exact h.same
  | clrErr => exact (hiddenApart_map clearCommandError h rfl rfl).same
  | softReset =>
    rw [h.same.1]
    exact sameButHidden_of_empty (t := resetBlock s) rfl u.store
  | sinkReset k =>
    rw [h.same.1]
    exact sameButHidden_of_empty (chainLen_keepChunks k.toNat s) u.store
  | encInit | encSym | encFlush | encRun => exact outcomes_of_encoderCommand rfl h
  | decInit | decNib | decByte | decEnd | decRun => exact outcomes_of_decoderCommand rfl rfl h
  | rd | wr => cases hc

theorem outcomes_of_dispatch {s u : State} (h : HiddenApart s u) (w : Word) :
    outcomesRelated sameButHidden (dispatch w s) (dispatch w u) := by
  cases hd : decode w with
  | ok c =>
    rw [dispatch_ok hd, dispatch_ok hd]
    exact outcomes_of_command (decode_isCommand hd) h
  | error e =>
    rw [dispatch_error hd, dispatch_error hd]
    exact (hiddenApart_map (raiseError (.illegalCommand w)) h rfl rfl).same

theorem hiddenApart_regWrite {s u : State} (h : HiddenApart s u) (r : Reg) (v : Word) :
    HiddenApart (regWrite r v s) (regWrite r v u) :=
  hiddenApart_map (regWrite r v) h (by cases r <;> rfl) (by cases r <;> rfl)

theorem outcomes_of_wr {s u : State} (h : HiddenApart s u) (width : Nat) (off : BitVec 12) (v : Word) :
    outcomesRelated sameButHidden (execWr width off v s) (execWr width off v u) := by
  simp only [execWr]
  split
  · split
    · cases regAt off with
      | none => exact h.same
      | some r =>
        dsimp only
        split
        · exact outcomes_of_dispatch h v
        · exact (hiddenApart_regWrite h r v).same
    · rfl
  · rfl

/-- Settles O51: the registers show the stream only, and an append writes the byte that joins it in both stores. -/
theorem hiddenChunkBytesAreUnobservable : Obligations.HiddenChunkBytesAreUnobservable := by
  intro i s u hs hwu hsame
  have h : HiddenApart s u := ⟨hs.params, hs.chain, hs.memories.2.2.1, hwu, hsame⟩
  cases i with
  | rd width off => exact outcomes_of_rd h width off
  | wr width off v => exact outcomes_of_wr h width off v
  | _ => exact outcomes_of_command rfl h

/-! ## The register window and the host's accesses -/

/-- Settles O24: the width is tested first, then the alignment. -/
theorem otherAccessesAreRefused : Obligations.OtherAccessesAreRefused := by
  intro s width off v
  constructor
  · intro hw
    have hno : accessWidthOk width = false := beq_false_of_ne hw
    simp [exec, execRd, execWr, hno]
  · intro ha
    have hno : offsetAligned off = false := beq_false_of_ne ha
    simp [exec, execRd, execWr, accessWidthOk, hno]

/-- Settles O11. -/
theorem storeEventStoresOneByte : Obligations.StoreEventStoresOneByte := by
  intro s addr v rest hp hw
  refine ⟨hostWrite addr v { s with pending := rest }, by simp only [step, hp], rfl, fun b => ?_⟩
  exact readCell_writeCell hw addr.toNat b v

/-- The low 12 bits of BLOCK_BASE are 0, so an offset stands in them (R74). -/
theorem blockBase_add (s : State) (off : BitVec 12) : blockBase s + off.setWidth 64 = s.blockPage ++ off := by
  rw [BitVec.setWidth_eq_append (by decide : 12 ≤ 64)]
  exact BitVec.append_zero_add_zero_append

theorem selectOffset_blockBase_add (s : State) (off : BitVec 12) :
    selectOffset s (blockBase s + off.setWidth 64) = some off := by
  rw [blockBase_add, selectOffset, BitVec.extractLsb'_append_eq_left, BitVec.extractLsb'_append_eq_right, if_pos rfl]

theorem selectOffset_eq_none {s : State} {addr : Word} (h : addr >>> 12 ≠ blockBase s >>> 12) :
    selectOffset s addr = none := by
  refine if_neg fun hpage => h ?_
  have hbase : (blockBase s).extractLsb' 12 52 = s.blockPage := BitVec.extractLsb'_append_eq_left
  have hsame : addr.extractLsb' 12 (64 - 12) = (blockBase s).extractLsb' 12 (64 - 12) := hpage.trans hbase.symm
  rw [BitVec.ushiftRight_eq_extractLsb'_of_lt (by decide), BitVec.ushiftRight_eq_extractLsb'_of_lt (by decide), hsame]

/-- Settles O12: an address of the block's page selects its low 12 bits, another page none. -/
theorem registerWindowIsAtBlockBase : Obligations.RegisterWindowIsAtBlockBase := by
  intro s width v raced rest
  refine ⟨fun off => ?_, fun addr h => ?_⟩
  · have hsel : ∀ e, selectOffset { s with pending := e } (blockBase s + off.setWidth 64) = some off :=
      fun e => selectOffset_blockBase_add s off
    simp only [step, hsel]
    exact ⟨rfl, rfl⟩
  · have hsel : ∀ e, selectOffset { s with pending := e } addr = none := fun e => selectOffset_eq_none h
    simp only [step, hsel, and_self]

/-! ## What an instruction stores in host memory -/

/-- One byte stored at an address that satisfies `p`. -/
def StoreIn (p : Nat → Prop) (m m' : Memory) : Prop := ∃ a v, p a ∧ m' = writeCell m a v

/-- Bytes stored one after another, each at an address that satisfies `p`. -/
abbrev StoresIn (p : Nat → Prop) : Memory → Memory → Prop := Relation.ReflTransGen (StoreIn p)

theorem storesIn_single {p : Nat → Prop} (m : Memory) {a : Nat} (v : Byte) (h : p a) :
    StoresIn p m (writeCell m a v) := .single ⟨a, v, h, rfl⟩

theorem storesIn_mono {p q : Nat → Prop} (hpq : ∀ a, p a → q a) {m m' : Memory} (h : StoresIn p m m') :
    StoresIn q m m' :=
  Relation.ReflTransGen.mono (fun _ _ ⟨a, v, ha, e⟩ => ⟨a, v, hpq a ha, e⟩) m m' h

theorem readCell_of_storesIn {p : Nat → Prop} {m m' : Memory} (h : StoresIn p m m') {a : Nat} (ha : ¬ p a) :
    readCell m' a = readCell m a := by
  induction h with
  | refl => rfl
  | tail _ hstep ih =>
    obtain ⟨b, v, hb, rfl⟩ := hstep
    have hab : a ≠ b := fun e => ha (e ▸ hb)
    rw [readCell_writeCell_other _ v hab, ih]

theorem wf_of_storesIn {p : Nat → Prop} {m m' : Memory} (h : StoresIn p m m') (hw : Memory.wf m = true) :
    Memory.wf m' = true := by
  induction h with
  | refl => exact hw
  | tail _ hstep ih =>
    obtain ⟨b, v, -, rfl⟩ := hstep
    exact wf_writeCell ih b v

/-! ### The decoder -/

/-- A count below a capacity names a byte of the buffer. -/
theorem inBuffer_of_lt {base count cap : Word} (h : count < cap) : inBuffer base cap.toNat (base + count).toNat :=
  ⟨count.toNat, h, by rw [BitVec.ofNat_toNat, BitVec.setWidth_eq]⟩

/-- The decoder's output buffer (R56, R71). -/
def decBuffer (s : State) : Nat → Prop := inBuffer s.decDst s.decCap.toNat

theorem stores_nibStep (n : BitVec 4) (s : State) : StoresIn (decBuffer s) s.mem (nibStep n s).mem := by
  by_cases hc : s.decCode = .ok
  · obtain ⟨-, e⟩ | ⟨y, -, e⟩ | ⟨y, b, -, -, e⟩ | ⟨y, b, -, hlt, e⟩ := nibStep_cases n hc <;> rw [e]
    · exact storesIn_single s.mem b (inBuffer_of_lt hlt)
  · rw [nibStep_error n hc]

theorem stores_byteStep (b : Byte) (s : State) : StoresIn (decBuffer s) s.mem (byteStep b s).mem := by
  have high := stores_nibStep (b.extractLsb' 4 4) s
  have low := stores_nibStep (b.extractLsb' 0 4) (nibStep (b.extractLsb' 4 4) s)
  have hbuf : decBuffer (nibStep (b.extractLsb' 4 4) s) = decBuffer s := by rw [nibStep_frame]; rfl
  rw [hbuf] at low
  simp only [byteStep]
  split
  · split <;> exact high.trans low
  · exact high

theorem stores_decLoop (n : Nat) (i : Word) (s : State) : StoresIn (decBuffer s) s.mem (decLoop n i s).mem := by
  induction n generalizing i s with
  | zero => exact .refl
  | succ n ih =>
    have byte := stores_byteStep (hostRead s (s.decSrc + i)) s
    have rest := ih (i + 1#64) (byteStep (hostRead s (s.decSrc + i)) s)
    have hbuf : decBuffer (byteStep (hostRead s (s.decSrc + i)) s) = decBuffer s := by rw [byteStep_frame]; rfl
    rw [hbuf] at rest
    simp only [decLoop]
    split
    · exact byte.trans rest
    · exact byte

theorem stores_runDecoder (m : DecMode) (s : State) : StoresIn (decBuffer s) s.mem (runDecoder m s).mem := by
  rw [runDecoder_eq]
  split
  · rw [finishRun_frame]
    exact stores_decLoop _ _ (clearCounts s)
  · exact .refl

/-! ### The encoder -/

/-- The encoder's output buffer, which a chain sink does not have (R30, R71). -/
def encBuffer (s : State) (a : Nat) : Prop := inBuffer s.encDst s.encCap.toNat a ∧ s.sinkMode = .fixed

theorem mem_chainPut (v : Byte) (s : State) : (chainPut v s).mem = s.mem := by
  unfold chainPut
  split <;> rfl

theorem stores_sinkAppend {v : Byte} {s t : State} (h : sinkAppend v s = some t) :
    StoresIn (encBuffer s) s.mem t.mem := by
  cases hm : s.sinkMode with
  | fixed =>
    rw [sinkAppend_fixed hm] at h
    split at h
    · cases h
    · rename_i hlt
      cases h
      exact storesIn_single s.mem v ⟨inBuffer_of_lt (BitVec.not_le.mp hlt), hm⟩
  | chain =>
    simp only [sinkAppend, hm] at h
    cases he : chainEnsure s with
    | none => rw [he] at h; cases h
    | some u =>
      rw [he] at h
      cases h
      rw [mem_chainPut, (chainEnsure_some he).1]

theorem encBuffer_of_sinkAppend {v : Byte} {s t : State} (h : sinkAppend v s = some t) :
    encBuffer t = encBuffer s := by
  rw [sinkAppend_frame h]; rfl

theorem stores_drainBytes (fuel : Nat) (s : State) : StoresIn (encBuffer s) s.mem (drainBytes fuel s).mem := by
  induction fuel generalizing s with
  | zero => exact .refl
  | succ fuel ih =>
    rw [drainBytes]
    split
    · split
      · exact .refl
      · rename_i t ht
        have rest : StoresIn (encBuffer t) t.mem (drainBytes fuel (dropByte t)).mem := ih (dropByte t)
        rw [encBuffer_of_sinkAppend ht] at rest
        exact (stores_sinkAppend ht).trans rest
    · exact .refl

theorem stores_symStep (b : Byte) (s : State) : StoresIn (encBuffer s) s.mem (symStep b s).mem := by
  rw [symStep]
  split
  · exact .refl
  · exact stores_drainBytes 8 (pushCode (codeOf s.codes b.toNat) s)

theorem stores_flushStep (s : State) : StoresIn (encBuffer s) s.mem (flushStep s).mem := by
  rw [flushStep]
  split
  · exact .refl
  · split
    · exact .refl
    · split
      · exact .refl
      · rename_i t ht
        exact (stores_sinkAppend ht :)

theorem stores_encLoop (n : Nat) (i : Word) (s : State) : StoresIn (encBuffer s) s.mem (encLoop n i s).mem := by
  induction n generalizing i s with
  | zero => exact .refl
  | succ n ih =>
    have sym := stores_symStep (hostRead s (s.encSrc + i)) s
    have rest := ih (i + 1#64) (symStep (hostRead s (s.encSrc + i)) s)
    have hbuf : encBuffer (symStep (hostRead s (s.encSrc + i)) s) = encBuffer s := by rw [symStep_frame]; rfl
    rw [hbuf] at rest
    simp only [encLoop]
    split
    · exact sym
    · exact sym.trans rest

theorem stores_runEncoder (s : State) : StoresIn (encBuffer s) s.mem (runEncoder s).mem := by
  have loop := stores_encLoop s.encLen.toNat 0#64 (encStart s)
  have flush := stores_flushStep (encLoop s.encLen.toNat 0#64 (encStart s))
  have hbuf : encBuffer (encLoop s.encLen.toNat 0#64 (encStart s)) = encBuffer s := by rw [encLoop_frame]; rfl
  rw [hbuf] at flush
  exact loop.trans flush

/-! ### Every instruction -/

/-- Where the command `c` may store (R71). -/
def storable (c : Instr) (s : State) (a : Nat) : Prop :=
  (inBuffer s.encDst s.encCap.toNat a ∧ s.sinkMode = .fixed ∧ ((∃ b, c = .encSym b) ∨ c = .encFlush ∨ c = .encRun)) ∨
  (inBuffer s.decDst s.decCap.toNat a ∧ ((∃ n, c = .decNib n) ∨ (∃ b, c = .decByte b) ∨ ∃ m, c = .decRun m))

theorem storable_of_encBuffer {c : Instr} (hc : (∃ b, c = .encSym b) ∨ c = .encFlush ∨ c = .encRun) {s : State}
    (a : Nat) (h : encBuffer s a) : storable c s a := .inl ⟨h.1, h.2, hc⟩

theorem storable_of_decBuffer {c : Instr} (hc : (∃ n, c = .decNib n) ∨ (∃ b, c = .decByte b) ∨ ∃ m, c = .decRun m)
    {s : State} (a : Nat) (h : decBuffer s a) : storable c s a := .inr ⟨h, hc⟩

theorem stores_of_command {c : Instr} {s t : State} (hc : c.isCommand = true) (h : exec c s = .next t) :
    StoresIn (storable c s) s.mem t.mem := by
  cases c with
  | nop | clrErr | softReset | sinkReset | encInit | decInit => cases h; exact .refl
  | encSym b => cases h; exact storesIn_mono (storable_of_encBuffer (.inl ⟨b, rfl⟩)) (stores_symStep b s)
  | encFlush => cases h; exact storesIn_mono (storable_of_encBuffer (.inr (.inl rfl))) (stores_flushStep s)
  | encRun => cases h; exact storesIn_mono (storable_of_encBuffer (.inr (.inr rfl))) (stores_runEncoder s)
  | decNib n => cases h; exact storesIn_mono (storable_of_decBuffer (.inl ⟨n, rfl⟩)) (stores_nibStep n s)
  | decByte b => cases h; exact storesIn_mono (storable_of_decBuffer (.inr (.inl ⟨b, rfl⟩))) (stores_byteStep b s)
  | decEnd => cases h; rw [endStep_frame]
  | decRun m => cases h; exact storesIn_mono (storable_of_decBuffer (.inr (.inr ⟨m, rfl⟩))) (stores_runDecoder m s)
  | rd | wr => cases hc

theorem mem_regWrite (r : Reg) (v : Word) (s : State) : (regWrite r v s).mem = s.mem := by
  cases r <;> rfl

/-- What an instruction leaves in host memory it stored byte by byte, inside the buffer of the command it performs. -/
theorem stores_of_exec {i : Instr} {s t : State} (h : exec i s = .next t) :
    StoresIn (storable (performed i) s) s.mem t.mem := by
  obtain ⟨hc, hx⟩ | ⟨w, e, -, -, rfl⟩ | ⟨v, rfl⟩ | ⟨r, v, rfl⟩ := exec_next h
  · exact stores_of_command hc hx
  · exact .refl
  · exact .refl
  · rw [mem_regWrite]

/-- Settles O54. -/
theorem hostMemoryWritesStayInTheBuffers : Obligations.HostMemoryWritesStayInTheBuffers := by
  intro i s t a h hne
  by_contra hno
  exact hne (readCell_of_storesIn (stores_of_exec h) hno)

/-! ## Bytes other agents touch -/

/-- What is read at an address after other agents left a free value at each address they touched (R83). -/
theorem readCell_scribble {m : Memory} (hw : Memory.wf m = true) (epoch : Nat) (raced : List Word) (addr : Word) :
    readCell (scribble epoch raced m) addr.toNat =
      if addr ∈ raced then Config.racedLeft epoch addr else readCell m addr.toNat := by
  induction raced generalizing m with
  | nil => rfl
  | cons b rest ih =>
    rw [scribble, ih (wf_writeCell hw _ _), readCell_writeCell hw]
    by_cases hrest : addr ∈ rest
    · rw [if_pos hrest, if_pos (List.mem_cons_of_mem b hrest)]
    · by_cases hb : addr = b
      · subst hb; simp
      · simp [hrest, hb, BitVec.toNat_inj]

/-- Settles O13: no instruction changes the raced addresses or the access count, and each keeps host memory's form. -/
theorem racedBytesAreAnyValue : Obligations.RacedBytesAreAnyValue := by
  intro s t a raced rest addr hp hmem hw h
  refine ⟨if_pos (List.contains_iff_mem.mpr hmem), ?_⟩
  have hr : runAccess a raced rest s = .next t := by simpa only [step, hp] using h
  obtain ⟨u, hx, rfl⟩ := runAccess_next hr
  obtain ⟨-, -, -, -, -, hraced, hepoch⟩ := (fixedFields_eq_iff _ u).mp (fixedFields_of_exec hx)
  simp only [beginAccess_raced, beginAccess_epoch] at hraced hepoch
  simp only [endAccess, hraced, hepoch]
  rw [readCell_scribble (wf_of_storesIn (stores_of_exec hx) hw), if_pos hmem]

end Sys2Proof.Proofs
end

section
/-! PROOFS of the encoding family (R90-R102): command words, the pseudo-commands, the resumption token, and what a
valid packed stream decodes to. -/

namespace Sys2Proof.Proofs

open Sys2Proof.Machine

/-! ## Command words -/

/-- A command word is its opcode above its immediate (R90). -/
theorem toNat_commandWord (opc : BitVec 8) (imm : BitVec 24) :
    (commandWord opc imm).toNat = opc.toNat * 2 ^ 24 + imm.toNat := by
  have h : (opc ++ imm).toNat = opc.toNat * 2 ^ 24 + imm.toNat := by
    rw [BitVec.toNat_append, ← Nat.shiftLeft_add_eq_or_of_lt imm.isLt, Nat.shiftLeft_eq]
  simp only [commandWord, BitVec.toNat_setWidth, BitVec.toNat_append (0#32), h, BitVec.toNat_ofNat, Nat.zero_mod,
    Nat.zero_shiftLeft, Nat.zero_or]
  omega

@[simp] theorem opcField_commandWord (opc : BitVec 8) (imm : BitVec 24) : opcField (commandWord opc imm) = opc := by
  apply BitVec.eq_of_toNat_eq
  rw [opcField, BitVec.extractLsb'_toNat, toNat_commandWord, Nat.shiftRight_eq_div_pow]
  omega

@[simp] theorem immField_commandWord (opc : BitVec 8) (imm : BitVec 24) : immField (commandWord opc imm) = imm := by
  apply BitVec.eq_of_toNat_eq
  rw [immField, BitVec.extractLsb'_toNat, toNat_commandWord, Nat.shiftRight_zero]
  omega

/-- A command word decodes to the command its opcode names, when its immediate passes the check of R95. -/
theorem decode_commandWord {opc : BitVec 8} {imm : BitVec 24} {f : Format} {c : Instr} (hf : formatOf opc = some f)
    (himm : immLegal f imm = true) (hc : commandOf opc imm = some c) : decode (commandWord opc imm) = .ok c := by
  simp only [decode, Laws.extract_commandWord_high, opcField_commandWord, immField_commandWord, hf, himm, hc, if_true]

/-- An operand of `w` bits, as an immediate, has no bit outside them (R91, R95). -/
theorem setWidth_and_not_mask {w : Nat} (x : BitVec w) :
    x.setWidth 24 &&& ~~~((BitVec.allOnes w).setWidth 24) = 0#24 := by
  ext i hi
  simp only [BitVec.getElem_and, BitVec.getElem_not, BitVec.getElem_setWidth, BitVec.getLsbD_allOnes,
    BitVec.getElem_zero]
  by_cases h : i < w
  · simp [h]
  · simp [BitVec.getLsbD_of_ge x i (by omega)]

theorem immLegal_setWidth {w : Nat} {f : Format} (x : BitVec w) (hf : opmask f = (BitVec.allOnes w).setWidth 24) :
    immLegal f (x.setWidth 24) = true := by
  rw [immLegal, hf, setWidth_and_not_mask]
  rfl

/-- An operand is read back from its immediate (R92). -/
theorem extractLsb'_setWidth {w : Nat} (hw : w ≤ 24) (x : BitVec w) : (x.setWidth 24).extractLsb' 0 w = x := by
  apply BitVec.eq_of_toNat_eq
  rw [BitVec.extractLsb'_toNat, BitVec.toNat_setWidth_of_le hw, Nat.shiftRight_zero, Nat.mod_eq_of_lt x.isLt]

/-- Decoding a command's word gives the command back, with its operand (R92, R93). -/
theorem decode_of_encode {c : Instr} {w : Word} (h : encode c = some w) : decode w = .ok c := by
  cases c with
  | encSym b =>
    cases h
    exact decode_commandWord (f := .B) rfl (immLegal_setWidth b rfl)
      (congrArg (some ∘ Instr.encSym) (extractLsb'_setWidth (by decide) b))
  | decByte b =>
    cases h
    exact decode_commandWord (f := .B) rfl (immLegal_setWidth b rfl)
      (congrArg (some ∘ Instr.decByte) (extractLsb'_setWidth (by decide) b))
  | decNib n =>
    cases h
    exact decode_commandWord (f := .Q) rfl (immLegal_setWidth n rfl)
      (congrArg (some ∘ Instr.decNib) (extractLsb'_setWidth (by decide) n))
  | sinkReset k =>
    cases h
    have hlegal := immLegal_setWidth (f := .K) k rfl
    rw [BitVec.setWidth_eq] at hlegal
    exact decode_commandWord rfl hlegal rfl
  | decRun m => cases m <;> cases h <;> rfl
  | rd | wr => cases h
  | _ => cases h; rfl

/-- The word of a command with an operand of `w` bits: the operand stands in the low bits (R92). -/
theorem commandWord_setWidth (opc : BitVec 8) {w : Nat} (hw : w ≤ 24) (x : BitVec w) :
    commandWord opc (x.setWidth 24) = opc.setWidth 64 <<< 24 ||| x.setWidth 64 := by
  have hx : x.toNat < 2 ^ 24 := x.isLt.trans_le (Nat.pow_le_pow_right (by omega) hw)
  apply BitVec.eq_of_toNat_eq
  rw [toNat_commandWord, BitVec.toNat_or, BitVec.toNat_shiftLeft, BitVec.toNat_setWidth_of_le hw,
    BitVec.toNat_setWidth_of_le (by omega), BitVec.toNat_setWidth_of_le (by omega),
    Nat.mod_eq_of_lt (by rw [Nat.shiftLeft_eq]; omega), ← Nat.shiftLeft_add_eq_or_of_lt hx, Nat.shiftLeft_eq]

theorem encode_encSym (b : Byte) : encode (.encSym b) = some (0x11000000#64 ||| b.setWidth 64) :=
  congrArg some (commandWord_setWidth 0x11#8 (by decide) b)

theorem encode_decByte (b : Byte) : encode (.decByte b) = some (0x22000000#64 ||| b.setWidth 64) :=
  congrArg some (commandWord_setWidth 0x22#8 (by decide) b)

theorem encode_decNib (n : BitVec 4) : encode (.decNib n) = some (0x21000000#64 ||| n.setWidth 64) :=
  congrArg some (commandWord_setWidth 0x21#8 (by decide) n)

theorem encode_sinkReset (k : BitVec 24) : encode (.sinkReset k) = some (0x30000000#64 ||| k.setWidth 64) := by
  have h := commandWord_setWidth 0x30#8 (by decide) k
  rw [BitVec.setWidth_eq] at h
  exact congrArg some h

/-- Settles O2: each word is the word of its command. -/
theorem opcodeMapIsTheSpecs : Obligations.OpcodeMapIsTheSpecs := by
  intro b n k
  exact ⟨decode_of_encode rfl, decode_of_encode rfl, decode_of_encode rfl, decode_of_encode rfl,
    decode_of_encode (encode_encSym b), decode_of_encode rfl, decode_of_encode rfl, decode_of_encode rfl,
    decode_of_encode (encode_decNib n), decode_of_encode (encode_decByte b), decode_of_encode rfl,
    decode_of_encode rfl, decode_of_encode rfl, decode_of_encode (encode_sinkReset k)⟩

/-! ## Legal command words -/

/-- What a value that decodes has passed: the three checks of R95. -/
theorem checks_of_decode {w : Word} {c : Instr} (h : decode w = .ok c) :
    w.extractLsb' 32 32 = 0#32 ∧
    ∃ f, formatOf (opcField w) = some f ∧ immField w &&& ~~~(opmask f) = 0#24 := by
  unfold decode at h
  split at h
  · rename_i hhigh
    split at h
    · cases h
    · rename_i f hf
      split at h
      · rename_i himm
        exact ⟨hhigh, f, hf, beq_iff_eq.mp himm⟩
      · cases h
  · cases h

/-- The rows of R95's table, from the opcode and the format (R93). -/
theorem opcodeRow_of_formatOf {opc : BitVec 8} {f : Format} (h : formatOf opc = some f) :
    (opc.setWidth 64, (opmask f).setWidth 64) ∈ ([(0x00#64, 0x0#64), (0x01#64, 0x0#64), (0x02#64, 0x0#64),
      (0x10#64, 0x0#64), (0x11#64, 0xFF#64), (0x12#64, 0x0#64), (0x13#64, 0x0#64), (0x20#64, 0x0#64),
      (0x21#64, 0xF#64), (0x22#64, 0xFF#64), (0x23#64, 0x0#64), (0x24#64, 0x1#64),
      (0x30#64, 0xFFFFFF#64)] : List (Word × Word)) := by
  revert f opc
  decide

theorem setWidth_setWidth_of_toNat_lt {x : Word} {n : Nat} (h : x.toNat < 2 ^ n) :
    (x.setWidth n).setWidth 64 = x := by
  apply BitVec.eq_of_toNat_eq
  rw [BitVec.toNat_setWidth, BitVec.toNat_setWidth, Nat.mod_eq_of_lt h, Nat.mod_eq_of_lt x.isLt]

/-- A value that decodes is legal in R95's words. -/
theorem legalWord_of_decode {w : Word} {c : Instr} (h : decode w = .ok c) : legalWord w := by
  obtain ⟨hhigh, f, hf, himm⟩ := checks_of_decode h
  have hshift : w >>> 32 = 0#64 := by
    have hzero := congrArg BitVec.toNat hhigh
    apply BitVec.eq_of_toNat_eq
    rw [BitVec.extractLsb'_toNat] at hzero
    simp only [BitVec.toNat_ushiftRight, BitVec.toNat_ofNat, Nat.shiftRight_eq_div_pow] at hzero ⊢
    omega
  have hopc : (w >>> 24) &&& 0xFF#64 = (opcField w).setWidth 64 := by
    rw [opcField_eq, setWidth_setWidth_of_toNat_lt]
    exact Nat.lt_succ_of_le Nat.and_le_right
  have hmask : (w &&& 0xFFFFFF#64) &&& ~~~((opmask f).setWidth 64) = 0#64 := by
    have hsmall := immField_and_not w ((opmask f).setWidth 64)
    rw [BitVec.setWidth_setWidth_of_le _ (by decide), BitVec.setWidth_eq, himm] at hsmall
    have hlt : ((w &&& 0xFFFFFF#64) &&& ~~~((opmask f).setWidth 64)).toNat < 2 ^ 24 :=
      Nat.lt_succ_of_le (Nat.and_le_left.trans Nat.and_le_right)
    rw [← setWidth_setWidth_of_toNat_lt hlt, ← hsmall]
    rfl
  exact ⟨hshift, _, opcodeRow_of_formatOf hf, hopc, hmask⟩

/-- Settles O3. -/
theorem legalWordsAreTheDecodedOnes : Obligations.LegalWordsAreTheDecodedOnes := by
  intro w
  exact ⟨fun ⟨c, hc⟩ => legalWord_of_decode hc, decode_of_legalWord⟩

/-! ## The resumption token -/

/-- NODE is bits [7:0] of the value DEC_STATE reads as (R50). -/
theorem node_of_decStateValue (s : State) : (decStateValue s).extractLsb' 0 8 = s.decNode := by
  ext i hi
  rw [decStateValue, BitVec.getElem_extractLsb', BitVec.getLsbD_setWidth, BitVec.getLsbD_append, BitVec.getLsbD_append]
  simp [show i < 64 by omega, show i < 9 by omega, hi]

/-- Settles O25. -/
theorem savedTokenRestoresTheNode : Obligations.SavedTokenRestoresTheNode := by
  intro s u
  refine ⟨returned (decStateValue s) s, rfl, ?_⟩
  show Host.Outcome.next (decLoad ((decStateValue s).extractLsb' 0 8) u) = _
  rw [node_of_decStateValue]
  rfl

/-! ## Pseudo-commands -/

/-- The CMD write that issues a command is the write of its word at CMD's offset (R90). -/
theorem issue_of_encode {c : Instr} {w : Word} (h : encode c = some w) : issue c = [.write 64 0x010#12 w] := by
  rw [issue, h]
  rfl

/-- One command a byte, each issued by one write (R97). -/
theorem flatMap_issue {f : Byte → Instr} {g : Byte → Word} (h : ∀ b, encode (f b) = some (g b)) (bytes : List Byte) :
    bytes.flatMap (fun b => issue (f b)) = bytes.map (fun b => .write 64 0x010#12 (g b)) := by
  simp only [fun b => issue_of_encode (h b)]
  exact (List.map_eq_flatMap ..).symm

/-- Settles O55. -/
theorem pseudoCommandsExpand : Obligations.PseudoCommandsExpand := by
  intro text src len dst cap tok
  exact ⟨flatMap_issue encode_encSym text, flatMap_issue encode_decByte text, rfl, rfl, rfl, rfl, rfl⟩

/-! ## Walks of the code tree -/

/-- From the node `x` the bits spell the bytes `out` and lead to the node `y`: each bit goes on to a node, or completes
the code of a byte and goes back to the root (R170). -/
inductive Spells (codes : CodeTable) : BitString → List Bool → List Byte → BitString → Prop where
  | nil (x : BitString) : Spells codes x [] [] x
  | node {x y : BitString} {b : Bool} {bits : List Bool} {out : List Byte} (hx : isNode codes (appendBit x b) = true)
      (h : Spells codes (appendBit x b) bits out y) : Spells codes x (b :: bits) out y
  | symbol {x y : BitString} {b : Bool} {bits : List Bool} {v : Byte} {out : List Byte}
      (hx : appendBit x b = codeOf codes v.toNat) (h : Spells codes rootNode bits out y) :
      Spells codes x (b :: bits) (v :: out) y

section
variable {codes : CodeTable} {x y z : BitString} {bits bits' : List Bool} {out out' : List Byte}

theorem spells_append (h : Spells codes x bits out y) (h' : Spells codes y bits' out' z) :
    Spells codes x (bits ++ bits') (out ++ out') z := by
  induction h with
  | nil x => exact h'
  | node hx _ ih => exact .node hx (ih h')
  | symbol hx _ ih => exact .symbol hx (ih h')

/-- A walk of bits in two parts passes a node between them. -/
theorem spells_split (h : Spells codes x (bits ++ bits') out z) :
    ∃ y out₁ out₂, Spells codes x bits out₁ y ∧ Spells codes y bits' out₂ z ∧ out = out₁ ++ out₂ := by
  induction bits generalizing x out with
  | nil => exact ⟨x, [], out, .nil x, h, rfl⟩
  | cons b bits ih =>
    cases h with
    | node hx h =>
      obtain ⟨y, out₁, out₂, h₁, h₂, rfl⟩ := ih h
      exact ⟨y, out₁, out₂, .node hx h₁, h₂, rfl⟩
    | symbol hx h =>
      obtain ⟨y, out₁, out₂, h₁, h₂, rfl⟩ := ih h
      exact ⟨y, _, out₂, .symbol hx h₁, h₂, rfl⟩

theorem codeOf_byte_mem (hc : TableOk codes) (v : Byte) : codeOf codes v.toNat ∈ codes :=
  codeOf_mem hc (by have := v.isLt; omega)

/-- A walk from a node ends at a node. -/
theorem isNode_of_spells (hc : TableOk codes) (h : Spells codes x bits out y) (hx : isNode codes x = true) :
    isNode codes y = true := by
  induction h with
  | nil x => exact hx
  | node hn _ ih => exact ih hn
  | symbol _ _ ih => exact ih (isNode_root hc)

/-- The same bits spell one byte sequence only: no code is a node, and no two codes are one string (R24(b)). -/
theorem spells_unique (hc : TableOk codes) (h : Spells codes x bits out y) (h' : Spells codes x bits out' z) :
    out = out' := by
  induction h generalizing out' with
  | nil x => cases h'; rfl
  | node hx _ ih =>
    cases h' with
    | node _ h' => exact ih h'
    | symbol hx' _ => exact absurd hx (not_isNode_of_mem hc (hx' ▸ codeOf_byte_mem hc _))
  | @symbol _ _ _ _ v _ hx _ ih =>
    cases h' with
    | node hx' _ => exact absurd hx' (not_isNode_of_mem hc (hx ▸ codeOf_byte_mem hc _))
    | @symbol _ _ _ _ v' _ hx' h' =>
      have hv : v.toNat = v'.toNat :=
        codeOf_inj hc (by have := v.isLt; omega) (by have := v'.isLt; omega) (hx.symm.trans hx')
      rw [BitVec.eq_of_toNat_eq hv, ih h']

/-- A code has 5 bits or more (R7), so a byte takes 5 bits of the walk, those above its start included. -/
theorem length_of_spells (hc : TableOk codes) (h : Spells codes x bits out y) :
    5 * out.length ≤ x.len + bits.length := by
  induction h with
  | nil x => exact Nat.zero_le _
  | node _ _ ih =>
    simp only [appendBit, List.length_cons] at ih ⊢
    omega
  | @symbol x _ b _ v _ hx _ ih =>
    have hlen := (codeOf_bounds hc (s := v.toNat) (by have := v.isLt; omega)).1
    rw [← hx] at hlen
    simp only [appendBit, rootNode, List.length_cons] at hlen ih ⊢
    omega

/-- A nibble completes one byte at most (R170). -/
theorem length_le_one_of_spells (hc : TableOk codes) (h : Spells codes x bits out y) (hb : bits.length ≤ 5) :
    out.length ≤ 1 := by
  induction h with
  | nil x => exact Nat.zero_le _
  | node _ _ ih => exact ih (Nat.le_of_succ_le hb)
  | symbol _ h _ =>
    have := length_of_spells hc h
    simp only [rootNode, List.length_cons] at this hb ⊢
    omega

/-- The loop of T follows a walk that completes one byte at most, one completed before included (R170). -/
theorem feedBits_of_spells (hc : TableOk codes) {sym : Option Byte} (h : Spells codes x bits out y)
    (hone : sym.toList.length + out.length ≤ 1) : feedBits codes bits x sym = .goes y (sym.or out.head?) := by
  induction h generalizing sym with
  | nil x => cases sym <;> rfl
  | node hx _ ih =>
    have hnone := symbolOf_none fun hm => not_isNode_of_mem hc hm hx
    simp only [feedBits, hnone, hx, if_true]
    exact ih hone
  | @symbol _ _ _ _ v out hx _ ih =>
    have hv := v.isLt
    obtain ⟨rfl, rfl⟩ : sym = none ∧ out = [] := by
      cases sym <;> cases out <;> simp at hone ⊢
    have hsome := symbolOf_codeOf hc (s := v.toNat) (by omega)
    rw [← hx] at hsome
    have heos : v.toNat ≠ eosSymbol := by simp only [eosSymbol]; omega
    simp only [feedBits, hsome, if_neg heos, BitVec.ofNat_toNat, BitVec.setWidth_eq]
    exact ih (Nat.le_refl 1)

theorem transition_of_spells (hc : TableOk codes) {n : BitVec 4} (h : Spells codes x (nibbleBits n) out y) :
    transition codes x n = .goes y out.head? :=
  feedBits_of_spells hc h (by simpa using length_le_one_of_spells hc h (by decide : 4 ≤ 5))

/-! ## The walk of a packed stream -/

/-- One more bit of a code (R51). -/
theorem appendBit_prefixValue (c : BitString) {d : Nat} (hd : d < (bitsOf c).length) :
    appendBit ⟨d, prefixValue c d⟩ (bitsOf c)[d] = ⟨d + 1, prefixValue c (d + 1)⟩ := by
  rw [length_bitsOf] at hd
  obtain ⟨k, hk⟩ : ∃ k, c.len = d + 1 + k := ⟨c.len - (d + 1), by omega⟩
  have hbit : (bitsOf c)[d]? = some (c.val.testBit k) := by
    rw [getElem?_bitsOf, if_pos hd]
    congr 2; omega
  have hdiv : c.val / 2 ^ (k + 1) = c.val / 2 ^ k / 2 := by rw [Nat.pow_succ, Nat.div_div_eq_div_mul]
  rw [(List.getElem?_eq_some_iff.mp hbit).2, appendBit, Nat.toNat_testBit, prefixValue_eq, prefixValue_eq,
    show c.len - d = k + 1 by omega, show c.len - (d + 1) = k by omega, hdiv, Nat.div_add_mod]

/-- The first bits of a code lead from the root to the node they are (R51). -/
theorem spells_codePrefix (hc : TableOk codes) {c : BitString} (hm : c ∈ codes) {d : Nat} (hd : d < c.len) :
    Spells codes rootNode ((bitsOf c).take d) [] ⟨d, prefixValue c d⟩ := by
  induction d with
  | zero =>
    have hzero : prefixValue c 0 = 0 := Nat.lt_one_iff.mp (prefixValue_lt (hc.lengths c hm).2.2 (Nat.zero_le _))
    rw [hzero]
    exact .nil rootNode
  | succ d ih =>
    have hlen : d < (bitsOf c).length := by rw [length_bitsOf]; omega
    have hnext := appendBit_prefixValue c hlen
    have hnode : isNode codes ⟨d + 1, prefixValue c (d + 1)⟩ = true := isNode_iff.mpr ⟨c, hm, hd, rfl⟩
    rw [List.take_succ_eq_append_getElem hlen]
    rw [← hnext] at hnode ⊢
    exact spells_append (ih (by omega)) (.node hnode (.nil _))

/-- The code of a byte leads from the root back to it and spells that byte. -/
theorem spells_code (hc : TableOk codes) (v : Byte) :
    Spells codes rootNode (bitsOf (codeOf codes v.toNat)) [v] rootNode := by
  have hmem := codeOf_byte_mem hc v
  set c := codeOf codes v.toNat with hcv
  have hpos := (hc.lengths c hmem).1
  obtain ⟨d, hd⟩ : ∃ d, c.len = d + 1 := ⟨c.len - 1, by simp only [minCodeLen] at hpos; omega⟩
  have hlen : d < (bitsOf c).length := by rw [length_bitsOf]; omega
  have hbits : bitsOf c = (bitsOf c).take d ++ [(bitsOf c)[d]] := by
    rw [← List.take_succ_eq_append_getElem hlen, List.take_of_length_le (by rw [length_bitsOf]; omega)]
  have hlast : appendBit ⟨d, prefixValue c d⟩ (bitsOf c)[d] = c := by
    rw [appendBit_prefixValue, ← hd, prefixValue_self]
  rw [hbits]
  exact spells_append (spells_codePrefix hc hmem (by omega)) (.symbol (hlast.trans hcv) (.nil _))

theorem spells_codeBits (hc : TableOk codes) (xs : List Byte) :
    Spells codes rootNode (codeBits codes xs) xs rootNode := by
  induction xs with
  | nil => exact .nil _
  | cons v xs ih =>
    rw [codeBits, List.flatMap_cons]
    exact spells_append (spells_code hc v) ih

/-- The node the padding of `d` bits leads to (R55, R100). -/
def paddingNode (codes : CodeTable) (d : Nat) : BitString := ⟨d, prefixValue (codeOf codes eosSymbol) d⟩

/-- How many bits pad a stream of `l` bits (R100). -/
def paddingLen (l : Nat) : Nat := (8 - l % 8) % 8

/-- The bits of the packed stream of a byte sequence (R100). -/
def streamBits (codes : CodeTable) (xs : List Byte) : List Bool :=
  codeBits codes xs ++ paddingBits codes (codeBits codes xs).length

theorem spells_streamBits (hc : TableOk codes) (xs : List Byte) :
    Spells codes rootNode (streamBits codes xs) xs (paddingNode codes (paddingLen (codeBits codes xs).length)) := by
  have hlen := hc.eosLong
  have hpad := spells_codePrefix hc (codeOf_mem hc (s := eosSymbol) (by decide))
    (d := paddingLen (codeBits codes xs).length) (by rw [paddingLen]; omega)
  have h := spells_append (spells_codeBits hc xs) hpad
  rwa [List.append_nil] at h

/-- R55, R24(e): fewer than 8 bits of EOS are all 1, so the decoder accepts at their node. -/
theorem accepting_paddingNode (hc : TableOk codes) {d : Nat} (hd : d ≤ 7) :
    accepting (paddingNode codes d) = true := by
  have hv : prefixValue (codeOf codes eosSymbol) d = (2 ^ 7 - 1) / 2 ^ (7 - d) := by
    have hlen := hc.eosLong
    rw [← prefixValue_div (codeOf codes eosSymbol) hd (by omega), hc.eosOnes]
  rw [paddingNode, hv]
  interval_cases d <;> rfl

/-! ## The bytes of a packed stream -/

theorem byteBits_byteOfBits : ∀ b7 b6 b5 b4 b3 b2 b1 b0 : Bool,
    byteBits (byteOfBits [b7, b6, b5, b4, b3, b2, b1, b0]) = [b7, b6, b5, b4, b3, b2, b1, b0] := by decide

/-- Bits cut into whole bytes are the bits of those bytes (R75). -/
theorem flatMap_byteBits_packBytes (bits : List Bool) (h : 8 ∣ bits.length) :
    (packBytes bits).flatMap byteBits = bits := by
  induction bits using packBytes.induct with
  | case1 b7 b6 b5 b4 b3 b2 b1 b0 rest ih =>
    rw [packBytes, List.flatMap_cons, byteBits_byteOfBits, ih (by simp only [List.length_cons] at h; omega)]
    rfl
  | case2 bits hshort =>
    have hlt : bits.length < 8 := by
      rcases bits with _ | ⟨b7, _ | ⟨b6, _ | ⟨b5, _ | ⟨b4, _ | ⟨b3, _ | ⟨b2, _ | ⟨b1, _ | ⟨b0, rest⟩⟩⟩⟩⟩⟩⟩⟩
      on_goal 9 => exact (hshort _ _ _ _ _ _ _ _ _ rfl).elim
      all_goals simp
    obtain rfl : bits = [] := List.eq_nil_of_length_eq_zero (by omega)
    rfl

theorem flatMap_byteBits_packedStream (hc : TableOk codes) (xs : List Byte) :
    (packedStream codes xs).flatMap byteBits = streamBits codes xs := by
  have hlen := hc.eosLong
  refine flatMap_byteBits_packBytes _ ?_
  rw [List.length_append, paddingBits, List.length_take, length_bitsOf]
  omega

/-- R101: the sequence a packed stream packs is unique. -/
theorem packedStream_inj (hc : TableOk codes) {xs ys : List Byte} (h : packedStream codes xs = packedStream codes ys) :
    xs = ys := by
  have hbits := congrArg (List.flatMap byteBits) h
  rw [flatMap_byteBits_packedStream hc, flatMap_byteBits_packedStream hc] at hbits
  exact spells_unique hc (spells_streamBits hc xs) (hbits ▸ spells_streamBits hc ys)

end

/-! ## The decoder on a walk -/

/-- `s` after `n` whole bytes of input that spelled the bytes `out` and led to the node `y` (R175, R176). -/
def decoded (n : Nat) (y : BitString) (out : List Byte) (s : State) : State :=
  { s with
    decNode := nodeIndex s.codes y
    mem := writeBytes s.mem (s.decDst + s.decCount) out
    decCount := s.decCount + BitVec.ofNat 64 out.length
    decConsumed := s.decConsumed + BitVec.ofNat 64 n }

theorem decoded_decoded (n m : Nat) (y z : BitString) (out out' : List Byte) (s : State) :
    decoded m z out' (decoded n y out s) = decoded (n + m) z (out ++ out') s := by
  simp only [decoded, writeBytes_append, List.length_append, BitVec.ofNat_add, BitVec.add_assoc]

/-- The decoder is ready, and `bits` lead from its node to `y` and spell the bytes `out`, for which there is room. -/
structure Reads (s : State) (bits : List Bool) (out : List Byte) (y : BitString) : Prop where
  table : TableOk s.codes
  ready : s.decCode = .ok
  walk : Spells s.codes (nodeAt s.codes s.decNode) bits out y
  room : s.decCount.toNat + out.length ≤ s.decCap.toNat

/-- Bits read in two parts: the second from the state the first leaves. -/
theorem reads_split {s : State} {bits bits' : List Bool} {out : List Byte} {z : BitString}
    (h : Reads s (bits ++ bits') out z) : ∃ y out₁ out₂, out = out₁ ++ out₂ ∧ Reads s bits out₁ y ∧
      ∀ n, Reads (decoded n y out₁ s) bits' out₂ z := by
  obtain ⟨hc, hok, hwalk, hroom⟩ := h
  obtain ⟨y, out₁, out₂, h₁, h₂, rfl⟩ := spells_split hwalk
  rw [List.length_append] at hroom
  have hnode : nodeAt s.codes (nodeIndex s.codes y) = y :=
    nodeAt_nodeIndex hc (isNode_of_spells hc h₁ (isNode_nodeAt hc _))
  have hroom₂ (n : Nat) : (decoded n y out₁ s).decCount.toNat + out₂.length ≤ s.decCap.toNat := by
    have hcap := s.decCap.isLt
    simp only [decoded, BitVec.toNat_add, BitVec.toNat_ofNat]
    omega
  exact ⟨y, out₁, out₂, rfl, ⟨hc, hok, h₁, by omega⟩, fun n => ⟨hc, hok, hnode.symm ▸ h₂, hroom₂ n⟩⟩

/-- DEC_NIB on a walk (R175). -/
theorem nibStep_of_reads {s : State} {n : BitVec 4} {out : List Byte} {y : BitString}
    (h : Reads s (nibbleBits n) out y) : nibStep n s = decoded 0 y out s := by
  obtain ⟨hc, hok, hwalk, hroom⟩ := h
  have hready := (decReady_iff s).mpr hok
  have ht := transition_of_spells hc hwalk
  have hone := length_le_one_of_spells hc hwalk (by decide : 4 ≤ 5)
  cases out with
  | nil => simp [nibStep, hready, ht, decoded, writeBytes]
  | cons v rest =>
    obtain rfl : rest = [] := by simpa using hone
    have hlt : ¬ s.decCap ≤ s.decCount := by
      rw [BitVec.le_def]
      rw [List.length_singleton] at hroom
      omega
    simp [nibStep, hready, ht, decOut_eq, hlt, decoded, writeBytes]

/-- A byte's bits are its two nibbles' bits, the high one first (R75, R76). -/
theorem byteBits_eq_nibbleBits : ∀ b : Byte,
    byteBits b = nibbleBits (b.extractLsb' 4 4) ++ nibbleBits (b.extractLsb' 0 4) := by decide

/-- DEC_BYTE on a walk (R176). -/
theorem byteStep_of_reads {s : State} {b : Byte} {out : List Byte} {y : BitString} (h : Reads s (byteBits b) out y) :
    byteStep b s = decoded 1 y out s := by
  rw [byteBits_eq_nibbleBits] at h
  obtain ⟨x, out₁, out₂, rfl, high, low⟩ := reads_split h
  have hready (z : BitString) (o : List Byte) : decReady (decoded 0 z o s) = true := (decReady_iff _).mpr h.ready
  simp only [byteStep, nibStep_of_reads high, nibStep_of_reads (low 0), decoded_decoded, hready, if_true]
  rw [decoded, BitVec.add_zero]
  rfl

/-! ### The source buffer -/

theorem sourceBytes_succ (s : State) (a : Word) (n : Nat) :
    sourceBytes s a (n + 1) = hostRead s a :: sourceBytes s (a + 1#64) n := by
  rw [sourceBytes, List.range_succ_eq_map, List.map_cons, List.map_map, BitVec.add_zero]
  refine congrArg _ (List.map_congr_left fun k _ => ?_)
  rw [BitVec.add_assoc, ← BitVec.ofNat_add, Nat.add_comm]
  rfl

/-- Decoded bytes stored apart from the source leave it as it was (R81). -/
theorem sourceBytes_decoded {s : State} {a : Word} {m : Nat} {out : List Byte} (n : Nat) (y : BitString)
    (h : apart a m (s.decDst + s.decCount) out.length) : sourceBytes (decoded n y out s) a m = sourceBytes s a m := by
  refine List.map_congr_left fun i hi => ?_
  have hread : readCell (writeBytes s.mem (s.decDst + s.decCount) out) (a + BitVec.ofNat 64 i).toNat =
      readCell s.mem (a + BitVec.ofNat 64 i).toNat :=
    readCell_writeBytes_other _ _ _ _ fun k hk e => h i k (List.mem_range.mp hi) hk (BitVec.eq_of_toNat_eq e)
  simp only [hostRead, decoded, hread]

/-- Parts of buffers that do not overlap do not overlap (R81). -/
theorem apart_parts {a b : Word} {n m n' m' : Nat} (h : apart a n b m) (i j : Nat) (hn : i + n' ≤ n)
    (hm : j + m' ≤ m) : apart (a + BitVec.ofNat 64 i) n' (b + BitVec.ofNat 64 j) m' := by
  intro k l hk hl
  have := h (i + k) (j + l) (by omega) (by omega)
  rwa [BitVec.ofNat_add, BitVec.ofNat_add, ← BitVec.add_assoc, ← BitVec.add_assoc] at this

/-- DEC_RUN's loop on a walk, its source apart from its output (R178, R81). -/
theorem decLoop_of_reads {s : State} {i : Word} {bs out : List Byte} {y : BitString}
    (h : Reads s (bs.flatMap byteBits) out y) (hsrc : sourceBytes s (s.decSrc + i) bs.length = bs)
    (hapart : apart (s.decSrc + i) bs.length (s.decDst + s.decCount) out.length) :
    decLoop bs.length i s = decoded bs.length y out s := by
  induction bs generalizing s i out with
  | nil =>
    obtain ⟨hc, -, hwalk, -⟩ := h
    cases hwalk
    simp [decLoop, decoded, writeBytes, nodeIndex_nodeAt hc]
  | cons b bs ih =>
    rw [List.length_cons, sourceBytes_succ, List.cons.injEq] at hsrc
    obtain ⟨hread, hrest⟩ := hsrc
    obtain ⟨x, out₁, out₂, rfl, hfirst, hothers⟩ := reads_split h
    rw [List.length_cons, List.length_append] at hapart
    have hready : decReady (decoded 1 x out₁ s) = true := (decReady_iff _).mpr h.ready
    have hnext : s.decSrc + (i + 1#64) = s.decSrc + i + 1#64 := (BitVec.add_assoc ..).symm
    have hkept : sourceBytes (decoded 1 x out₁ s) (s.decSrc + (i + 1#64)) bs.length = bs := by
      rw [hnext, sourceBytes_decoded, hrest]
      simpa using apart_parts hapart 1 0 (by omega) (by omega)
    have hapart' : apart (s.decSrc + (i + 1#64)) bs.length
        (s.decDst + (s.decCount + BitVec.ofNat 64 out₁.length)) out₂.length := by
      rw [hnext, ← BitVec.add_assoc]
      exact apart_parts hapart 1 out₁.length (by omega) (by omega)
    simp only [List.length_cons, decLoop, hread, byteStep_of_reads hfirst, hready, if_true]
    rw [ih (hothers 1) hkept hapart', decoded_decoded, Nat.add_comm]

/-- DEC_END at an accepting node (R177). -/
theorem endStep_of_accepting {s : State} (h : accepting (nodeAt s.codes s.decNode) = true) : endStep s = s := by
  simp [endStep, acceptFlag, h]

/-- The node a walk leaves in NODE. -/
theorem nodeAt_decoded {s : State} {bits : List Bool} {out : List Byte} {y : BitString} (h : Reads s bits out y)
    (n : Nat) : nodeAt (decoded n y out s).codes (decoded n y out s).decNode = y :=
  nodeAt_nodeIndex h.table (isNode_of_spells h.table h.walk (isNode_nodeAt h.table _))

/-- DEC_RUN F on a source that spells `out` and leads to an accepting node (R178). -/
theorem runDecoder_of_reads {s : State} {bs out : List Byte} {y : BitString}
    (h : Reads (clearCounts s) (bs.flatMap byteBits) out y) (hlen : s.decLen.toNat = bs.length)
    (hsrc : sourceBytes s s.decSrc bs.length = bs) (hapart : apart s.decSrc bs.length s.decDst out.length)
    (hy : accepting y = true) :
    runDecoder .final s = { s with
      decNode := nodeIndex s.codes y
      decCount := BitVec.ofNat 64 out.length
      decConsumed := s.decLen
      decResult := BitVec.ofNat 64 out.length
      mem := writeBytes s.mem s.decDst out } := by
  have hready : decReady s = true := (decReady_iff s).mpr h.ready
  have hloop : decLoop bs.length 0#64 (clearCounts s) = decoded bs.length y out (clearCounts s) := by
    refine decLoop_of_reads h ?_ ?_
    · rw [BitVec.add_zero]; exact hsrc
    · rw [BitVec.add_zero, show (clearCounts s).decCount = 0#64 from rfl, BitVec.add_zero]; exact hapart
  have hend : endStep (decoded bs.length y out (clearCounts s)) = decoded bs.length y out (clearCounts s) :=
    endStep_of_accepting (by rw [nodeAt_decoded h, hy])
  have hready' : decReady (decoded bs.length y out (clearCounts s)) = true := hready
  rw [runDecoder_eq, if_pos hready, hlen, hloop]
  simp only [finishRun, DecMode.bit, if_true, hend, hready']
  simp [decoded, clearCounts, ← hlen]

/-- A packed stream read from the root (R100). -/
theorem reads_packedStream {s : State} (hc : TableOk s.codes) (hok : s.decCode = .ok) (hroot : s.decNode = 0#8)
    {xs : List Byte} (hroom : s.decCount.toNat + xs.length ≤ s.decCap.toNat) :
    Reads s ((packedStream s.codes xs).flatMap byteBits) xs
      (paddingNode s.codes (paddingLen (codeBits s.codes xs).length)) := by
  refine ⟨hc, hok, ?_, hroom⟩
  rw [hroot, nodeAt_zero hc, flatMap_byteBits_packedStream hc]
  exact spells_streamBits hc xs

/-- Settles O45: a packed stream is a walk of the code tree from the root to the node of its padding, which spells its
sequence; a walk spells one sequence only, and DEC_RUN follows it. -/
theorem validStreamDecodesToItsSource : Obligations.ValidStreamDecodesToItsSource := by
  refine ⟨fun codes xs ys hc => packedStream_inj hc, fun s xs hc hok hroot hlen hsrc hcap hapart => ?_⟩
  have hreads := reads_packedStream (s := clearCounts s) (xs := xs) hc hok hroot (by simpa [clearCounts] using hcap)
  have haccept := accepting_paddingNode hc (d := paddingLen (codeBits s.codes xs).length) (by rw [paddingLen]; omega)
  rw [hlen] at hsrc hapart
  exact ⟨_, congrArg Host.Outcome.next (runDecoder_of_reads hreads hlen hsrc hapart haccept), hok, rfl, rfl,
    (nodeAt_decoded hreads 0).symm ▸ haccept, rfl, rfl⟩

end Sys2Proof.Proofs
end

section
/-! PROOFS of the control family (R120-R125, R17): the control commands, what RD returns and what WR does at every
offset of the register window, and the step that runs a written command. -/

namespace Sys2Proof.Proofs

open Sys2Proof.Machine

/-! ## The offsets of the register window -/

/-- The register offsets are those of its registers, one each (R20). -/
theorem regAt_regOffset (r : Reg) : regAt (regOffset r) = some r := by
  cases r <;> rfl

theorem offsetAligned_regOffset (r : Reg) : offsetAligned (regOffset r) = true := by
  cases r <;> rfl

/-- The offsets between and above the three groups of registers (R20, R74). -/
abbrev reservedOffset (off : BitVec 12) : Prop :=
  0x058 ≤ off.toNat ∧ off.toNat ≤ 0x07F ∨ 0x0C8 ≤ off.toNat ∧ off.toNat ≤ 0x0FF ∨ 0x148 ≤ off.toNat

theorem not_reservedOffset_regOffset (r : Reg) : ¬ reservedOffset (regOffset r) := by
  cases r <;> decide

/-- No register stands at a reserved offset (R74). -/
theorem regAt_of_reservedOffset {off : BitVec 12} (h : reservedOffset off) : regAt off = none := by
  refine List.find?_eq_none.mpr fun r _ hr => not_reservedOffset_regOffset r ?_
  rwa [beq_iff_eq.mp hr]

/-! ## What RD returns -/

/-- RD of an aligned 64-bit access returns the value at its offset (R123). -/
theorem exec_rd_aligned {off : BitVec 12} (h : offsetAligned off = true) (s : State) :
    exec (.rd 64 off) s = .next (returned (offsetValue off s) s) := by
  simp only [exec, execRd, accessWidthOk, beq_self_eq_true, h, if_true, returned]

/-- RD of a register returns what the register reads as (R123). -/
theorem exec_rd_of_regValue {r : Reg} {s : State} {v : Word} (h : regValue r s = v) :
    exec (.rd 64 (regOffset r)) s = .next (returned v s) := by
  rw [exec_rd_aligned (offsetAligned_regOffset r), offsetValue, regAt_regOffset, ← h]

/-- RD of a reserved offset returns 0 (R74, R123). -/
theorem exec_rd_reserved {off : BitVec 12} (ha : off.toNat % 8 = 0) (h : reservedOffset off) (s : State) :
    exec (.rd 64 off) s = .next (returned 0#64 s) := by
  rw [exec_rd_aligned (beq_iff_eq.mpr ha), offsetValue, regAt_of_reservedOffset h]

theorem toNat_append_eq_add {m n : Nat} (x : BitVec m) (y : BitVec n) :
    (x ++ y).toNat = x.toNat * 2 ^ n + y.toNat := by
  rw [BitVec.toNat_append, ← Nat.shiftLeft_add_eq_or_of_lt y.isLt, Nat.shiftLeft_eq]

/-- PARAM as a sum of its fields (R22). -/
theorem paramValue_eq (s : State) :
    paramValue s = BitVec.ofNat 64 (5 + 30 * 2 ^ 8 + s.maxChunks.toNat * 2 ^ 16 + s.chunkSize.toNat * 2 ^ 32) := by
  apply BitVec.eq_of_toNat_eq
  have hm := s.maxChunks.isLt
  have hc := s.chunkSize.isLt
  simp only [paramValue, toNat_append_eq_add, BitVec.toNat_ofNat, maxCodeLen, minCodeLen]
  omega

/-- A one-bit field as a register value (R34, R36, R38). -/
theorem setWidth_ofBool (b : Bool) : (BitVec.ofBool b).setWidth 64 = if b then 1#64 else 0#64 := by
  cases b <;> rfl

/-- Every entry of the node list, of any table, is less deep than the longest code allows (R51). -/
theorem len_of_mem_nodeList {codes : CodeTable} {x : BitString} (h : x ∈ nodeList codes) : x.len < maxCodeLen := by
  obtain ⟨d, hd, hx⟩ := List.mem_flatMap.mp h
  obtain ⟨p, -, rfl⟩ := List.mem_map.mp hx
  exact List.mem_range.mp hd

/-- Every index names a node of depth 0 .. 29, whatever the table (R50; log 10). -/
theorem len_nodeAt_lt (codes : CodeTable) (i : BitVec 8) : (nodeAt codes i).len < 30 := by
  rw [nodeAt, List.getD_eq_getElem?_getD]
  cases h : (nodeList codes)[i.toNat]? with
  | none => decide
  | some x => exact len_of_mem_nodeList (List.mem_of_getElem? h)

/-- DEC_STATE as a sum of its fields (R50): the depth fits its five bits. -/
theorem decStateValue_eq (s : State) :
    decStateValue s = BitVec.ofNat 64 (s.decNode.toNat +
      (if accepting (nodeAt s.codes s.decNode) then 2 ^ 8 else 0) + (nodeAt s.codes s.decNode).len * 2 ^ 9) := by
  have hbit : (if accepting (nodeAt s.codes s.decNode) then 2 ^ 8 else 0) = (acceptFlag s).toNat * 2 ^ 8 := by
    rw [acceptFlag]
    cases accepting (nodeAt s.codes s.decNode) <;> rfl
  have hnode := s.decNode.isLt
  have haccept := Bool.toNat_lt (acceptFlag s)
  have hdepth := len_nodeAt_lt s.codes s.decNode
  apply BitVec.eq_of_toNat_eq
  simp only [hbit, decStateValue, depthField, BitVec.toNat_setWidth, toNat_append_eq_add, BitVec.toNat_ofNat,
    BitVec.toNat_ofBool]
  omega

/-- Settles O21: a register's offset reads the register, composed from its fields; no register stands at a reserved
offset. -/
theorem everyOffsetReadsItsRegister : Obligations.EveryOffsetReadsItsRegister := by
  intro s
  have reads : ∀ r {v}, regValue r s = v → exec (.rd 64 (regOffset r)) s = .next (returned v s) :=
    fun _ _ => exec_rd_of_regValue
  refine ⟨reads .id rfl, reads .param (paramValue_eq s), reads .cmd rfl, reads .cmdStatus (setWidth_ofBool s.ill),
    reads .errCmd rfl, reads .sinkCfg ?sinkCfg, reads .chainCount rfl, reads .chainCur rfl, reads .chainLen ?chainLen,
    reads .chainRaddr rfl, reads .chainRdata (apply_ite (BitVec.setWidth 64) _ _ _),
    reads .encSrc rfl, reads .encLen rfl, reads .encDst rfl, reads .encCap rfl, reads .encCount rfl, reads .encAcc rfl,
    reads .encNbits (BitVec.ofNat_toNat 64 s.encNbits).symm, reads .encStatus (setWidth_ofBool s.encOvf),
    reads .encResult rfl,
    reads .decSrc rfl, reads .decLen rfl, reads .decDst rfl, reads .decCap rfl, reads .decCount rfl,
    reads .decConsumed rfl, reads .decState (decStateValue_eq s), reads .decStatus ?decStatus, reads .decResult rfl,
    fun off ha h => exec_rd_reserved ha h s⟩
  case sinkCfg =>
    simp only [regValue]
    cases s.sinkMode <;> rfl
  case chainLen =>
    simp only [regValue, chainLen]
    cases s.chainCur <;> rfl
  case decStatus =>
    simp only [regValue]
    cases s.decCode <;> rfl

/-! ## What WR does -/

/-- WR of a register other than CMD writes the register (R124). -/
theorem exec_wr_reg {r : Reg} (hr : r ≠ .cmd) (v : Word) (s : State) :
    exec (.wr 64 (regOffset r) v) s = .next (regWrite r v s) := by
  simp only [exec, execWr, accessWidthOk, beq_self_eq_true, offsetAligned_regOffset, regAt_regOffset, if_true, hr,
    if_false]

/-- WR of a reserved offset is ignored (R74, R124). -/
theorem exec_wr_reserved {off : BitVec 12} (ha : off.toNat % 8 = 0) (h : reservedOffset off) (v : Word) (s : State) :
    exec (.wr 64 off v) s = .next s := by
  simp only [exec, execWr, accessWidthOk, offsetAligned, ha, beq_self_eq_true, regAt_of_reservedOffset h, if_true]

/-- WR of a legal word to CMD runs its command (R125). -/
theorem exec_wr_cmd_of_decode {w : Word} {i : Instr} (h : decode w = .ok i) (s : State) :
    exec (.wr 64 0x010#12 w) s = exec i s := by
  rw [exec_wr_cmd, dispatch_ok h]

/-- The RO registers of R20. -/
def readOnlyRegs : List Reg :=
  [.id, .param, .cmdStatus, .errCmd, .chainCount, .chainCur, .chainLen, .chainRdata, .encCount, .encAcc, .encNbits,
    .encStatus, .encResult, .decCount, .decConsumed, .decStatus, .decResult]

theorem regWrite_of_readOnly {r : Reg} (h : r ∈ readOnlyRegs) (v : Word) (s : State) : regWrite r v s = s := by
  cases r with
  | sinkCfg | chainRaddr | encSrc | encLen | encDst | encCap | decSrc | decLen | decDst | decCap | decState =>
    exact absurd h (by decide)
  | _ => rfl

/-- WR of an RO register is ignored (R124). -/
theorem exec_wr_readOnly {r : Reg} (h : r ∈ readOnlyRegs) (v : Word) (s : State) :
    exec (.wr 64 (regOffset r) v) s = .next s := by
  have hcmd : r ≠ .cmd := fun hr => absurd (hr ▸ h) (by decide)
  rw [exec_wr_reg hcmd, regWrite_of_readOnly h]

/-- SINK_CFG's bit selects the chain when it is 1 (R38). -/
theorem modeOfBit_eq (b : Bool) : modeOfBit b = if b then .chain else .fixed := by
  cases b <;> rfl

/-- Settles O22: a register's offset reaches `regWrite`, which RO registers ignore; CMD's reaches Dispatch. -/
theorem writesReachTheirRegisters : Obligations.WritesReachTheirRegisters := by
  intro s v
  have writes : ∀ r, r ≠ .cmd → exec (.wr 64 (regOffset r) v) s = .next (regWrite r v s) :=
    fun _ hr => exec_wr_reg hr v s
  refine ⟨modeOfBit_eq (v.getLsbD 0) ▸ writes .sinkCfg (by decide), writes .chainRaddr (by decide),
    writes .encSrc (by decide), writes .encLen (by decide), writes .encDst (by decide), writes .encCap (by decide),
    writes .decSrc (by decide), writes .decLen (by decide), writes .decDst (by decide), writes .decCap (by decide),
    writes .decState (by decide), fun i h => exec_wr_cmd_of_decode h s, fun e h => ?illegal,
    ?readOnly, fun off ha h => exec_wr_reserved ha h v s⟩
  case readOnly =>
    show ∀ off ∈ readOnlyRegs.map regOffset, exec (.wr 64 off v) s = .next s
    exact List.forall_mem_map.mpr fun r hr => exec_wr_readOnly hr v s
  case illegal => rw [exec_wr_cmd, dispatch_error h, raiseError_illegalCommand]

/-! ## The step that runs a command -/

/-- Settles O7: the access is the write to CMD, which runs the command. -/
theorem stepRunsTheDecodedCommand : Obligations.StepRunsTheDecodedCommand := by
  intro s t w i raced rest hp hw h
  exact stepRunsThePendingAccess s t _ raced rest hp ((exec_wr_cmd_of_decode hw _).trans h)

theorem decode_of_decodeTableWord {nbits w : Nat} {i : Instr} (h : decodeTableWord nbits w = some i) :
    decode (BitVec.ofNat 64 (w % 2 ^ nbits)) = .ok i := by
  unfold decodeTableWord at h
  split at h <;> cases h
  assumption

/-- Settles O8: the word is placed as a CMD write that nothing races, and its command leaves `raced` empty. -/
theorem withFetchWordRunsTheWord : Obligations.WithFetchWordRunsTheWord := by
  intro s t nbits w i hd h
  have hstep := stepRunsTheDecodedCommand (s.withFetchWord nbits w) t _ i [] s.pending rfl
    (decode_of_decodeTableWord hd) h
  obtain ⟨-, -, -, -, -, hraced, -⟩ := (fixedFields_eq_iff _ t).mp (fixedFields_of_exec h)
  have hquiet : t.raced = [] := hraced
  rw [hstep, hquiet]
  rfl

/-! ## The control commands -/

/-- Settles O18. -/
theorem nopChangesNothing : Obligations.NopChangesNothing := by
  intro s
  rfl

/-- Settles O19. -/
theorem clrErrClearsTheRecord : Obligations.ClrErrClearsTheRecord := by
  intro s
  rfl

/-- Settles O20. -/
theorem softResetResetsTheBlock : Obligations.SoftResetResetsTheBlock := by
  intro s
  exact ⟨resetBlock s, rfl, resetBlock_eq s⟩

end Sys2Proof.Proofs
end

section
/-! PROOFS of the encoder family (R140-R148): each encoder command, ENC_RUN as its commands, and that ENC_RUN writes
the packed stream of its input. -/

namespace Sys2Proof.Proofs

open Sys2Proof.Machine

/-! ## ENC_INIT and ENC_SYM -/

/-- Settles O26. -/
theorem encInitStartsAnEncode : Obligations.EncInitStartsAnEncode := by
  intro s
  rfl

/-- While OVF is 0 less than a byte is pending (R33). -/
theorem encNbits_le_of_good {s : State} (hs : Good s) (ho : s.encOvf = false) : s.encNbits.toNat ≤ 7 := by
  simpa only [ho, Bool.false_eq_true, if_false] using hs.acc.2

theorem encNbits_pos {s : State} (h0 : s.encNbits ≠ 0#6) : 0 < s.encNbits.toNat :=
  Nat.pos_of_ne_zero fun e => h0 (BitVec.eq_of_toNat_eq e)

/-- While OVF is 0 the code of a byte fits behind the pending bits (R32, R146). -/
theorem pushCode_of_good {s : State} (hs : Good s) (ho : s.encOvf = false) (b : Byte) :
    (pushCode (codeOf s.codes b.toNat) s).encNbits.toNat = s.encNbits.toNat + (codeOf s.codes b.toNat).len ∧
    (pushCode (codeOf s.codes b.toNat) s).encAcc.toNat <
      2 ^ (pushCode (codeOf s.codes b.toNat) s).encNbits.toNat ∧
    pendingBits (pushCode (codeOf s.codes b.toNat) s) = pendingBits s ++ bitsOf (codeOf s.codes b.toNat) := by
  obtain ⟨-, hlen, hval⟩ := codeOf_bounds hs.table (s := b.toNat) (by have := b.isLt; omega)
  exact pushCode_spec (encNbits_le_of_good hs ho) hs.acc.1 hlen hval

/-- ENC_SYM pushes the code and drains the whole bytes (R141). -/
theorem drained_symStep {s : State} (hs : Good s) (ho : s.encOvf = false) (b : Byte) :
    ∃ ys, Drained (pushCode (codeOf s.codes b.toNat) s) (symStep b s) ys := by
  obtain ⟨-, hacc, -⟩ := pushCode_of_good hs ho b
  have hsym : symStep b s = drainBytes 8 (pushCode (codeOf s.codes b.toNat) s) := by
    rw [symStep, if_neg (by simp [ho])]
  rw [hsym]
  refine drainBytes_spec 8 hs.params hs.memories.2.2.1 hs.chain hacc ho ?_
  have := (pushCode (codeOf s.codes b.toNat) s).encNbits.isLt
  omega

/-- Settles O27: the bits drained are the pending bits with the code behind them. -/
theorem encSymAppendsTheCode : Obligations.EncSymAppendsTheCode := by
  intro s b hs
  refine ⟨fun ho => congrArg Host.Outcome.next (symStep_error b ho), fun ho => ?_⟩
  obtain ⟨hn, -, hbits⟩ := pushCode_of_good hs ho b
  obtain ⟨ys, hd⟩ := drained_symStep hs ho b
  have hlength := hd.length
  have hnbits := hd.nbits
  have hovf := hd.ovf
  rw [hn] at hlength hnbits hovf
  exact ⟨symStep b s, ys, rfl, hlength, hbits ▸ hd.bits, hlength ▸ hnbits, hd.acc, hovf, hlength ▸ hd.count,
    hd.took, symStep_frame b s⟩

/-! ## ENC_FLUSH -/

/-- R24(e): fewer than 8 leading bits of EOS are all 1. -/
theorem take_eosBits {codes : CodeTable} (hc : TableOk codes) {d : Nat} (hd : d ≤ 7) :
    (bitsOf (codeOf codes eosSymbol)).take d = List.replicate d true := by
  have hlen := hc.eosLong
  have hones := accepting_paddingNode hc hd
  simp only [accepting, paddingNode, Bool.and_eq_true, beq_iff_eq] at hones
  rw [take_bitsOf _ (by omega), hones.2, bitsOf_ones]

/-- With nothing pending there is no padding byte (R142). -/
theorem flushStep_nothing {s : State} (h0 : s.encNbits = 0#6) : flushStep s = s := by
  simp [flushStep, h0]

/-- The last byte is the oldest byte after the padding is pushed (R142). -/
theorem padByte_eq_oldestByte {s : State}
    (hn : (pushCode (paddingNode s.codes (8 - s.encNbits.toNat)) s).encNbits.toNat = 8) :
    padByte s = oldestByte (pushCode (paddingNode s.codes (8 - s.encNbits.toNat)) s) := by
  rw [oldestByte, hn]
  simp [padByte, paddingNode, prefixValue]

/-- The last byte: the pending bits, then leading bits of EOS (R142). -/
theorem byteBits_padByte {s : State} (hs : Good s) (ho : s.encOvf = false) (h0 : s.encNbits ≠ 0#6) :
    byteBits (padByte s) = pendingBits s ++ (bitsOf (codeOf s.codes eosSymbol)).take (8 - s.encNbits.toNat) := by
  have hnb := encNbits_le_of_good hs ho
  have hpos := encNbits_pos h0
  have hlen := hs.table.eosLong
  have hval := (codeOf_bounds hs.table (s := eosSymbol) (by decide)).2.2
  set pad := paddingNode s.codes (8 - s.encNbits.toNat) with hpad
  have hpadlen : pad.len = 8 - s.encNbits.toNat := rfl
  obtain ⟨hn, -, hbits⟩ := pushCode_spec (c := pad) hnb hs.acc.1 (by omega) (prefixValue_lt hval (by omega))
  have hn8 : (pushCode pad s).encNbits.toNat = 8 := by omega
  obtain ⟨hleft, -, hold⟩ := dropByte_spec (s := pushCode pad s) (by omega)
  have hnone : pendingBits (dropByte (pushCode pad s)) = [] := by
    rw [pendingBits, hleft, hn8]
    rfl
  rw [padByte_eq_oldestByte hn8, take_bitsOf _ (by omega), ← hpad]
  rw [hbits, hnone, List.append_nil] at hold
  exact hold.symm

/-- ENC_FLUSH with something pending (R142): a full sink refuses the last byte, or the sink takes it. -/
theorem flushStep_cases {s : State} (hs : Good s) (ho : s.encOvf = false) (h0 : s.encNbits ≠ 0#6) :
    (sinkRoom s = 0 ∧ flushStep s = { s with encOvf := true }) ∨
    ∃ t, flushStep s = clearAcc t ∧ sinkAppend (padByte s) s = some t ∧ sinkTook s t [padByte s] ∧
      sinkRoom s = sinkRoom t + 1 ∧ t.encCount = s.encCount + 1#64 := by
  obtain ⟨hnone, hroom⟩ | ⟨t, hsome, htook, hroom, -, -, hcount⟩ :=
    sinkAppend_spec hs.params hs.memories.2.2.1 hs.chain (padByte s)
  · exact .inl ⟨hroom, by simp [flushStep, ho, h0, hnone]⟩
  · exact .inr ⟨t, by simp [flushStep, ho, h0, hsome, clearAcc], hsome, htook, hroom, hcount⟩

/-- Settles O28. -/
theorem encFlushPadsAndEmits : Obligations.EncFlushPadsAndEmits := by
  intro s hs
  refine ⟨fun h => congrArg Host.Outcome.next ?_, fun ho h0 hfull => congrArg Host.Outcome.next ?_,
    fun ho h0 hroom => ?_⟩
  · obtain ho | h0 := h
    · exact flushStep_error ho
    · exact flushStep_nothing h0
  · obtain ⟨-, hflush⟩ | ⟨t, -, -, -, hroom, -⟩ := flushStep_cases hs ho h0
    · exact hflush
    · omega
  · obtain ⟨hfull, -⟩ | ⟨t, hflush, happend, htook, -, hcount⟩ := flushStep_cases hs ho h0
    · exact absurd hfull hroom
    · have hbits := byteBits_padByte hs ho h0
      have hpos := encNbits_pos h0
      refine ⟨clearAcc t, padByte s, congrArg Host.Outcome.next hflush, hbits, ?_, htook, ?_⟩
      · rw [hbits, take_eosBits hs.table (by omega)]
      · rw [← hcount, clearAcc, sinkAppend_frame happend]

/-! ## ENC_RUN as its commands -/

/-- One more source byte (R143): after an Overflow ENC_SYM changes nothing, so the loop may as well go on. -/
theorem encLoop_succ (n : Nat) (i : Word) (s : State) :
    encLoop (n + 1) i s =
      symStep (hostRead (encLoop n i s) (s.encSrc + (i + BitVec.ofNat 64 n))) (encLoop n i s) := by
  induction n generalizing i s with
  | zero => simp [encLoop]
  | succ n ih =>
    set t := symStep (hostRead s (s.encSrc + i)) s with ht
    have first (m : Nat) : encLoop (m + 1) i s = if t.encOvf then t else encLoop m (i + 1#64) t := rfl
    have hsrc : t.encSrc = s.encSrc := by rw [ht, symStep_frame]
    have hidx : i + 1#64 + BitVec.ofNat 64 n = i + BitVec.ofNat 64 (n + 1) := by
      rw [BitVec.add_assoc, ← BitVec.ofNat_add, Nat.add_comm]
    rw [first (n + 1), first n]
    cases ho : t.encOvf with
    | true => simp only [if_true, symStep_error _ ho]
    | false => simp only [Bool.false_eq_true, if_false, ih, hsrc, hidx]

/-- ENC_RUN's loop after `k` source bytes (R143). -/
def encodeState (s : State) (k : Nat) : State := encLoop k 0#64 (encStart s)

theorem encodeState_succ (s : State) (k : Nat) :
    encodeState s (k + 1) =
      symStep (hostRead (encodeState s k) (s.encSrc + BitVec.ofNat 64 k)) (encodeState s k) := by
  rw [encodeState, encLoop_succ, BitVec.zero_add]
  rfl

/-- ENC_RUN: the loop over the source, the flush, the result (R143). -/
theorem runEncoder_eq_writeEncResult (s : State) :
    runEncoder s = writeEncResult (flushStep (encodeState s s.encLen.toNat)) := rfl

/-- Settles O29. -/
theorem encRunEqualsItsCommands : Obligations.EncRunEqualsItsCommands := by
  intro s
  exact ⟨encodeState s, flushStep (encodeState s s.encLen.toNat), rfl,
    fun k _ => congrArg Host.Outcome.next (encodeState_succ s k).symm, rfl, rfl⟩

/-! ## What the source buffer holds while ENC_RUN runs -/

/-- The source and the buffer of a fixed sink do not overlap (R81). -/
def sourceApart (s : State) : Prop :=
  s.sinkMode = .fixed → apart s.encSrc s.encLen.toNat s.encDst s.encCap.toNat

theorem not_encBuffer_source {s : State} (h : sourceApart s) {k : Nat} (hk : k < s.encLen.toNat) :
    ¬ encBuffer s (s.encSrc + BitVec.ofNat 64 k).toNat := by
  rintro ⟨⟨j, hj, e⟩, hm⟩
  exact h hm k j hk hj (BitVec.eq_of_toNat_eq e)

/-- The loop leaves every byte outside the output buffer as it was (R71). -/
theorem hostRead_encodeState {s : State} {addr : Word} (h : ¬ encBuffer s addr.toNat) (k : Nat) :
    hostRead (encodeState s k) addr = hostRead s addr := by
  have hread : readCell (encodeState s k).mem addr.toNat = readCell s.mem addr.toNat :=
    readCell_of_storesIn (stores_encLoop k 0#64 (encStart s)) h
  have hraced : (encodeState s k).raced = s.raced := by rw [encodeState, encLoop_frame]; rfl
  have hepoch : (encodeState s k).epoch = s.epoch := by rw [encodeState, encLoop_frame]; rfl
  simp only [hostRead, hread, hraced, hepoch]

/-- With buffers that do not overlap, the loop encodes the bytes the source held at the start (R81, R143). -/
theorem encodeState_succ_of_apart {s : State} (h : sourceApart s) {k : Nat} (hk : k < s.encLen.toNat) :
    encodeState s (k + 1) = symStep (hostRead s (s.encSrc + BitVec.ofNat 64 k)) (encodeState s k) := by
  rw [encodeState_succ, hostRead_encodeState (not_encBuffer_source h hk)]

theorem sourceBytes_succ_last (s : State) (a : Word) (n : Nat) :
    sourceBytes s a (n + 1) = sourceBytes s a n ++ [hostRead s (a + BitVec.ofNat 64 n)] := by
  rw [sourceBytes, List.range_succ, List.map_append]
  rfl

theorem encodeState_codes (s : State) (k : Nat) : (encodeState s k).codes = s.codes := by
  rw [encodeState, encLoop_frame]
  rfl

theorem good_encodeState {s : State} (h : Good s) (k : Nat) : Good (encodeState s k) :=
  good_encLoop k 0#64 (good_encStart h)

/-! ## Streams of bits through the encoder -/

@[simp] theorem length_flatMap_byteBits (ys : List Byte) : (ys.flatMap byteBits).length = 8 * ys.length := by
  simp [List.length_flatMap, Nat.mul_comm]

@[simp] theorem length_pendingBits (s : State) : (pendingBits s).length = s.encNbits.toNat := length_bitsOf _

theorem byteBits_inj {a b : Byte} (h : byteBits a = byteBits b) : a = b :=
  BitVec.eq_of_toNat_eq (bitsOf_inj a.isLt b.isLt h)

/-- Whole bytes whose bits begin the bits of other bytes begin those bytes. -/
theorem prefix_of_flatMap_byteBits_prefix {ys zs : List Byte} (h : ys.flatMap byteBits <+: zs.flatMap byteBits) :
    ys <+: zs := by
  induction ys generalizing zs with
  | nil => exact List.nil_prefix
  | cons y ys ih =>
    cases zs with
    | nil =>
      have := h.length_le
      simp at this
    | cons z zs =>
      obtain ⟨rest, h⟩ := h
      rw [List.flatMap_cons, List.flatMap_cons, List.append_assoc] at h
      obtain ⟨hyz, h⟩ := List.append_inj h (by rw [length_byteBits, length_byteBits])
      rw [byteBits_inj hyz, List.cons_prefix_cons]
      exact ⟨rfl, ih ⟨rest, h⟩⟩

/-- `t` is `s` after `bits`, of which the first are the pending bits of `s`, came through the encoder (R141, R142): its
sink took their whole bytes `ys`, cut at its room; the rest is pending, unless the sink refused a byte. -/
structure Emitted (s t : State) (bits : List Bool) (ys : List Byte) : Prop where
  length : ys.length = min (bits.length / 8) (sinkRoom s)
  whole : ys.flatMap byteBits <+: bits
  rest : t.encOvf = false → bits = ys.flatMap byteBits ++ pendingBits t
  ovf : t.encOvf = decide (sinkRoom s < bits.length / 8)
  count : t.encCount = s.encCount + BitVec.ofNat 64 ys.length
  took : sinkTook s t ys
  room : sinkRoom s = sinkRoom t + ys.length
  mode : t.sinkMode = s.sinkMode
  dst : t.encDst = s.encDst

/-- Nothing more, with less than a byte pending. -/
theorem emitted_nothing {s : State} (hs : Good s) (ho : s.encOvf = false) : Emitted s s (pendingBits s) [] := by
  have hnone : s.encNbits.toNat / 8 = 0 := Nat.div_eq_of_lt (Nat.lt_succ_of_le (encNbits_le_of_good hs ho))
  refine ⟨?_, List.nil_prefix, fun _ => rfl, ?_, ?_, sinkTook_nil hs.chain rfl rfl rfl rfl rfl, rfl, rfl, rfl⟩
  · simp [hnone]
  · simp [ho, hnone]
  · simp

/-- After an Overflow more bits change nothing (R34). -/
theorem emitted_more_of_ovf {s t : State} {bits : List Bool} {ys : List Byte} (h : Emitted s t bits ys)
    (ho : t.encOvf = true) (more : List Bool) : Emitted s t (bits ++ more) ys := by
  have hfull : sinkRoom s < bits.length / 8 := of_decide_eq_true (h.ovf.symm.trans ho)
  have hlength := h.length
  refine ⟨?_, h.whole.trans (List.prefix_append _ _), fun hno => ?_, ?_, h.count, h.took, h.room, h.mode, h.dst⟩
  · rw [List.length_append]; omega
  · rw [ho] at hno; cases hno
  · rw [ho, List.length_append]
    exact (decide_eq_true (by omega)).symm

/-- One run of bits after another. -/
theorem emitted_trans {s t u : State} {bits more : List Bool} {ys zs : List Byte} (h : Emitted s t bits ys)
    (ho : t.encOvf = false) (h' : Emitted t u (pendingBits t ++ more) zs) :
    Emitted s u (bits ++ more) (ys ++ zs) := by
  have hbits := h.rest ho
  have hlen := congrArg List.length hbits
  have hlength' := h'.length
  have hroom := h.room
  have hsplit : bits ++ more = ys.flatMap byteBits ++ (pendingBits t ++ more) := by rw [hbits, List.append_assoc]
  simp only [List.length_append, length_flatMap_byteBits, length_pendingBits] at hlen hlength'
  refine ⟨?_, ?_, fun hno => ?_, ?_, ?_, ?_, ?_, h'.mode.trans h.mode, h'.dst.trans h.dst⟩
  · rw [List.length_append, List.length_append]; omega
  · rw [hsplit, List.flatMap_append, List.prefix_append_right_inj]
    exact h'.whole
  · rw [hsplit, h'.rest hno, List.flatMap_append, List.append_assoc]
  · rw [h'.ovf, List.length_append, List.length_append, length_pendingBits]
    exact decide_eq_decide.mpr (by omega)
  · rw [h'.count, h.count, List.length_append, BitVec.ofNat_add, BitVec.add_assoc]
  · exact sinkTook_trans h.took h'.took h.mode h.dst h.count
  · rw [List.length_append, hroom, h'.room]; omega

/-- ENC_SYM passes the code of its byte (R141). -/
theorem emitted_symStep {s t : State} {bits : List Bool} {ys : List Byte} (h : Emitted s t bits ys) (ht : Good t)
    (b : Byte) : ∃ zs, Emitted s (symStep b t) (bits ++ bitsOf (codeOf t.codes b.toNat)) zs := by
  cases ho : t.encOvf with
  | true => exact ⟨ys, by rw [symStep_error b ho]; exact emitted_more_of_ovf h ho _⟩
  | false =>
    obtain ⟨hn, -, hbits⟩ := pushCode_of_good ht ho b
    obtain ⟨zs, hd⟩ := drained_symStep ht ho b
    have hall := hd.bits
    have hlength := hd.length
    have hovf := hd.ovf
    rw [hbits] at hall
    rw [hn] at hlength hovf
    refine ⟨ys ++ zs,
      emitted_trans h ho ⟨?_, ⟨_, hall.symm⟩, fun _ => hall, ?_, hd.count, hd.took, hd.room, ?_, ?_⟩⟩
    · rw [List.length_append, length_pendingBits, length_bitsOf]; exact hlength
    · rw [List.length_append, length_pendingBits, length_bitsOf]; exact hovf
    · rw [symStep_frame]
    · rw [symStep_frame]

theorem length_paddingBits {codes : CodeTable} (hc : TableOk codes) (l : Nat) :
    (paddingBits codes l).length = paddingLen l := by
  have hlen := hc.eosLong
  rw [paddingBits, List.length_take, length_bitsOf, paddingLen]
  omega

/-- ENC_FLUSH passes the padding of what is pending (R142). -/
theorem emitted_flushStep_of_pending {s : State} (hs : Good s) (ho : s.encOvf = false) :
    ∃ ys, Emitted s (flushStep s) (pendingBits s ++ paddingBits s.codes s.encNbits.toNat) ys := by
  by_cases h0 : s.encNbits = 0#6
  · have hpad : paddingBits s.codes s.encNbits.toNat = [] := by rw [h0]; rfl
    rw [flushStep_nothing h0, hpad, List.append_nil]
    exact ⟨[], emitted_nothing hs ho⟩
  · have hnb := encNbits_le_of_good hs ho
    have hpos := encNbits_pos h0
    have hbits : pendingBits s ++ paddingBits s.codes s.encNbits.toNat = byteBits (padByte s) := by
      rw [byteBits_padByte hs ho h0, paddingBits]
      congr 2; omega
    rw [hbits]
    obtain ⟨hfull, hflush⟩ | ⟨t, hflush, happend, htook, hroom, hcount⟩ := flushStep_cases hs ho h0
    · rw [hflush]
      refine ⟨[], ?_, List.nil_prefix, fun hno => (by cases hno), ?_, ?_,
        sinkTook_nil hs.chain rfl rfl rfl rfl rfl, rfl, rfl, rfl⟩
      · simp [hfull]
      · simp [hfull]
      · simp
    · rw [hflush]
      have hframe := sinkAppend_frame happend
      have hovf : (clearAcc t).encOvf = false := by rw [clearAcc, hframe]; exact ho
      refine ⟨[padByte s], ?_, ?_, fun _ => ?_, ?_, hcount, htook, hroom, ?_, ?_⟩
      · simp [hroom]
      · simp
      · rw [List.flatMap_singleton]; exact (List.append_nil _).symm
      · simp [hovf, hroom]
      · rw [clearAcc, hframe]
      · rw [clearAcc, hframe]

/-- ENC_FLUSH passes the padding of the whole stream (R100, R142). -/
theorem emitted_flushStep {s t : State} {bits : List Bool} {ys : List Byte} (h : Emitted s t bits ys) (ht : Good t) :
    ∃ zs, Emitted s (flushStep t) (bits ++ paddingBits t.codes bits.length) zs := by
  cases ho : t.encOvf with
  | true => exact ⟨ys, by rw [flushStep_error ho]; exact emitted_more_of_ovf h ho _⟩
  | false =>
    obtain ⟨zs, hz⟩ := emitted_flushStep_of_pending ht ho
    have hlen : bits.length % 8 = t.encNbits.toNat % 8 := by
      rw [h.rest ho, List.length_append, length_flatMap_byteBits, length_pendingBits]
      omega
    have hpad : paddingBits t.codes bits.length = paddingBits t.codes t.encNbits.toNat := by
      rw [paddingBits, paddingBits, hlen]
    exact ⟨ys ++ zs, hpad ▸ emitted_trans h ho hz⟩

/-! ## ENC_RUN writes the packed stream of its input -/

/-- The loop's invariant: the codes of the source bytes so far came through the encoder (R143). -/
theorem emitted_encodeState {s : State} (hs : Good s) (hapart : sourceApart s) {k : Nat} (hk : k ≤ s.encLen.toNat) :
    ∃ ys, Emitted (encStart s) (encodeState s k) (codeBits s.codes (sourceBytes s s.encSrc k)) ys := by
  induction k with
  | zero => exact ⟨[], emitted_nothing (good_encStart hs) rfl⟩
  | succ k ih =>
    obtain ⟨ys, h⟩ := ih (by omega)
    obtain ⟨zs, hz⟩ := emitted_symStep h (good_encodeState hs k) (hostRead s (s.encSrc + BitVec.ofNat 64 k))
    refine ⟨zs, ?_⟩
    rw [encodeState_succ_of_apart hapart hk, sourceBytes_succ_last]
    rw [encodeState_codes] at hz
    simpa [codeBits] using hz

/-- ENC_RUN up to its result: the bits of the packed stream came through the encoder (R143, R144). -/
theorem emitted_streamBits {s : State} (hs : Good s) (hapart : sourceApart s) :
    ∃ ys, Emitted (encStart s) (flushStep (encodeState s s.encLen.toNat))
      (streamBits s.codes (sourceBytes s s.encSrc s.encLen.toNat)) ys := by
  obtain ⟨ys, h⟩ := emitted_encodeState hs hapart (Nat.le_refl _)
  have hflush := emitted_flushStep h (good_encodeState hs _)
  rwa [encodeState_codes] at hflush

theorem length_streamBits {codes : CodeTable} (hc : TableOk codes) (xs : List Byte) :
    (streamBits codes xs).length = 8 * (packedStream codes xs).length := by
  rw [← flatMap_byteBits_packedStream hc, length_flatMap_byteBits]

/-- R144: the packed stream has `ceil(L / 8)` bytes. -/
theorem length_packedStream {codes : CodeTable} (hc : TableOk codes) (xs : List Byte) :
    (packedStream codes xs).length = ((codeBits codes xs).length + 7) / 8 := by
  have hlen := length_streamBits hc xs
  rw [streamBits, List.length_append, length_paddingBits hc, paddingLen] at hlen
  omega

/-- What came through is the packed stream, cut at the room of the sink. -/
theorem emitted_packedStream {codes : CodeTable} {s t : State} {xs ys : List Byte} (hc : TableOk codes)
    (h : Emitted s t (streamBits codes xs) ys) : ys = (packedStream codes xs).take (sinkRoom s) := by
  have hwhole := h.whole
  have hlength := h.length
  rw [← flatMap_byteBits_packedStream hc] at hwhole
  rw [length_streamBits hc] at hlength
  rw [List.prefix_iff_eq_take.mp (prefix_of_flatMap_byteBits_prefix hwhole), hlength,
    Nat.mul_div_cancel_left _ (by decide), List.take_eq_take_iff]
  omega

/-- With no Overflow a stream of whole bytes leaves nothing pending. -/
theorem acc_of_emitted_whole {s t : State} {bits : List Bool} {ys : List Byte} (h : Emitted s t bits ys) (ht : Good t)
    (ho : t.encOvf = false) (h8 : 8 ∣ bits.length) : t.encAcc = 0#64 ∧ t.encNbits = 0#6 := by
  have hacc := ht.acc.1
  have hnb := encNbits_le_of_good ht ho
  have hlen := congrArg List.length (h.rest ho)
  rw [List.length_append, length_flatMap_byteBits, length_pendingBits] at hlen
  have hn0 : t.encNbits.toNat = 0 := by omega
  rw [hn0] at hacc
  exact ⟨BitVec.eq_of_toNat_eq (Nat.lt_one_iff.mp hacc), BitVec.eq_of_toNat_eq hn0⟩

/-- Settles O30: the loop and the flush pass the bits of the packed stream through the encoder. -/
theorem encRunWritesThePackedStream : Obligations.EncRunWritesThePackedStream := by
  intro s hs hapart xs y room
  have hroom : sinkRoom (encStart s) = room := by
    cases hm : s.sinkMode <;> simp only [room, sinkRoom, encStart_sinkMode, hm] <;> rfl
  have hchain : s.sinkMode = .chain → chainLen s = 0 → room = s.maxChunks.toNat * s.chunkSize.toNat := by
    intro hm hempty
    simp [room, hm, chainRoom, hempty, chunkBytes]
  obtain ⟨ys, h⟩ := emitted_streamBits hs hapart
  have hys := emitted_packedStream hs.table h
  have hlength := h.length
  have hovf := h.ovf
  have hcount := h.count
  have htook := h.took
  have hwhole := length_streamBits hs.table xs
  rw [hwhole, Nat.mul_div_cancel_left _ (by decide), hroom] at hlength hovf
  rw [hys, hroom] at htook
  rw [encStart_encCount, BitVec.zero_add, hlength] at hcount
  set t := flushStep (encodeState s s.encLen.toNat)
  have hresult : (writeEncResult t).encResult =
      if room < y.length then -(1#64) else BitVec.ofNat 64 y.length := by
    rw [writeEncResult, hovf, hcount]
    by_cases hlt : room < y.length
    · simp only [y, hlt, decide_true, if_true, overflowResult]
    · rw [Nat.min_eq_left (Nat.le_of_not_lt hlt)]
      simp only [y, hlt, decide_false, Bool.false_eq_true, if_false]
  have hacc (hle : y.length ≤ room) : t.encAcc = 0#64 ∧ t.encNbits = 0#6 :=
    acc_of_emitted_whole h (good_flushStep (good_encodeState hs _))
      (by rw [hovf]; exact decide_eq_false (Nat.not_lt_of_le hle)) ⟨_, hwhole⟩
  exact ⟨length_packedStream hs.table xs, hchain, writeEncResult t, rfl, htook, hcount, hovf, hresult, hacc,
    runEncoder_frame s⟩

/-! ## Two encodes of one input -/

/-- Two encodes into fixed buffers of one capacity that have come equally far: the registers the encoder works on
agree, and so do the bytes stored so far. -/
structure Twins (s u : State) : Prop where
  codes : s.codes = u.codes
  mode : s.sinkMode = .fixed
  otherMode : u.sinkMode = .fixed
  cap : s.encCap = u.encCap
  count : s.encCount = u.encCount
  acc : s.encAcc = u.encAcc
  nbits : s.encNbits = u.encNbits
  ovf : s.encOvf = u.encOvf
  wf : Memory.wf s.mem = true
  otherWf : Memory.wf u.mem = true
  bytes : ∀ k, k < s.encCount.toNat →
    readCell s.mem (s.encDst + BitVec.ofNat 64 k).toNat = readCell u.mem (u.encDst + BitVec.ofNat 64 k).toNat

/-- A byte of a buffer after a store at its count: the stored byte there, what was there below (R210). -/
theorem readCell_putFixed {s : State} (hw : Memory.wf s.mem = true) (v : Byte) {k : Nat} (hk : k ≤ s.encCount.toNat) :
    readCell (putFixed v s).mem (s.encDst + BitVec.ofNat 64 k).toNat =
      if k = s.encCount.toNat then v else readCell s.mem (s.encDst + BitVec.ofNat 64 k).toNat := by
  have haddr : (s.encDst + BitVec.ofNat 64 k).toNat = (s.encDst + s.encCount).toNat ↔ k = s.encCount.toNat := by
    rw [← BitVec.toNat_eq, BitVec.add_right_inj, ← BitVec.toNat_inj, BitVec.toNat_ofNat]
    omega
  rw [putFixed, readCell_writeCell hw]
  simp only [haddr]

theorem twins_putFixed {s u : State} (h : Twins s u) (hlt : s.encCount < s.encCap) (v : Byte) :
    Twins (putFixed v s) (putFixed v u) := by
  have hnext : (putFixed v s).encCount.toNat = s.encCount.toNat + 1 := by
    have := s.encCap.isLt
    rw [BitVec.lt_def] at hlt
    simp only [putFixed, BitVec.toNat_add, BitVec.toNat_ofNat]
    omega
  refine ⟨h.codes, h.mode, h.otherMode, h.cap, congrArg (· + 1#64) h.count, h.acc, h.nbits, h.ovf,
    wf_writeCell h.wf _ v, wf_writeCell h.otherWf _ v, fun k hk => ?_⟩
  rw [hnext] at hk
  have hks : k ≤ s.encCount.toNat := by omega
  have hku : k ≤ u.encCount.toNat := h.count ▸ hks
  refine (readCell_putFixed h.wf v hks).trans (Eq.trans ?_ (readCell_putFixed h.otherWf v hku).symm)
  rw [← h.count]
  by_cases hkc : k = s.encCount.toNat
  · rw [if_pos hkc, if_pos hkc]
  · rw [if_neg hkc, if_neg hkc]
    exact h.bytes k (by omega)

/-- SinkAppend does the same to both buffers. -/
theorem twins_sinkAppend {s u : State} (h : Twins s u) (v : Byte) :
    Option.Rel Twins (sinkAppend v s) (sinkAppend v u) := by
  have hfull : u.encCap ≤ u.encCount ↔ s.encCap ≤ s.encCount := by rw [h.cap, h.count]
  simp only [sinkAppend_fixed h.mode, sinkAppend_fixed h.otherMode, hfull]
  split
  · exact .none
  · rename_i hroom
    exact .some (twins_putFixed h (BitVec.not_le.mp hroom) v)

theorem twins_overflow {s u : State} (h : Twins s u) :
    Twins (raiseError .encOverflow s) (raiseError .encOverflow u) := { h with ovf := rfl }

theorem twins_pushCode {s u : State} (h : Twins s u) (c : BitString) : Twins (pushCode c s) (pushCode c u) :=
  { h with
    acc := by rw [pushCode_encAcc, pushCode_encAcc, h.acc]
    nbits := by rw [pushCode_encNbits, pushCode_encNbits, h.nbits] }

theorem twins_dropByte {s u : State} (h : Twins s u) : Twins (dropByte s) (dropByte u) :=
  { h with
    acc := by rw [dropByte_encAcc, dropByte_encAcc, h.acc, h.nbits]
    nbits := by rw [dropByte_encNbits, dropByte_encNbits, h.nbits] }

theorem twins_clearAcc {s u : State} (h : Twins s u) : Twins (clearAcc s) (clearAcc u) :=
  { h with acc := rfl, nbits := rfl }

theorem twins_drainBytes {s u : State} (fuel : Nat) (h : Twins s u) :
    Twins (drainBytes fuel s) (drainBytes fuel u) := by
  induction fuel generalizing s u with
  | zero => exact h
  | succ fuel ih =>
    have hold : oldestByte u = oldestByte s := by rw [oldestByte, oldestByte, h.acc, h.nbits]
    have happ := twins_sinkAppend h (oldestByte s)
    rw [drainBytes, drainBytes, ← h.nbits, hold]
    generalize sinkAppend (oldestByte s) s = a, sinkAppend (oldestByte s) u = b at happ ⊢
    split
    · cases happ with
      | none => exact twins_overflow h
      | some ht => exact ih (twins_dropByte ht)
    · exact h

theorem twins_symStep {s u : State} (b : Byte) (h : Twins s u) : Twins (symStep b s) (symStep b u) := by
  rw [symStep, symStep, ← h.ovf, ← h.codes]
  split
  · exact h
  · exact twins_drainBytes 8 (twins_pushCode h _)

theorem twins_flushStep {s u : State} (h : Twins s u) : Twins (flushStep s) (flushStep u) := by
  have hpad : padByte u = padByte s := by simp only [padByte, h.acc, h.nbits, h.codes]
  have happ := twins_sinkAppend h (padByte s)
  rw [flushStep, flushStep, ← h.ovf, ← h.nbits, hpad]
  generalize sinkAppend (padByte s) s = a, sinkAppend (padByte s) u = b at happ ⊢
  split
  · exact h
  · split
    · exact h
    · cases happ with
      | none => exact twins_overflow h
      | some ht => exact twins_clearAcc ht

/-- Two loops over sources with the same bytes (R143). -/
theorem twins_encodeState {s u : State} (h : Twins (encStart s) (encStart u)) (hlen : s.encLen = u.encLen)
    (hsrc : sourceBytes s s.encSrc s.encLen.toNat = sourceBytes u u.encSrc s.encLen.toNat)
    (hs : sourceApart s) (hu : sourceApart u) {k : Nat} (hk : k ≤ s.encLen.toNat) :
    Twins (encodeState s k) (encodeState u k) := by
  induction k with
  | zero => exact h
  | succ k ih =>
    have hbyte := List.map_inj_left.mp hsrc k (List.mem_range.mpr hk)
    rw [encodeState_succ_of_apart hs hk, encodeState_succ_of_apart hu (hlen ▸ hk), hbyte]
    exact twins_symStep _ (ih (by omega))

theorem encDst_flushed (s : State) (k : Nat) : (flushStep (encodeState s k)).encDst = s.encDst := by
  rw [flushStep_frame, encodeState, encLoop_frame]
  rfl

/-- Settles O31: the two loops and flushes keep the states twins. -/
theorem encRunIsDeterministic : Obligations.EncRunIsDeterministic := by
  intro s u hcodes hms hmu hcap hlen hws hwu hsrc hs hu
  have hstart : Twins (encStart s) (encStart u) :=
    ⟨hcodes, hms, hmu, hcap, rfl, rfl, rfl, rfl, hws, hwu, fun k hk => absurd hk (Nat.not_lt_zero k)⟩
  rw [← hlen] at hsrc
  have h := twins_flushStep (twins_encodeState hstart hlen hsrc (fun _ => hs) (fun _ => hu) (Nat.le_refl _))
  have hbytes := h.bytes
  rw [encDst_flushed, encDst_flushed] at hbytes
  have hrun : runEncoder u = writeEncResult (flushStep (encodeState u s.encLen.toNat)) := by
    rw [runEncoder_eq_writeEncResult, hlen]
  refine ⟨writeEncResult (flushStep (encodeState s s.encLen.toNat)), _, rfl, congrArg Host.Outcome.next hrun, ?_,
    h.count, hbytes⟩
  simp only [writeEncResult, h.ovf, h.count]

end Sys2Proof.Proofs
end

section
/-! PROOFS of the decoder family (R170-R185): T and the code tree, each decoder command, DEC_RUN as its commands and
what it reports, a decode in two parts, and the decode of an encoded source. -/

namespace Sys2Proof.Proofs

open Sys2Proof.Machine

/-! ## The commands of one nibble or byte -/

/-- Settles O37. -/
theorem decInitStartsADecode : Obligations.DecInitStartsADecode := by
  intro s
  rfl

/-- Settles O38. -/
theorem decNibTakesOneTransition : Obligations.DecNibTakesOneTransition := by
  intro s n
  refine ⟨fun h => congrArg Host.Outcome.next (nibStep_error n h),
    fun h => ⟨fun ht => ?_, fun y ht => ?_, fun y b ht => ?_⟩⟩
  -- T answers once: each answer leaves the cases of `nibStep_cases` with that answer.
  all_goals
    obtain ⟨ht', e⟩ | ⟨z, ht', e⟩ | ⟨z, c, ht', hc, e⟩ | ⟨z, c, ht', hc, e⟩ := nibStep_cases n h <;>
      rw [ht] at ht' <;> cases ht'
  · exact congrArg Host.Outcome.next e
  · exact congrArg Host.Outcome.next e
  · exact ⟨fun _ => congrArg Host.Outcome.next e, fun hlt => absurd hc (BitVec.not_le.mpr hlt)⟩
  · exact ⟨fun hle => absurd hc (BitVec.not_lt.mpr hle), fun _ => congrArg Host.Outcome.next e⟩

/-- The high nibble of a byte, as a number (R76). -/
theorem highNibble_eq (b : Byte) : b.extractLsb' 4 4 = BitVec.ofNat 4 (b.toNat / 16) := by
  apply BitVec.eq_of_toNat_eq
  rw [BitVec.extractLsb'_toNat, BitVec.toNat_ofNat, Nat.shiftRight_eq_div_pow]

theorem lowNibble_eq (b : Byte) : b.extractLsb' 0 4 = BitVec.ofNat 4 (b.toNat % 16) := by
  apply BitVec.eq_of_toNat_eq
  rw [BitVec.extractLsb'_toNat, BitVec.toNat_ofNat, Nat.shiftRight_zero, Nat.mod_mod_of_dvd _ (by decide)]

/-- DEC_BYTE ends after a high nibble that failed (R176). -/
theorem byteStep_of_high_error {s : State} {b : Byte} (h : (nibStep (b.extractLsb' 4 4) s).decCode ≠ .ok) :
    byteStep b s = nibStep (b.extractLsb' 4 4) s := by
  simp only [byteStep, decReady_iff, h, if_false]

/-- DEC_BYTE after a high nibble that did not fail (R176). -/
theorem byteStep_of_high_ok {s : State} {b : Byte} (h : (nibStep (b.extractLsb' 4 4) s).decCode = .ok) :
    byteStep b s =
      if (nibStep (b.extractLsb' 0 4) (nibStep (b.extractLsb' 4 4) s)).decCode = .ok then
        { nibStep (b.extractLsb' 0 4) (nibStep (b.extractLsb' 4 4) s) with
          decConsumed := (nibStep (b.extractLsb' 0 4) (nibStep (b.extractLsb' 4 4) s)).decConsumed + 1#64 }
      else nibStep (b.extractLsb' 0 4) (nibStep (b.extractLsb' 4 4) s) := by
  simp only [byteStep, decReady_iff, h, if_true]

/-- Settles O39. -/
theorem decByteIsTwoNibbles : Obligations.DecByteIsTwoNibbles := by
  intro s b
  rw [← highNibble_eq, ← lowNibble_eq]
  exact ⟨fun h => congrArg Host.Outcome.next (byteStep_error b h), fun _ => ⟨_, rfl,
    fun h => congrArg Host.Outcome.next (byteStep_of_high_error h),
    fun h => ⟨_, rfl, congrArg Host.Outcome.next (byteStep_of_high_ok h)⟩⟩⟩

theorem endStep_error {s : State} (h : s.decCode ≠ .ok) : endStep s = s := by
  rw [endStep, if_neg fun hr => h ((decReady_iff s).mp hr)]

/-- DEC_END (R177). -/
theorem endStep_eq (s : State) :
    endStep s =
      if s.decCode = .ok ∧ accepting (nodeAt s.codes s.decNode) = false then { s with decCode := .truncatedInput }
      else s := by
  by_cases hok : s.decCode = .ok
  · cases ha : accepting (nodeAt s.codes s.decNode) <;> simp [endStep, decReady, acceptFlag, hok, ha]
  · simp [endStep_error hok, hok]

/-- Settles O40. -/
theorem decEndChecksAcceptance : Obligations.DecEndChecksAcceptance := by
  intro s
  exact congrArg Host.Outcome.next (endStep_eq s)

/-! ## DEC_RUN as its commands -/

/-- DEC_RESULT after a run (R54, R178): the count, or minus the error code. -/
def runResult (c : DecCode) (count : Word) : Word :=
  match c with
  | .ok => count
  | .overflow => 0xFFFFFFFFFFFFFFFF#64
  | .invalidCode => 0xFFFFFFFFFFFFFFFE#64
  | .truncatedInput => 0xFFFFFFFFFFFFFFFD#64

theorem runResult_eq (c : DecCode) (count : Word) :
    runResult c count = if c == .ok then count else resultOfCode c := by
  cases c <;> rfl

theorem runResult_error {c : DecCode} (h : c ≠ .ok) (count : Word) : runResult c count = resultOfCode c := by
  rw [runResult_eq, if_neg (by simpa using h)]

/-- After an error DEC_RUN writes its result only (R179). -/
theorem runDecoder_error (m : DecMode) {s : State} (h : s.decCode ≠ .ok) :
    runDecoder m s = { s with decResult := runResult s.decCode 0#64 } := by
  rw [runDecoder_eq, if_neg fun hr => h ((decReady_iff s).mp hr), runResult_error h]

/-- One more source byte (R178): after an error DEC_BYTE changes nothing, so the loop may as well go on. -/
theorem decLoop_succ (n : Nat) (i : Word) (s : State) :
    decLoop (n + 1) i s =
      byteStep (hostRead (decLoop n i s) (s.decSrc + (i + BitVec.ofNat 64 n))) (decLoop n i s) := by
  induction n generalizing i s with
  | zero => simp [decLoop]
  | succ n ih =>
    set t := byteStep (hostRead s (s.decSrc + i)) s with ht
    have first (m : Nat) : decLoop (m + 1) i s = if decReady t then decLoop m (i + 1#64) t else t := rfl
    have hsrc : t.decSrc = s.decSrc := by rw [ht, byteStep_frame]
    have hidx : i + 1#64 + BitVec.ofNat 64 n = i + BitVec.ofNat 64 (n + 1) := by
      rw [BitVec.add_assoc, ← BitVec.ofNat_add, Nat.add_comm]
    rw [first (n + 1), first n]
    by_cases hok : t.decCode = .ok
    · simp only [(decReady_iff t).mpr hok, if_true, ih, hsrc, hidx]
    · simp only [decReady_iff, hok, if_false, byteStep_error _ hok]

/-- DEC_RUN's loop after `k` source bytes (R178). -/
def decodeState (s : State) (k : Nat) : State := decLoop k 0#64 (clearCounts s)

theorem decodeState_succ (s : State) (k : Nat) :
    decodeState s (k + 1) =
      byteStep (hostRead (decodeState s k) (s.decSrc + BitVec.ofNat 64 k)) (decodeState s k) := by
  rw [decodeState, decLoop_succ, BitVec.zero_add]
  rfl

/-- What DEC_RUN's loop keeps (R56). -/
theorem decodeState_frame (s : State) (k : Nat) :
    decodeState s k = { s with
      decNode := (decodeState s k).decNode, decCode := (decodeState s k).decCode,
      decCount := (decodeState s k).decCount, decConsumed := (decodeState s k).decConsumed,
      mem := (decodeState s k).mem } := decLoop_frame k 0#64 (clearCounts s)

/-- The end-of-input check of DEC_RUN, in Final mode only (R178). -/
def modeEnd (m : DecMode) (s : State) : State :=
  match m with
  | .resumable => s
  | .final => endStep s

/-- DEC_RESULT as DEC_RUN leaves it (R54, R178). -/
def writeDecResult (s : State) : State := { s with decResult := runResult s.decCode s.decCount }

/-- DEC_RUN: the loop over the source, the end-of-input check, the result (R178). -/
theorem runDecoder_ready (m : DecMode) {s : State} (h : s.decCode = .ok) :
    runDecoder m s = writeDecResult (modeEnd m (decodeState s s.decLen.toNat)) := by
  rw [runDecoder_eq, if_pos ((decReady_iff s).mpr h), writeDecResult, runResult_eq]
  cases m <;> rfl

/-- Settles O42. -/
theorem decRunEqualsItsCommands : Obligations.DecRunEqualsItsCommands := by
  intro s m
  refine ⟨fun h => congrArg Host.Outcome.next (runDecoder_error m h), fun hok => ⟨decodeState s,
    modeEnd m (decodeState s s.decLen.toNat), rfl, fun k _ => congrArg Host.Outcome.next (decodeState_succ s k).symm,
    fun hm => ?_, fun hm => ?_, congrArg Host.Outcome.next (runDecoder_ready m hok)⟩⟩
  · rw [hm]; rfl
  · rw [hm]; rfl

/-! ## What clears an error -/

/-- A WR that reaches a register is the 64-bit access at its offset (R74). -/
theorem wr_reg_of_next {width : Nat} {off : BitVec 12} {v : Word} {s t : State} (h : execWr width off v s = .next t)
    {r : Reg} (hr : regAt off = some r) : width = 64 ∧ off = regOffset r := by
  constructor
  · by_contra hw
    have hno : accessWidthOk width = false := beq_false_of_ne hw
    simp [execWr, hno] at h
  · have hoff := List.find?_some hr
    exact (beq_iff_eq.mp hoff).symm

/-- Of the registers only DEC_STATE reaches CODE (R180). -/
theorem decCode_regWrite {r : Reg} (hr : r ≠ .decState) (v : Word) (s : State) :
    (regWrite r v s).decCode = s.decCode := by
  cases r with
  | decState => exact absurd rfl hr
  | _ => rfl

/-- Of the commands only DEC_INIT and SOFT_RESET change a CODE that is set, to 0 (R179). -/
theorem decCode_of_command {c : Instr} {s t : State} (hc : c.isCommand = true) (h : exec c s = .next t)
    (hs : s.decCode ≠ .ok) : t.decCode = s.decCode ∨ t.decCode = .ok ∧ (c = .decInit ∨ c = .softReset) := by
  cases c with
  | nop | clrErr | sinkReset => cases h; exact .inl rfl
  | softReset => cases h; exact .inr ⟨rfl, .inr rfl⟩
  | decInit => cases h; exact .inr ⟨rfl, .inl rfl⟩
  | encInit | encSym | encFlush | encRun => rw [encoderCommand_frame rfl h]; exact .inl rfl
  | decNib n => cases h; rw [nibStep_error n hs]; exact .inl rfl
  | decByte b => cases h; rw [byteStep_error b hs]; exact .inl rfl
  | decEnd => cases h; rw [endStep_error hs]; exact .inl rfl
  | decRun m => cases h; rw [runDecoder_error m hs]; exact .inl rfl
  | rd | wr => cases hc

/-- Whatever changes a CODE that is set sets it to 0, and is one of the three (R179). -/
theorem decCode_of_exec {i : Instr} {s t : State} (h : exec i s = .next t) (hs : s.decCode ≠ .ok) :
    t.decCode = s.decCode ∨
    t.decCode = .ok ∧ (performed i = .decInit ∨ performed i = .softReset ∨ ∃ v, i = .wr 64 0x130#12 v) := by
  by_cases hc : (performed i).isCommand = true
  · rw [← exec_performed] at h
    refine (decCode_of_command hc h hs).imp_right fun ⟨hok, hi⟩ => ⟨hok, ?_⟩
    tauto
  · cases i with
    | rd width off => rw [execRd_next h]; exact .inl rfl
    | wr width off v =>
      obtain ⟨-, rfl⟩ | ⟨hr, hd⟩ | ⟨r, hr, -, rfl⟩ := execWr_next h
      · exact .inl rfl
      · obtain ⟨rfl, rfl⟩ := wr_cmd_of_next h hr
        cases hw : decode v with
        | ok c =>
          have hp : performed (.wr 64 0x010#12 v) = c := by simp only [performed, hw]
          exact absurd (hp ▸ decode_isCommand hw) hc
        | error e => rw [dispatch_error hw] at hd; cases hd; exact .inl rfl
      · obtain ⟨rfl, rfl⟩ := wr_reg_of_next h hr
        by_cases hst : r = .decState
        · subst hst; exact .inr ⟨rfl, .inr (.inr ⟨v, rfl⟩)⟩
        · exact .inl (decCode_regWrite hst v s)
    | _ => exact absurd rfl hc

/-- Settles O41. -/
theorem decoderErrorGatesItsCommands : Obligations.DecoderErrorGatesItsCommands := by
  intro s n b m hs
  exact ⟨congrArg Host.Outcome.next (nibStep_error n hs), congrArg Host.Outcome.next (byteStep_error b hs),
    congrArg Host.Outcome.next (endStep_error hs), congrArg Host.Outcome.next (runDecoder_error m hs),
    fun i t h hne => (decCode_of_exec h hs).resolve_left hne⟩

/-! ## T and the code tree -/

/-- One more bit, as a list (R15, R170). -/
theorem bitsOf_appendBit (x : BitString) (b : Bool) : bitsOf (appendBit x b) = bitsOf x ++ [b] := by
  have h := bitsOf_append x.len 1 x.val b.toNat (Bool.toNat_lt b)
  rw [Nat.pow_one, Nat.mul_comm] at h
  rw [appendBit, ← h]
  cases b <;> rfl

theorem bitsOf_rootNode : bitsOf rootNode = [] := rfl

theorem codeBits_cons (codes : CodeTable) (v : Byte) (out : List Byte) :
    codeBits codes (v :: out) = bitsOf (codeOf codes v.toNat) ++ codeBits codes out := List.flatMap_cons

/-- The bits of a walk, those above its start included, are the codes of its bytes and then its end's bits (R170). -/
theorem bits_of_spells {codes : CodeTable} {x y : BitString} {bits : List Bool} {out : List Byte}
    (h : Spells codes x bits out y) : bitsOf x ++ bits = codeBits codes out ++ bitsOf y := by
  induction h with
  | nil x => exact List.append_nil _
  | node _ _ ih => rw [← ih, bitsOf_appendBit, List.append_assoc, List.singleton_append]
  | @symbol x _ b _ v _ hx _ ih =>
    rw [bitsOf_rootNode, List.nil_append] at ih
    rw [ih, codeBits_cons, ← hx, bitsOf_appendBit]
    simp

theorem len_le_of_spells {codes : CodeTable} {x y : BitString} {bits : List Bool} {out : List Byte}
    (h : Spells codes x bits out y) : y.len ≤ x.len + bits.length := by
  have hlen := congrArg List.length (bits_of_spells h)
  simp only [List.length_append, length_bitsOf] at hlen
  omega

/-- A completed symbol leads back to the root, so only the bits after it lead to the walk's end (R172). -/
theorem len_lt_of_spells {codes : CodeTable} {x y : BitString} {bits : List Bool} {out : List Byte}
    (h : Spells codes x bits out y) (hout : out ≠ []) : y.len < bits.length := by
  induction h with
  | nil x => exact absurd rfl hout
  | node _ _ ih => exact (ih hout).trans (Nat.lt_succ_self _)
  | symbol _ h _ =>
    have hlen := len_le_of_spells h
    simp only [rootNode] at hlen
    rw [List.length_cons]
    omega

/-- A node does not begin with the code of EOS (R24(b)). -/
theorem not_eos_prefix_of_isNode {codes : CodeTable} (hc : TableOk codes) {y : BitString} (hy : isNode codes y = true) :
    ¬ bitsOf (codeOf codes eosSymbol) <+: bitsOf y := by
  intro hp
  have heos := codeOf_mem hc (s := eosSymbol) (by decide)
  obtain ⟨hle, hv⟩ := (bitsOf_prefix_iff (val_of_isNode hc hy) (hc.lengths _ heos).2.2).mp hp
  obtain ⟨c, hcm, hlt, hcv⟩ := isNode_iff.mp hy
  have hcy : prefixValue c (codeOf codes eosSymbol).len = (codeOf codes eosSymbol).val := by
    rw [← hv, ← prefixValue_div c hle hlt.le, hcv, prefixValue_eq]
  have := eq_of_beginsWith hc hcm heos ⟨by omega, hcy⟩
  rw [this] at hle
  omega

/-- A walk does not begin with the code of EOS (R24(b)). -/
theorem not_eos_prefix_of_spells {codes : CodeTable} (hc : TableOk codes) {x y : BitString} {bits : List Bool}
    {out : List Byte} (h : Spells codes x bits out y) (hx : isNode codes x = true) :
    ¬ bitsOf (codeOf codes eosSymbol) <+: bitsOf x ++ bits := by
  have hy := isNode_of_spells hc h hx
  rw [bits_of_spells h]
  cases out with
  | nil => exact not_eos_prefix_of_isNode hc hy
  | cons v out =>
    intro hp
    have hv := v.isLt
    rw [codeBits_cons, List.append_assoc] at hp
    obtain hpre | hpre := List.prefix_or_prefix_of_prefix hp (List.prefix_append _ _)
    · have := eq_of_codeBits_prefix hc (by decide) (by omega) hpre
      simp only [eosSymbol] at this
      omega
    · have := eq_of_codeBits_prefix hc (by omega) (by decide) hpre
      simp only [eosSymbol] at this
      omega

/-- From a node fewer than 8 bits are a walk, or complete the code of EOS, at which T is INVALID (R170, R24(d)). -/
theorem spells_or_invalid {codes : CodeTable} (hc : TableOk codes) {x : BitString} {bits : List Bool}
    (hx : isNode codes x = true) (hlen : bits.length < 8) (sym : Option Byte) :
    (∃ out y, Spells codes x bits out y) ∨
    (bitsOf (codeOf codes eosSymbol) <+: bitsOf x ++ bits ∧ feedBits codes bits x sym = .invalid) := by
  induction bits generalizing x sym with
  | nil => exact .inl ⟨[], x, .nil x⟩
  | cons b rest ih =>
    have hrest : rest.length < 8 := by rw [List.length_cons] at hlen; omega
    have hbits : bitsOf x ++ b :: rest = bitsOf (appendBit x b) ++ rest := by rw [bitsOf_appendBit]; simp
    rw [hbits]
    obtain hn | hm := appendBit_isNode_or_mem hc hx b
    · obtain ⟨out, y, h⟩ | ⟨hp, hf⟩ := ih hn hrest sym
      · exact .inl ⟨out, y, .node hn h⟩
      · refine .inr ⟨hp, ?_⟩
        have hnone := symbolOf_none fun hm => not_isNode_of_mem hc hm hn
        simp only [feedBits, hnone, hn, if_true, hf]
    · obtain ⟨s, hs, he⟩ := exists_codeOf hc hm
      by_cases heos : s = eosSymbol
      · subst heos
        have hsome := symbolOf_codeOf hc hs
        rw [he] at hsome ⊢
        exact .inr ⟨List.prefix_append _ _, by simp only [feedBits, hsome, if_true]⟩
      · obtain ⟨out, y, h⟩ | ⟨hp, -⟩ := ih (isNode_root hc) hrest none
        · refine .inl ⟨BitVec.ofNat 8 s :: out, y, .symbol ?_ h⟩
          rw [BitVec.toNat_ofNat, Nat.mod_eq_of_lt (by simp only [eosSymbol] at heos; omega), he]
        · have hle := hp.length_le
          have hlong := hc.eosLong
          rw [bitsOf_rootNode, List.nil_append, length_bitsOf] at hle
          omega

/-- T is INVALID exactly where the node's bits and the nibble's begin with the code of EOS (R170, R171). -/
theorem transition_eq_invalid_iff {codes : CodeTable} (hc : TableOk codes) {x : BitString}
    (hx : isNode codes x = true) (n : BitVec 4) :
    transition codes x n = .invalid ↔ bitsOf (codeOf codes eosSymbol) <+: bitsOf x ++ nibbleBits n := by
  obtain ⟨out, y, h⟩ | ⟨hp, hf⟩ := spells_or_invalid hc hx (bits := nibbleBits n) (by simp [nibbleBits]) none
  · exact ⟨fun hi => (by rw [transition_of_spells hc h] at hi; cases hi),
      fun hp => absurd hp (not_eos_prefix_of_spells hc h hx)⟩
  · exact ⟨fun _ => hp, fun _ => hf⟩

/-- Settles O35: the nibble is a walk of the code tree, on which T spells at most one byte, or completes EOS. -/
theorem transitionFollowsTheCodeTree : Obligations.TransitionFollowsTheCodeTree := by
  intro codes i n hc bits
  have hx := isNode_nodeAt hc i
  obtain ⟨out, y, h⟩ | ⟨hp, hf⟩ := spells_or_invalid hc hx (bits := nibbleBits n) (by simp [nibbleBits]) none
  · have hy := isNode_of_spells hc h hx
    have hbits : bits = codeBits codes out ++ bitsOf y := bits_of_spells h
    have hone := length_le_one_of_spells hc h (by decide : 4 ≤ 5)
    rw [transition_of_spells hc h]
    cases out with
    | nil => exact ⟨hy, by simpa [codeBits] using hbits⟩
    | cons v out =>
      obtain rfl : out = [] := by simpa using hone
      exact ⟨hy, Nat.le_of_lt_succ (len_lt_of_spells h (List.cons_ne_nil _ _)), by simpa [codeBits] using hbits⟩
  · rw [show transition codes (nodeAt codes i) n = .invalid from hf]
    exact hp

/-- The nodes of the list R51 prints that begin with 26 1-bits (R25). -/
theorem ones_prefix_printedNodes : ∀ i : BitVec 8,
    List.replicate 26 true <+: bitsOf (printedNodes.getD i.toNat ⟨0, 0⟩) →
      i ∈ ([237#8, 251#8, 252#8, 253#8, 254#8, 255#8] : List (BitVec 8)) := by decide +kernel

/-- Of those, the ones a nibble completes to the thirty 1-bits of EOS (R171). -/
theorem eos_prefix_printedNodes :
    ∀ i ∈ ([237#8, 251#8, 252#8, 253#8, 254#8, 255#8] : List (BitVec 8)), ∀ n : BitVec 4,
    List.replicate 30 true <+: bitsOf (printedNodes.getD i.toNat ⟨0, 0⟩) ++ nibbleBits n ↔
      i = 237#8 ∧ n = 0xF#4 ∨ i = 252#8 ∧ 0xE#4 ≤ n ∨ i = 253#8 ∧ 0xC#4 ≤ n ∨ i = 255#8 ∧ 0x8#4 ≤ n := by
  decide +kernel

theorem bitsOf_eos_codeTable : bitsOf (codeOf codeTable eosSymbol) = List.replicate 30 true := by decide +kernel

/-- Bits that a nibble completes to the code of EOS are 26 1-bits or more. -/
theorem ones_prefix_of_eos_prefix {bits : List Bool} {n : BitVec 4}
    (h : List.replicate 30 true <+: bits ++ nibbleBits n) : List.replicate 26 true <+: bits := by
  have hlen := h.length_le
  simp only [List.length_replicate, List.length_append, nibbleBits, List.length_cons, List.length_nil] at hlen
  have hshort : List.replicate 26 true <+: List.replicate 30 true := ⟨List.replicate 4 true, rfl⟩
  exact List.prefix_of_prefix_length_le (hshort.trans h) (List.prefix_append _ _) (by simp; omega)

/-- Settles O36: the nodes that begin with 26 1-bits are six, and on those T is read off. -/
theorem invalidTransitionsAreTheEosOnes : Obligations.InvalidTransitionsAreTheEosOnes := by
  intro i n
  rw [transition_eq_invalid_iff tableOk_codeTable (isNode_nodeAt tableOk_codeTable i), nodeAt, nodeList_codeTable,
    bitsOf_eos_codeTable]
  have hiff := fun hi => eos_prefix_printedNodes i hi n
  refine ⟨fun h => (hiff (ones_prefix_printedNodes i (ones_prefix_of_eos_prefix h))).mp h, fun h => (hiff ?_).mpr h⟩
  obtain ⟨rfl, -⟩ | ⟨rfl, -⟩ | ⟨rfl, -⟩ | ⟨rfl, -⟩ := h <;> decide

/-! ## What DEC_RUN's loop writes -/

/-- From `s` to `t` the decoder wrote the bytes `ys` to its output buffer, and no more than it takes (R52, R213). -/
structure Wrote (s t : State) (ys : List Byte) : Prop where
  mem : t.mem = writeBytes s.mem (s.decDst + s.decCount) ys
  count : t.decCount.toNat = s.decCount.toNat + ys.length
  room : s.decCount ≤ s.decCap → t.decCount ≤ t.decCap
  dst : t.decDst = s.decDst
  cap : t.decCap = s.decCap

theorem wrote_nothing {s t : State} (hmem : t.mem = s.mem) (hcount : t.decCount = s.decCount)
    (hdst : t.decDst = s.decDst) (hcap : t.decCap = s.decCap) : Wrote s t [] :=
  ⟨hmem, by rw [hcount]; rfl, by rw [hcount, hcap]; exact id, hdst, hcap⟩

theorem Wrote.decCount_le {s t : State} {ys : List Byte} (h : Wrote s t ys) : s.decCount ≤ t.decCount := by
  rw [BitVec.le_def, h.count]
  exact Nat.le_add_right _ _

theorem wrote_trans {s t u : State} {ys zs : List Byte} (h : Wrote s t ys) (h' : Wrote t u zs) :
    Wrote s u (ys ++ zs) := by
  have hcount : t.decCount = s.decCount + BitVec.ofNat 64 ys.length := by
    have hy := h.count
    have hlt := t.decCount.isLt
    apply BitVec.eq_of_toNat_eq
    simp only [BitVec.toNat_add, BitVec.toNat_ofNat]
    omega
  refine ⟨?_, ?_, fun hr => h'.room (h.room hr), h'.dst.trans h.dst, h'.cap.trans h.cap⟩
  · rw [h'.mem, h.mem, h.dst, hcount, writeBytes_append, BitVec.add_assoc]
  · rw [h'.count, h.count, List.length_append, Nat.add_assoc]

/-- A byte decoded with room for it (R213). -/
theorem wrote_byte {s : State} (hlt : s.decCount < s.decCap) (v : Byte) (node : BitVec 8) :
    Wrote s { s with mem := writeCell s.mem (s.decDst + s.decCount).toNat v, decCount := s.decCount + 1#64,
                     decNode := node } [v] := by
  have hnext : (s.decCount + 1#64).toNat = s.decCount.toNat + 1 := by
    have hcap := s.decCap.isLt
    rw [BitVec.lt_def] at hlt
    rw [BitVec.toNat_add, BitVec.toNat_ofNat]
    omega
  refine ⟨rfl, hnext, fun _ => ?_, rfl, rfl⟩
  rw [BitVec.lt_def] at hlt
  rw [BitVec.le_def, hnext]
  exact hlt

theorem wrote_nibStep (n : BitVec 4) (s : State) : ∃ ys, Wrote s (nibStep n s) ys := by
  by_cases hc : s.decCode = .ok
  · obtain ⟨-, e⟩ | ⟨y, -, e⟩ | ⟨y, b, -, -, e⟩ | ⟨y, b, -, hlt, e⟩ := nibStep_cases n hc <;> rw [e]
    · exact ⟨[], wrote_nothing rfl rfl rfl rfl⟩
    · exact ⟨[], wrote_nothing rfl rfl rfl rfl⟩
    · exact ⟨[], wrote_nothing rfl rfl rfl rfl⟩
    · exact ⟨[b], wrote_byte hlt b _⟩
  · rw [nibStep_error n hc]
    exact ⟨[], wrote_nothing rfl rfl rfl rfl⟩

theorem wrote_byteStep (b : Byte) (s : State) : ∃ ys, Wrote s (byteStep b s) ys := by
  obtain ⟨ys, high⟩ := wrote_nibStep (b.extractLsb' 4 4) s
  obtain ⟨zs, low⟩ := wrote_nibStep (b.extractLsb' 0 4) (nibStep (b.extractLsb' 4 4) s)
  have both := wrote_trans high low
  by_cases hc : (nibStep (b.extractLsb' 4 4) s).decCode = .ok
  · rw [byteStep_of_high_ok hc]
    split
    · exact ⟨ys ++ zs, both.mem, both.count, both.room, both.dst, both.cap⟩
    · exact ⟨ys ++ zs, both⟩
  · rw [byteStep_of_high_error hc]
    exact ⟨ys, high⟩

theorem wrote_decodeState (s : State) (k j : Nat) : ∃ ys, Wrote (decodeState s k) (decodeState s (k + j)) ys := by
  induction j with
  | zero => exact ⟨[], wrote_nothing rfl rfl rfl rfl⟩
  | succ j ih =>
    obtain ⟨ys, h⟩ := ih
    obtain ⟨zs, h'⟩ := wrote_byteStep (hostRead (decodeState s (k + j)) (s.decSrc + BitVec.ofNat 64 (k + j)))
      (decodeState s (k + j))
    rw [← decodeState_succ] at h'
    exact ⟨ys ++ zs, wrote_trans h h'⟩

theorem wrote_from_start (s : State) (k : Nat) : ∃ ys, Wrote (clearCounts s) (decodeState s k) ys := by
  have h := wrote_decodeState s 0 k
  rwa [Nat.zero_add] at h

/-- Once DEC_RUN's loop has written `n` bytes it has changed no byte but the first `n` of the output buffer (R71). -/
theorem readCell_decodeState (s : State) (k : Nat) {a : Nat}
    (ha : ¬ inBuffer s.decDst (decodeState s k).decCount.toNat a) :
    readCell (decodeState s k).mem a = readCell s.mem a := by
  obtain ⟨ys, h⟩ := wrote_from_start s k
  have hcount : (decodeState s k).decCount.toNat = ys.length := h.count.trans (Nat.zero_add _)
  have hmem : (decodeState s k).mem = writeBytes s.mem (s.decDst + 0#64) ys := h.mem
  rw [hmem, BitVec.add_zero]
  exact readCell_writeBytes_other _ _ _ _ fun i hi e => ha ⟨i, hcount ▸ hi, e⟩

/-- DEC_COUNT stays within DEC_CAP (R52). -/
theorem decCount_decodeState_le (s : State) (k : Nat) : (decodeState s k).decCount ≤ s.decCap := by
  obtain ⟨ys, h⟩ := wrote_from_start s k
  have hcap : (decodeState s k).decCap = s.decCap := h.cap
  rw [← hcap]
  exact h.room (Nat.zero_le _)

/-! ## How far DEC_RUN's loop comes -/

/-- The errors of a nibble (R175). -/
theorem decCode_nibStep (n : BitVec 4) {s : State} (h : s.decCode = .ok) :
    (nibStep n s).decCode = .ok ∨ (nibStep n s).decCode = .overflow ∨ (nibStep n s).decCode = .invalidCode := by
  obtain ⟨-, e⟩ | ⟨y, -, e⟩ | ⟨y, b, -, -, e⟩ | ⟨y, b, -, -, e⟩ := nibStep_cases n h <;> rw [e]
  · exact .inr (.inr rfl)
  · exact .inl h
  · exact .inr (.inl rfl)
  · exact .inl h

theorem decConsumed_nibStep (n : BitVec 4) (s : State) : (nibStep n s).decConsumed = s.decConsumed := by
  rw [nibStep_frame]

/-- A byte is consumed or fails with InvalidCode or Overflow (R176). -/
theorem byteStep_progress (b : Byte) {s : State} (h : s.decCode = .ok) :
    ((byteStep b s).decCode = .ok ∧ (byteStep b s).decConsumed = s.decConsumed + 1#64) ∨
    (((byteStep b s).decCode = .overflow ∨ (byteStep b s).decCode = .invalidCode) ∧
      (byteStep b s).decConsumed = s.decConsumed) := by
  have high := decConsumed_nibStep (b.extractLsb' 4 4) s
  have low := decConsumed_nibStep (b.extractLsb' 0 4) (nibStep (b.extractLsb' 4 4) s)
  rw [high] at low
  obtain hc | hc := decCode_nibStep (b.extractLsb' 4 4) h
  · rw [byteStep_of_high_ok hc]
    obtain hc' | hc' := decCode_nibStep (b.extractLsb' 0 4) hc
    · rw [if_pos hc', low]
      exact .inl ⟨hc', rfl⟩
    · rw [if_neg (by rcases hc' with e | e <;> rw [e] <;> decide)]
      exact .inr ⟨hc', low⟩
  · rw [byteStep_of_high_error (by rcases hc with e | e <;> rw [e] <;> decide)]
    exact .inr ⟨hc, high⟩

/-- DEC_RUN's loop has consumed every byte so far, or stopped at one with InvalidCode or Overflow (R178). -/
theorem decodeState_progress {s : State} (h : s.decCode = .ok) (k : Nat) :
    ((decodeState s k).decCode = .ok ∧ (decodeState s k).decConsumed = BitVec.ofNat 64 k) ∨
    (((decodeState s k).decCode = .overflow ∨ (decodeState s k).decCode = .invalidCode) ∧
      ∃ j, j < k ∧ (decodeState s k).decConsumed = BitVec.ofNat 64 j) := by
  induction k with
  | zero => exact .inl ⟨h, rfl⟩
  | succ k ih =>
    rw [decodeState_succ]
    obtain ⟨hok, hn⟩ | ⟨herr, j, hj, hn⟩ := ih
    · refine (byteStep_progress _ hok).imp (And.imp_right fun e => ?_) (And.imp_right fun e => ?_)
      · rw [e, hn, ← BitVec.ofNat_add]
      · exact ⟨k, Nat.lt_succ_self k, e.trans hn⟩
    · rw [byteStep_error _ (by rcases herr with e | e <;> rw [e] <;> decide)]
      exact .inr ⟨herr, j, hj.trans (Nat.lt_succ_self k), hn⟩

/-- After an error DEC_RUN's loop changes nothing more (R179). -/
theorem decodeState_error {s : State} {k : Nat} (h : (decodeState s k).decCode ≠ .ok) (j : Nat) :
    decodeState s (k + j) = decodeState s k := by
  induction j with
  | zero => rfl
  | succ j ih => rw [← Nat.add_assoc, decodeState_succ, ih, byteStep_error _ h]

/-! ## What DEC_RUN reports -/

/-- The end-of-input check passes, or raises TruncatedInput in Final mode (R177, R178). -/
theorem modeEnd_cases (m : DecMode) (s : State) :
    (modeEnd m s = s ∧ (s.decCode = .ok → m = .final → accepting (nodeAt s.codes s.decNode) = true)) ∨
    (modeEnd m s = { s with decCode := .truncatedInput } ∧ m = .final ∧ s.decCode = .ok) := by
  cases m with
  | resumable => exact .inl ⟨rfl, fun _ hm => by cases hm⟩
  | final =>
    rw [modeEnd, endStep_eq]
    split
    · rename_i h
      exact .inr ⟨rfl, rfl, h.1⟩
    · rename_i h
      exact .inl ⟨rfl, fun hok _ => by simpa [hok] using h⟩

/-- After an error there is no end-of-input check (R177). -/
theorem modeEnd_error (m : DecMode) {s : State} (h : s.decCode ≠ .ok) : modeEnd m s = s := by
  cases m with
  | resumable => rfl
  | final => exact endStep_error h

theorem modeEnd_frame (m : DecMode) (s : State) : modeEnd m s = { s with decCode := (modeEnd m s).decCode } := by
  obtain ⟨e, -⟩ | ⟨e, -⟩ := modeEnd_cases m s <;> rw [e]

/-- DEC_RUN's result is written from the status and the count it ends with (R54, R178). -/
theorem runDecoder_decResult (m : DecMode) {s : State} (h : s.decCode = .ok) :
    (runDecoder m s).decResult = runResult (runDecoder m s).decCode (runDecoder m s).decCount := by
  rw [runDecoder_ready m h]
  rfl

/-- How DEC_RUN ends (R181): all input consumed without error, all input consumed at a node that is not accepting, or an
error at a byte not consumed. -/
theorem runDecoder_outcome (m : DecMode) {s : State} (h : s.decCode = .ok) :
    ((runDecoder m s).decCode = .ok ∧ (runDecoder m s).decConsumed = s.decLen ∧
      (m = .final → accepting (nodeAt (runDecoder m s).codes (runDecoder m s).decNode) = true)) ∨
    ((runDecoder m s).decCode = .truncatedInput ∧ m = .final ∧ (runDecoder m s).decConsumed = s.decLen) ∨
    (((runDecoder m s).decCode = .overflow ∨ (runDecoder m s).decCode = .invalidCode) ∧
      (runDecoder m s).decConsumed.toNat < s.decLen.toNat) := by
  have hlen : BitVec.ofNat 64 s.decLen.toNat = s.decLen := by simp
  rw [runDecoder_ready m h]
  obtain ⟨hok, hn⟩ | ⟨herr, j, hj, hn⟩ := decodeState_progress h s.decLen.toNat <;>
    obtain ⟨e, haccept⟩ | ⟨e, hm, hok'⟩ := modeEnd_cases m (decodeState s s.decLen.toNat) <;> rw [e]
  · exact .inl ⟨hok, hn.trans hlen, haccept hok⟩
  · exact .inr (.inl ⟨rfl, hm, hn.trans hlen⟩)
  · refine .inr (.inr ⟨herr, ?_⟩)
    show (decodeState s s.decLen.toNat).decConsumed.toNat < s.decLen.toNat
    rw [hn, BitVec.toNat_ofNat]
    exact (Nat.mod_le _ _).trans_lt hj
  · rw [hok'] at herr
    rcases herr with e | e <;> cases e

/-- Settles O43: the three ways DEC_RUN ends, and what its loop wrote. -/
theorem decRunReportsItsResult : Obligations.DecRunReportsItsResult := by
  intro s m hs
  have hresult := runDecoder_decResult m hs
  have hframe := modeEnd_frame m (decodeState s s.decLen.toNat)
  have hcount : (runDecoder m s).decCount = (decodeState s s.decLen.toNat).decCount := by
    rw [runDecoder_ready m hs, hframe]; rfl
  have hmem : (runDecoder m s).mem = (decodeState s s.decLen.toNat).mem := by
    rw [runDecoder_ready m hs, hframe]; rfl
  have hcap : (runDecoder m s).decCount.toNat ≤ s.decCap.toNat := hcount ▸ decCount_decodeState_le s s.decLen.toNat
  have hkept : ∀ a, ¬ inBuffer s.decDst (runDecoder m s).decCount.toNat a →
      readCell (runDecoder m s).mem a = readCell s.mem a := by
    rw [hcount, hmem]
    exact fun a => readCell_decodeState s s.decLen.toNat
  have houtcome := runDecoder_outcome m hs
  refine ⟨runDecoder m s, rfl, ?_, ?_, ?_, ?_, ?_, hcap, hkept, runDecoder_frame m s⟩
  all_goals
    intro hc
    rw [hc] at houtcome hresult
    simp only [reduceCtorEq, false_and, true_and, or_false, false_or, or_self] at houtcome
  · exact ⟨hresult, houtcome.1⟩
  · exact houtcome.2
  · exact ⟨houtcome.1, houtcome.2, hresult⟩
  · exact ⟨houtcome, hresult⟩
  · exact ⟨houtcome, hresult⟩

/-! ## A decode in two parts -/

/-- `s` as a decode call sees it that starts `k` input bytes and `count` output bytes later, into the rest of the buffer
(R184): its source, its output and its counts begin there. -/
def rebase (k : Nat) (count len result : Word) (s : State) : State :=
  { s with
    decSrc := s.decSrc + BitVec.ofNat 64 k
    decLen := len
    decDst := s.decDst + count
    decCap := s.decCap - count
    decCount := s.decCount - count
    decConsumed := s.decConsumed - BitVec.ofNat 64 k
    decResult := result }

section
variable {k : Nat} {count len result : Word} {s : State}

/-- Both see the same room, and the same address for the next byte (R213). -/
theorem decOut_rebase (hlo : count ≤ s.decCount) (hhi : s.decCount ≤ s.decCap) (v : Byte) :
    decOut v (rebase k count len result s) = (decOut v s).map (rebase k count len result) := by
  have hfull : s.decCap - count ≤ s.decCount - count ↔ s.decCap ≤ s.decCount := by
    rw [BitVec.le_def, BitVec.le_def, BitVec.toNat_sub_of_le hlo, BitVec.toNat_sub_of_le (BitVec.le_trans hlo hhi)]
    rw [BitVec.le_def] at hlo hhi
    omega
  have haddr : s.decDst + count + (s.decCount - count) = s.decDst + s.decCount := by
    rw [BitVec.add_assoc, BitVec.add_comm count, BitVec.sub_add_cancel]
  have hnext : s.decCount - count + 1#64 = s.decCount + 1#64 - count := sub_add_eq_add_sub _ _ _
  simp only [decOut, rebase, apply_ite (Option.map (rebase k count len result)), Option.map_some, Option.map_none,
    hfull, hostWrite, haddr, hnext]

theorem nibStep_rebase (hlo : count ≤ s.decCount) (hhi : s.decCount ≤ s.decCap) (n : BitVec 4) :
    nibStep n (rebase k count len result s) = rebase k count len result (nibStep n s) := by
  have hready : decReady (rebase k count len result s) = decReady s := rfl
  have hcodes : (rebase k count len result s).codes = s.codes := rfl
  have hnode : (rebase k count len result s).decNode = s.decNode := rfl
  simp only [nibStep, hready, hcodes, hnode, decOut_rebase hlo hhi]
  split
  · cases transition s.codes (nodeAt s.codes s.decNode) n with
    | invalid => rfl
    | goes y sym =>
      cases sym with
      | none => rfl
      | some b =>
        dsimp only
        cases decOut b s <;> rfl
  · rfl

theorem byteStep_rebase (hlo : count ≤ s.decCount) (hhi : s.decCount ≤ s.decCap) (b : Byte) :
    byteStep b (rebase k count len result s) = rebase k count len result (byteStep b s) := by
  obtain ⟨ys, high⟩ := wrote_nibStep (b.extractLsb' 4 4) s
  have hready (u : State) : decReady (rebase k count len result u) = decReady u := rfl
  have hnext (u : State) : u.decConsumed - BitVec.ofNat 64 k + 1#64 = u.decConsumed + 1#64 - BitVec.ofNat 64 k :=
    sub_add_eq_add_sub _ _ _
  have low := nibStep_rebase (k := k) (len := len) (result := result) (BitVec.le_trans hlo high.decCount_le)
    (high.room hhi)
  simp only [byteStep, nibStep_rebase hlo hhi, low, hready, apply_ite (rebase k count len result)]
  simp only [rebase, hnext]

theorem modeEnd_rebase (m : DecMode) (s : State) :
    modeEnd m (rebase k count len result s) = rebase k count len result (modeEnd m s) := by
  cases m with
  | resumable => rfl
  | final => simp only [modeEnd, endStep, apply_ite (rebase k count len result)]; rfl

/-- The loop of a call that starts where another's loop stands goes as that one goes on (R184). -/
theorem decodeState_rebase {w : State} (h : clearCounts w = rebase k count len result (decodeState s k))
    (hcount : count ≤ (decodeState s k).decCount) (j : Nat) :
    decodeState w j = rebase k count len result (decodeState s (k + j)) := by
  induction j with
  | zero => exact h
  | succ j ih =>
    obtain ⟨ys, hwrote⟩ := wrote_decodeState s k j
    have hhi : (decodeState s (k + j)).decCount ≤ (decodeState s (k + j)).decCap := by
      rw [decodeState_frame]; exact decCount_decodeState_le s (k + j)
    have hsrc : w.decSrc = s.decSrc + BitVec.ofNat 64 k := by
      have := congrArg State.decSrc h
      rw [decodeState_frame] at this
      exact this
    have haddr : w.decSrc + BitVec.ofNat 64 j = s.decSrc + BitVec.ofNat 64 (k + j) := by
      rw [hsrc, BitVec.add_assoc, ← BitVec.ofNat_add]
    have hread (addr : Word) : hostRead (rebase k count len result (decodeState s (k + j))) addr =
        hostRead (decodeState s (k + j)) addr := rfl
    rw [decodeState_succ, ih, haddr, hread, byteStep_rebase (BitVec.le_trans hcount hwrote.decCount_le) hhi,
      ← Nat.add_assoc, decodeState_succ]

end

/-- The registers as the first call has them: the first `k` bytes of the source (R184). -/
def firstPart (k : Nat) (s : State) : State := { s with decLen := BitVec.ofNat 64 k }

/-- The registers as the second call has them, after the first left `t`: the rest of the source, and the rest of the
buffer (R184). -/
def restPart (k : Nat) (s t : State) : State :=
  { t with
    decSrc := s.decSrc + BitVec.ofNat 64 k
    decLen := s.decLen - BitVec.ofNat 64 k
    decDst := s.decDst + t.decCount
    decCap := s.decCap - t.decCount }

theorem rebase_zero (k : Nat) (s : State) : rebase 0 0#64 (BitVec.ofNat 64 k) s.decResult s = firstPart k s := by
  simp [rebase, firstPart]

theorem toNat_ofNat_of_le {k : Nat} {len : Word} (hk : k ≤ len.toNat) : (BitVec.ofNat 64 k).toNat = k := by
  rw [BitVec.toNat_ofNat, Nat.mod_eq_of_lt (hk.trans_lt len.isLt)]

/-- The first call ends where the loop of the whole stands after `k` bytes (R178). -/
theorem runDecoder_firstPart {s : State} {k : Nat} (hs : s.decCode = .ok) (hk : k ≤ s.decLen.toNat) :
    runDecoder .resumable (firstPart k s) = writeDecResult (firstPart k (decodeState s k)) := by
  have hstart : clearCounts (firstPart k s) = rebase 0 0#64 (BitVec.ofNat 64 k) s.decResult (decodeState s 0) :=
    (rebase_zero k (clearCounts s)).symm
  have hlen : (firstPart k s).decLen.toNat = k := toNat_ofNat_of_le hk
  have hresult : s.decResult = (decodeState s k).decResult := by rw [decodeState_frame]
  rw [runDecoder_ready .resumable (s := firstPart k s) hs, hlen, decodeState_rebase hstart (Nat.zero_le _),
    Nat.zero_add, hresult, rebase_zero]
  rfl

theorem decConsumed_decodeState {s : State} {k : Nat} (hs : s.decCode = .ok) (hok : (decodeState s k).decCode = .ok) :
    (decodeState s k).decConsumed = BitVec.ofNat 64 k := by
  obtain ⟨-, hn⟩ | ⟨herr, -⟩ := decodeState_progress hs k
  · exact hn
  · rw [hok] at herr
    rcases herr with e | e <;> cases e

/-- After a first call without error, the second call's loop goes as the whole's goes on, and so does its end. -/
theorem runDecoder_restPart {s t : State} {k : Nat} (m : DecMode) (hs : s.decCode = .ok) (hk : k ≤ s.decLen.toNat)
    (ht : t = writeDecResult (firstPart k (decodeState s k))) (hok : t.decCode = .ok) :
    runDecoder m (restPart k s t) = writeDecResult (rebase k t.decCount (s.decLen - BitVec.ofNat 64 k) t.decResult
      (modeEnd m (decodeState s s.decLen.toNat))) := by
  have hok' : (decodeState s k).decCode = .ok := by rw [ht] at hok; exact hok
  have hcount : t.decCount = (decodeState s k).decCount := by rw [ht]; rfl
  have hstart : clearCounts (restPart k s t) =
      rebase k t.decCount (s.decLen - BitVec.ofNat 64 k) t.decResult (decodeState s k) := by
    have hconsumed := decConsumed_decodeState hs hok'
    have hsrc : (decodeState s k).decSrc = s.decSrc := by rw [decodeState_frame]
    have hdst : (decodeState s k).decDst = s.decDst := by rw [decodeState_frame]
    have hcap : (decodeState s k).decCap = s.decCap := by rw [decodeState_frame]
    simp only [rebase, hsrc, hdst, hcap, hconsumed, hcount, BitVec.sub_self]
    simp only [ht, restPart, clearCounts, writeDecResult, firstPart]
  have hlen : (restPart k s t).decLen.toNat = s.decLen.toNat - k := by
    show (s.decLen - BitVec.ofNat 64 k).toNat = s.decLen.toNat - k
    rw [BitVec.toNat_sub_of_le, toNat_ofNat_of_le hk]
    rw [BitVec.le_def, toNat_ofNat_of_le hk]
    exact hk
  rw [runDecoder_ready m (s := restPart k s t) hok, hlen, decodeState_rebase hstart (hcount ▸ BitVec.le_refl _),
    Nat.add_sub_cancel' hk, modeEnd_rebase]

/-- Settles O44: the loop of the whole passes the state in which the first call ends; the second call's loop goes as it
goes on from there, and after an error neither goes on. -/
theorem splitDecodeAgreesWithWhole : Obligations.SplitDecodeAgreesWithWhole := by
  intro s m k hs hk
  have hfirst := runDecoder_firstPart hs hk
  have hwhole := runDecoder_ready m hs
  set t := runDecoder .resumable (firstPart k s)
  set v := runDecoder m s
  refine ⟨t, runDecoder m (restPart k s t), v, rfl, rfl, rfl, fun hok => ?_, fun herr => ?_⟩
  · have hrest := runDecoder_restPart m hs hk hfirst hok
    have hconsumed : t.decConsumed = BitVec.ofNat 64 k := by
      rw [hfirst] at hok ⊢
      exact decConsumed_decodeState hs hok
    rw [hrest, hwhole, hconsumed]
    exact ⟨rfl, rfl, rfl, add_sub_cancel _ _, add_sub_cancel _ _⟩
  · have herr' : (decodeState s k).decCode ≠ .ok := by rw [hfirst] at herr; exact herr
    have hstop : decodeState s s.decLen.toNat = decodeState s k := by
      rw [← Nat.add_sub_cancel' hk, decodeState_error herr']
    rw [hwhole, hfirst, hstop, modeEnd_error m herr']
    exact ⟨rfl, rfl, rfl, rfl, rfl⟩

/-! ## Bytes stored and read back -/

/-- Bytes stored in a buffer are read back, when it does not wrap onto itself (R73). -/
theorem readCell_writeBytes {m : Memory} (hw : Memory.wf m = true) {ys : List Byte} (hlen : ys.length ≤ 2 ^ 64)
    (a : Word) {k : Nat} (hk : k < ys.length) :
    readCell (writeBytes m a ys) (a + BitVec.ofNat 64 k).toNat = ys[k] := by
  induction ys generalizing m a k with
  | nil => exact absurd hk (Nat.not_lt_zero k)
  | cons y ys ih =>
    rw [List.length_cons] at hlen hk
    cases k with
    | zero =>
      have hother : ∀ j, j < ys.length → (a + BitVec.ofNat 64 0).toNat ≠ (a + 1#64 + BitVec.ofNat 64 j).toNat := by
        intro j hj e
        simp only [BitVec.toNat_add, BitVec.toNat_ofNat] at e
        have := a.isLt
        omega
      rw [writeBytes, readCell_writeBytes_other _ _ _ _ hother, BitVec.add_zero, readCell_writeCell_same hw]
      rfl
    | succ k =>
      have haddr : a + BitVec.ofNat 64 (k + 1) = a + 1#64 + BitVec.ofNat 64 k := by
        rw [BitVec.add_assoc, ← BitVec.ofNat_add, Nat.add_comm 1]
      rw [writeBytes, haddr, ih (wf_writeCell hw _ y) (by omega) _ (by omega)]
      rfl

@[simp] theorem length_sourceBytes (s : State) (a : Word) (n : Nat) : (sourceBytes s a n).length = n := by
  simp [sourceBytes]

/-- With no other agent at work the block reads what memory holds (R70, R83). -/
theorem hostRead_of_quiet {s : State} (h : s.raced = []) (addr : Word) :
    hostRead s addr = readCell s.mem addr.toNat := by
  simp [hostRead, h]

/-- The source is the bytes `ys` when memory holds them there. -/
theorem sourceBytes_eq {s : State} (hq : s.raced = []) {a : Word} {ys : List Byte}
    (h : ∀ k (hk : k < ys.length), readCell s.mem (a + BitVec.ofNat 64 k).toNat = ys[k]) :
    sourceBytes s a ys.length = ys := by
  refine List.ext_getElem (length_sourceBytes s a _) fun k _ hk => ?_
  rw [← h k hk, ← hostRead_of_quiet hq]
  simp [sourceBytes]

theorem hostMemOk_writeBytes {m : Memory} (h : hostMemOk m) (a : Word) (ys : List Byte) :
    hostMemOk (writeBytes m a ys) := by
  induction ys generalizing m a with
  | nil => exact h
  | cons y ys ih => exact ih (hostMemOk_writeCell h a y) _

/-! ## What ENC_RUN leaves in a fixed buffer -/

/-- `s` with nothing but the source in host memory, an empty chain of one chunk and an empty accumulator: ENC_RUN into a
fixed buffer does the same there (R148), and `Good` holds whatever the chain of `s` is. -/
def sourceTwin (s : State) : State :=
  encStart { s with
    mem := writeBytes [] s.encSrc (sourceBytes s s.encSrc s.encLen.toNat)
    chunkSize := 1#32, maxChunks := 1#16, store := [], chainFill := [], chainCur := none }

theorem good_sourceTwin {s : State} (hc : TableOk s.codes) : Good (sourceTwin s) where
  params := ⟨Nat.le_refl 1, Nat.le_refl 1⟩
  memories := by
    have h := hostMemOk_writeBytes (m := []) ⟨rfl, rfl⟩ s.encSrc (sourceBytes s s.encSrc s.encLen.toNat)
    exact ⟨h.1, h.2, rfl, rfl⟩
  chain := ⟨Nat.zero_le _, rfl⟩
  acc := accOk_of_empty rfl rfl rfl
  table := hc

theorem sourceBytes_sourceTwin {s : State} (hq : s.raced = []) :
    sourceBytes (sourceTwin s) s.encSrc s.encLen.toNat = sourceBytes s s.encSrc s.encLen.toNat := by
  have h := sourceBytes_eq (s := sourceTwin s) hq
    fun k hk => readCell_writeBytes (m := []) rfl (by rw [length_sourceBytes]; exact s.encLen.isLt.le) s.encSrc hk
  rwa [length_sourceBytes] at h

/-- An ENC_RUN into a fixed buffer, its source apart from it and no other agent at work. -/
structure FixedEncode (s : State) : Prop where
  table : TableOk s.codes
  mode : s.sinkMode = .fixed
  quiet : s.raced = []
  wf : Memory.wf s.mem = true
  apart : apart s.encSrc s.encLen.toNat s.encDst s.encCap.toNat

theorem twins_sourceTwin {s : State} (h : FixedEncode s) :
    Twins (flushStep (encodeState s s.encLen.toNat)) (flushStep (encodeState (sourceTwin s) s.encLen.toNat)) := by
  have hstart : Twins (encStart s) (encStart (sourceTwin s)) :=
    ⟨rfl, h.mode, h.mode, rfl, rfl, rfl, rfl, rfl, h.wf, (good_sourceTwin h.table).memories.1,
      fun k hk => absurd hk (Nat.not_lt_zero k)⟩
  exact twins_flushStep (twins_encodeState hstart rfl (sourceBytes_sourceTwin h.quiet).symm (fun _ => h.apart)
    (fun _ => h.apart) (Nat.le_refl _))

/-- The twin's ENC_RUN without Overflow stores the packed stream at ENC_DST (R144). -/
theorem flushed_sourceTwin {s : State} (h : FixedEncode s) {ys : List Byte}
    (hys : ys = packedStream s.codes (sourceBytes s s.encSrc s.encLen.toNat))
    (ho : (flushStep (encodeState (sourceTwin s) s.encLen.toNat)).encOvf = false) :
    ys.length ≤ s.encCap.toNat ∧
    (flushStep (encodeState (sourceTwin s) s.encLen.toNat)).encCount = BitVec.ofNat 64 ys.length ∧
    (flushStep (encodeState (sourceTwin s) s.encLen.toNat)).mem = writeBytes (sourceTwin s).mem s.encDst ys := by
  have hm : (encStart (sourceTwin s)).sinkMode = .fixed := h.mode
  have hsrc : sourceBytes (sourceTwin s) (sourceTwin s).encSrc (sourceTwin s).encLen.toNat =
      sourceBytes s s.encSrc s.encLen.toNat := sourceBytes_sourceTwin h.quiet
  have hroom : sinkRoom (encStart (sourceTwin s)) = s.encCap.toNat := by
    simp only [sinkRoom, hm]
    rfl
  obtain ⟨zs, he⟩ := emitted_streamBits (good_sourceTwin h.table) (fun _ => h.apart)
  rw [hsrc] at he
  have htook := he.took
  have hcodes : (sourceTwin s).codes = s.codes := rfl
  have hfit := of_decide_eq_false (he.ovf.symm.trans ho)
  rw [hcodes, length_streamBits h.table, ← hys, hroom, Nat.mul_div_cancel_left _ (by decide), Nat.not_lt] at hfit
  have hzs : zs = ys := by
    rw [emitted_packedStream h.table he, hroom, ← hys, List.take_of_length_le hfit]
  subst hzs
  simp only [sinkTook, hm] at htook
  refine ⟨hfit, he.count.trans (BitVec.zero_add _), htook.1.trans ?_⟩
  show writeBytes (sourceTwin s).mem (s.encDst + 0#64) zs = _
  rw [BitVec.add_zero]

/-- ENC_RUN into a fixed buffer, without Overflow, leaves the packed stream of its source there, and its length in
ENC_COUNT (R144, R185). -/
theorem sourceBytes_runEncoder {s : State} (h : FixedEncode s) (ho : (runEncoder s).encOvf = false) :
    (runEncoder s).encCount.toNat = (packedStream s.codes (sourceBytes s s.encSrc s.encLen.toNat)).length ∧
    sourceBytes (runEncoder s) s.encDst (runEncoder s).encCount.toNat =
      packedStream s.codes (sourceBytes s s.encSrc s.encLen.toNat) := by
  have htwins := twins_sourceTwin h
  obtain ⟨hfit, hcount, hmem⟩ := flushed_sourceTwin h rfl (htwins.ovf.symm.trans ho)
  set ys := packedStream s.codes (sourceBytes s s.encSrc s.encLen.toNat)
  have hlt : ys.length < 2 ^ 64 := hfit.trans_lt s.encCap.isLt
  have hn : (runEncoder s).encCount.toNat = ys.length := by
    rw [show (runEncoder s).encCount = _ from htwins.count.trans hcount, BitVec.toNat_ofNat, Nat.mod_eq_of_lt hlt]
  refine ⟨hn, ?_⟩
  rw [hn]
  refine sourceBytes_eq (by rw [runEncoder_frame]; exact h.quiet) fun k hk => ?_
  have hbyte := htwins.bytes k (by rw [← hn] at hk; exact hk)
  rw [encDst_flushed, encDst_flushed, hmem] at hbyte
  exact hbyte.trans (readCell_writeBytes (good_sourceTwin h.table).memories.1 hlt.le s.encDst hk)

/-! ## Decoding what ENC_RUN wrote -/

/-- The decoder after DEC_INIT, given the `len` bytes at `src` to decode into `cap` bytes at `dst` (R174, R185). -/
def decodeCallOf (src len dst cap : Word) (s : State) : State :=
  decStart { s with decSrc := src, decLen := len, decDst := dst, decCap := cap }

/-- Settles O46: ENC_RUN leaves the packed stream of its source, which decodes to that source. -/
theorem encodeThenDecodeReturnsTheSource : Obligations.EncodeThenDecodeReturnsTheSource := by
  intro s t dst cap hc hm hq hw hapart hrun ho hcap hapart'
  cases hrun
  obtain ⟨hn, hbytes⟩ := sourceBytes_runEncoder ⟨hc, hm, hq, hw, hapart⟩ ho
  set xs := sourceBytes s s.encSrc s.encLen.toNat with hxs
  have hlen : xs.length = s.encLen.toNat := length_sourceBytes s _ _
  have hcodes : (runEncoder s).codes = s.codes := by rw [runEncoder_frame]
  set d := decodeCallOf s.encDst (runEncoder s).encCount dst cap (runEncoder s)
  have hdcodes : d.codes = s.codes := hcodes
  obtain ⟨u, hu, hok, hresult, -, -, hmem, -⟩ := validStreamDecodesToItsSource.2 d xs (hdcodes ▸ hc) rfl rfl
    (hdcodes ▸ hn) (hdcodes ▸ hbytes) (hlen ▸ hcap) (hlen ▸ hapart')
  refine ⟨d, u, rfl, hu, hok, ?_, fun k hk => ?_⟩
  · rw [hresult, hlen, BitVec.ofNat_toNat, BitVec.setWidth_eq]
  · have hwd : Memory.wf d.mem = true := wf_of_storesIn (stores_runEncoder s) hw
    have hk' : k < xs.length := hlen ▸ hk
    rw [hmem, ← hostRead_of_quiet hq]
    refine (readCell_writeBytes hwd (hlen ▸ s.encLen.isLt.le) dst hk').trans ?_
    simp [hxs, sourceBytes]

end Sys2Proof.Proofs
end

section
/-! PROOFS of the sink family (R210-R214): SINK_RESET, and how an encoder command in chain mode moves the cursor and
allocates chunks. -/

namespace Sys2Proof.Proofs

open Sys2Proof.Machine

/-! ## SINK_RESET -/

/-- Settles O48. -/
theorem sinkResetKeepsEmptyChunks : Obligations.SinkResetKeepsEmptyChunks := by
  intro s k
  have hlen : (keepChunks k.toNat s).chainFill.length = min k.toNat s.chainFill.length := List.length_replicate
  refine ⟨keepChunks k.toNat s, rfl, hlen, fillOf_keepChunks k.toNat s, fun h0 => ?_, fun h0 => ?_,
    chainLen_keepChunks k.toNat s, rfl⟩
  · rw [keepChunks_chainCur, ← hlen, if_pos h0]
  · rw [keepChunks_chainCur, ← hlen, if_neg h0]

/-! ## The cursor and the number of chunks -/

/-- A chain holds at least the chunks its stream needs (R39, R40); `⌈/⌉` is division rounded up. -/
theorem chunksOfStream_le {s : State} (hp : paramsOk s) (hc : chainOk s) :
    chainLen s ⌈/⌉ chunkBytes s ≤ s.chainFill.length := by
  rw [ceilDiv_le_iff_le_mul hp.1]
  obtain ⟨-, hcur⟩ := hc
  unfold chainLen
  split
  · exact Nat.zero_le _
  · rename_i c hsome
    rw [hsome] at hcur
    obtain ⟨hlt, hfill, -, -⟩ := hcur
    calc c * chunkBytes s + fillOf s c
        ≤ c * chunkBytes s + chunkBytes s := Nat.add_le_add_left hfill _
      _ = chunkBytes s * (c + 1) := by ring
      _ ≤ chunkBytes s * s.chainFill.length := Nat.mul_le_mul_left _ hlt

/-- Moving to chunk `n` allocates it only where the chain does not hold it (R212). -/
theorem chainAdvance_allocates {s t : State} {n : Nat} (hn : n ≤ s.chainFill.length)
    (h : chainAdvance n s = some t) :
    t.chainCur = some n ∧ t.chainFill.length = max s.chainFill.length (n + 1) := by
  unfold chainAdvance at h
  split at h
  · rename_i hlt
    cases h
    exact ⟨rfl, (Nat.max_eq_left hlt).symm⟩
  · split at h <;> cases h
    exact ⟨rfl, by rw [List.length_append, List.length_singleton]; omega⟩

/-- ChainEnsure allocates only the chunk it moves the cursor to (R212). -/
theorem chainEnsure_allocates {s t : State} {c : Nat} (hc : chainOk s) (h : chainEnsure s = some t)
    (ht : t.chainCur = some c) : t.chainFill.length = max s.chainFill.length (c + 1) := by
  have advance : ∀ n, n ≤ s.chainFill.length → chainAdvance n s = some t →
      t.chainFill.length = max s.chainFill.length (c + 1) := by
    intro n hn ha
    obtain ⟨hcur, hlen⟩ := chainAdvance_allocates hn ha
    cases hcur.symm.trans ht
    exact hlen
  obtain ⟨-, hcur⟩ := hc
  unfold chainEnsure at h
  split at h
  · exact advance 0 (Nat.zero_le _) h
  · rename_i d hsome
    rw [hsome] at hcur
    split at h
    · cases h
      cases hsome.symm.trans ht
      exact (Nat.max_eq_left hcur.1).symm
    · exact advance (d + 1) hcur.1 h

/-- A cursor with room stands at the chunk of the next byte. -/
theorem cursor_eq_div {s : State} {c : Nat} (hcur : s.chainCur = some c) (hroom : fillOf s c < chunkBytes s) :
    chainLen s / chunkBytes s = c := by
  simp only [chainLen, hcur]
  rw [Nat.mul_comm, Nat.mul_add_div (Nat.zero_lt_of_lt hroom), Nat.div_eq_of_lt hroom, Nat.add_zero]

/-- An append in chain mode leaves the cursor at the byte's chunk, which it allocates only where the chain does not hold
it (R210, R212). -/
theorem cursor_of_sinkAppend {v : Byte} {s t : State} (hm : s.sinkMode = .chain) (h : sinkAppend v s = some t)
    (hp : paramsOk s) (hc : chainOk s) :
    t.chainCur = some (chainLen s / chunkBytes s) ∧
    t.chainFill.length = max s.chainFill.length (chainLen s / chunkBytes s + 1) := by
  simp only [sinkAppend, hm] at h
  obtain ⟨he, -⟩ | ⟨u, c, he, hcur, hroom, -, hlen, -⟩ := chainEnsure_spec hp hc <;> rw [he] at h <;> cases h
  have hsize : chunkBytes u = chunkBytes s := by rw [(chainEnsure_some he).1]; rfl
  rw [← hlen, ← hsize, cursor_eq_div hcur hroom]
  simp only [chainPut, hcur]
  exact ⟨hcur, List.length_set.trans (chainEnsure_allocates hc he hcur)⟩

/-! ## How a chain grows -/

/-- A chain sink with its invariants. -/
structure ChainSink (s : State) : Prop where
  sink : SinkOk s
  mode : s.sinkMode = .chain

/-- The fields of the sinks, their memories and their parameters. -/
def sinkFields (s : State) : SinkMode × BitVec 32 × BitVec 16 × Memory × Memory × List Nat × Option Nat :=
  (s.sinkMode, s.chunkSize, s.maxChunks, s.mem, s.store, s.chainFill, s.chainCur)

/-- Bytes were appended: the stream is longer, the cursor is at the chunk of its last byte, and the chain has the chunks
the stream needs, or those it had before. -/
structure ChainExtended (s t : State) : Prop where
  longer : chainLen s < chainLen t
  cursor : t.chainCur = some ((chainLen t - 1) / chunkBytes s)
  count : t.chainFill.length = max s.chainFill.length (chainLen t ⌈/⌉ chunkBytes s)

/-- What the encoder does to a chain (R210, R212): it leaves it unchanged or extends it. -/
structure ChainGrew (s t : State) : Prop where
  sink : ChainSink t
  size : t.chunkSize = s.chunkSize
  chain : (t.chainFill = s.chainFill ∧ t.chainCur = s.chainCur) ∨ ChainExtended s t

theorem chainLen_congr {s t : State} (hsize : t.chunkSize = s.chunkSize) (hfill : t.chainFill = s.chainFill)
    (hcur : t.chainCur = s.chainCur) : chainLen t = chainLen s := by
  simp only [chainLen, chunkBytes, fillOf, hsize, hfill, hcur]

/-- An operation that leaves the sink alone leaves the chain unchanged. -/
theorem chainGrew_of_sinkFields {s t : State} (hs : ChainSink s) (h : sinkFields t = sinkFields s) :
    ChainGrew s t := by
  obtain ⟨⟨hp, hm, hc⟩, hmode⟩ := hs
  cases s; cases t
  simp only [sinkFields, Prod.mk.injEq] at h
  obtain ⟨rfl, rfl, rfl, rfl, rfl, rfl, rfl⟩ := h
  exact ⟨⟨⟨hp, hm, hc⟩, hmode⟩, rfl, .inl ⟨rfl, rfl⟩⟩

theorem ChainExtended.trans {s t u : State} (hb : 0 < chunkBytes s) (hsize : chunkBytes t = chunkBytes s)
    (h : ChainExtended s t) (k : ChainExtended t u) : ChainExtended s u where
  longer := h.longer.trans k.longer
  cursor := hsize ▸ k.cursor
  count := by
    have hmono : chainLen t ⌈/⌉ chunkBytes s ≤ chainLen u ⌈/⌉ chunkBytes s :=
      (gc_mul_ceilDiv hb).monotone_l k.longer.le
    rw [k.count, h.count, hsize, Nat.max_assoc, Nat.max_eq_right hmono]

theorem ChainGrew.trans {s t u : State} (h : ChainGrew s t) (k : ChainGrew t u) : ChainGrew s u := by
  refine ⟨k.sink, k.size.trans h.size, ?_⟩
  have hbytes : chunkBytes t = chunkBytes s := congrArg BitVec.toNat h.size
  obtain ⟨hfill, hcur⟩ | hext := h.chain
  · have hlen := chainLen_congr h.size hfill hcur
    obtain ⟨kfill, kcur⟩ | ⟨klonger, kcursor, kcount⟩ := k.chain
    · exact .inl ⟨kfill.trans hfill, kcur.trans hcur⟩
    · exact .inr ⟨hlen ▸ klonger, hbytes ▸ kcursor, by rw [kcount, hfill, hbytes]⟩
  · obtain ⟨kfill, kcur⟩ | kext := k.chain
    · have hlen := chainLen_congr k.size kfill kcur
      exact .inr ⟨hlen ▸ hext.longer, by rw [kcur, hlen, hext.cursor], by rw [kfill, hlen, hext.count]⟩
    · exact .inr (hext.trans (hbytes ▸ h.sink.sink.params.1) hbytes kext)

/-! ## What each encoder operation does to a chain -/

theorem chainGrew_sinkAppend {v : Byte} {s t : State} (hs : ChainSink s) (h : sinkAppend v s = some t) :
    ChainGrew s t := by
  obtain ⟨hsink, hm⟩ := hs
  obtain ⟨-, hlen⟩ := chainLen_of_sinkAppend hm h hsink.params hsink.chain hsink.memories.2.2.1
  obtain ⟨hcur, hcount⟩ := cursor_of_sinkAppend hm h hsink.params hsink.chain
  have hmode : t.sinkMode = .chain := by rw [sinkAppend_frame h]; exact hm
  have hsize : t.chunkSize = s.chunkSize := by rw [sinkAppend_frame h]
  refine ⟨⟨sinkOk_of_sinkAppend hsink h, hmode⟩, hsize, .inr ⟨by omega, by rw [hcur, hlen, Nat.add_sub_cancel], ?_⟩⟩
  have hb : 0 < chunkBytes s := hsink.params.1
  have hneed : (chainLen s + 1) ⌈/⌉ chunkBytes s = chainLen s / chunkBytes s + 1 := by
    rw [Nat.ceilDiv_eq_add_pred_div, Nat.add_right_comm, Nat.add_sub_cancel, Nat.add_div_right _ hb]
  rw [hcount, hlen, hneed]

theorem chainGrew_drainBytes (fuel : Nat) {s : State} (hs : ChainSink s) : ChainGrew s (drainBytes fuel s) := by
  induction fuel generalizing s with
  | zero => exact chainGrew_of_sinkFields hs rfl
  | succ fuel ih =>
    rw [drainBytes]
    split
    · split
      · exact chainGrew_of_sinkFields hs rfl
      · rename_i t ht
        have append := chainGrew_sinkAppend hs ht
        have drop : ChainGrew t (dropByte t) := chainGrew_of_sinkFields append.sink rfl
        exact append.trans (drop.trans (ih drop.sink))
    · exact chainGrew_of_sinkFields hs rfl

theorem chainGrew_symStep (b : Byte) {s : State} (hs : ChainSink s) : ChainGrew s (symStep b s) := by
  rw [symStep]
  split
  · exact chainGrew_of_sinkFields hs rfl
  · have push : ChainGrew s (pushCode (codeOf s.codes b.toNat) s) := chainGrew_of_sinkFields hs rfl
    exact push.trans (chainGrew_drainBytes 8 push.sink)

theorem chainGrew_flushStep {s : State} (hs : ChainSink s) : ChainGrew s (flushStep s) := by
  rw [flushStep]
  split
  · exact chainGrew_of_sinkFields hs rfl
  · split
    · exact chainGrew_of_sinkFields hs rfl
    · split
      · exact chainGrew_of_sinkFields hs rfl
      · rename_i t ht
        have append := chainGrew_sinkAppend hs ht
        exact append.trans (chainGrew_of_sinkFields append.sink rfl)

theorem chainGrew_encLoop (n : Nat) (i : Word) {s : State} (hs : ChainSink s) : ChainGrew s (encLoop n i s) := by
  induction n generalizing i s with
  | zero => exact chainGrew_of_sinkFields hs rfl
  | succ n ih =>
    have sym := chainGrew_symStep (hostRead s (s.encSrc + i)) hs
    simp only [encLoop]
    split
    · exact sym
    · exact sym.trans (ih (i + 1#64) sym.sink)

theorem chainGrew_runEncoder {s : State} (hs : ChainSink s) : ChainGrew s (runEncoder s) := by
  have start : ChainGrew s (encStart s) := chainGrew_of_sinkFields hs rfl
  have loop := chainGrew_encLoop s.encLen.toNat 0#64 start.sink
  have flush := chainGrew_flushStep loop.sink
  exact start.trans (loop.trans (flush.trans (chainGrew_of_sinkFields flush.sink rfl)))

theorem chainGrew_of_encoderCommand {c : Instr} {s t : State} (hc : isEncoderCommand c = true)
    (h : exec c s = .next t) (hs : ChainSink s) : ChainGrew s t := by
  obtain rfl | ⟨b, rfl⟩ | rfl | rfl := (isEncoderCommand_iff c).mp hc <;> cases h
  · exact chainGrew_of_sinkFields hs rfl
  · exact chainGrew_symStep b hs
  · exact chainGrew_flushStep hs
  · exact chainGrew_runEncoder hs

/-- Settles O50: the command leaves the chain unchanged, with all the chunks its stream needs, or extends it. -/
theorem chainGrowsByTheChunksItNeeds : Obligations.ChainGrowsByTheChunksItNeeds := by
  intro i s t hs hm hi h
  obtain ⟨-, hsize, ⟨hfill, hcur⟩ | ⟨hlonger, hcursor, hcount⟩⟩ :=
    chainGrew_of_encoderCommand hi h ⟨sinkOk_of_good hs, hm⟩
  · have hlen := chainLen_congr hsize hfill hcur
    have hneed := chunksOfStream_le hs.params hs.chain
    refine ⟨hlen.ge, fun _ => ⟨hfill, hcur⟩, fun hlt => absurd hlt (by omega), ?_⟩
    rw [hfill, hlen]
    exact (Nat.max_eq_left hneed).symm
  · exact ⟨hlonger.le, fun heq => absurd heq (by omega), fun _ => hcursor, hcount⟩

end Sys2Proof.Proofs
end

section
/-! PROOFS of the exceptions family (R240-R257): an illegal command is recorded and nothing else, idle loses no state,
and a nibble that failed fails again from the node kept. -/

namespace Sys2Proof.Proofs

open Sys2Proof.Machine

/-! ## Illegal commands -/

/-- A value that is not legal in R95's words decodes to an error (R94). -/
theorem decode_error_of_not_legalWord {w : Word} (h : ¬ legalWord w) : ∃ e, decode w = .error e := by
  cases hw : decode w with
  | ok c => exact absurd (legalWord_of_decode hw) h
  | error e => exact ⟨e, rfl⟩

/-- ERR_CMD keeps the first illegal value: while ILL is 1 another one changes nothing (R243). -/
theorem raiseError_illegalCommand_eq_ite (w : Word) (s : State) :
    raiseError (.illegalCommand w) s = if s.ill then s else { s with errCmd := w, ill := true } := by
  rw [raiseError_illegalCommand]
  cases hill : s.ill with
  | false => rfl
  | true =>
    show { s with ill := true } = s
    rw [← hill]

/-- Settles O23: the value decodes to an error, so its write raises the error. -/
theorem illegalCommandIsRecorded : Obligations.IllegalCommandIsRecorded := by
  intro s w hw
  obtain ⟨e, he⟩ := decode_error_of_not_legalWord hw
  rw [exec_wr_cmd, dispatch_error he, raiseError_illegalCommand_eq_ite]

/-! ## Idle -/

/-- Settles O9: it is the case of `step` for no pending event. -/
theorem idleLosesNoState : Obligations.IdleLosesNoState := by
  intro s h
  simp only [step, h]

/-! ## A nibble that fails -/

/-- DEC_NIB ends in InvalidCode only if T answers INVALID, and then changes nothing but the code (R175). -/
theorem invalid_of_nibStep {n : BitVec 4} {s : State} (hs : s.decCode = .ok)
    (h : (nibStep n s).decCode = .invalidCode) :
    transition s.codes (nodeAt s.codes s.decNode) n = .invalid ∧ nibStep n s = { s with decCode := .invalidCode } := by
  obtain hinv | ⟨y, -, e⟩ | ⟨y, b, -, -, e⟩ | ⟨y, b, -, -, e⟩ := nibStep_cases n hs
  · exact hinv
  all_goals rw [e] at h
  · exact nomatch hs.symm.trans h
  · exact nomatch h
  · exact nomatch hs.symm.trans h

/-- A node index written to DEC_STATE as a value with no other bit set loads that node (R180). -/
theorem exec_wr_decState_setWidth (node : BitVec 8) (s : State) :
    exec (.wr 64 0x130#12 (node.setWidth 64)) s = .next (decLoad node s) := by
  have hnode : (node.setWidth 64).extractLsb' 0 8 = node := by
    rw [BitVec.extractLsb'_setWidth_of_le (by decide), BitVec.extractLsb'_eq_self]
  refine (exec_wr_reg (r := .decState) (by decide) _ s).trans ?_
  rw [regWrite, hnode]

/-- Settles O47: the failing nibble changed only the code, so the loaded state has the table and the node that nibble
was INVALID at. -/
theorem refedInvalidNibbleFailsAgain : Obligations.RefedInvalidNibbleFailsAgain := by
  intro s t n hs h ht
  cases h
  obtain ⟨hinv, e⟩ := invalid_of_nibStep hs ht
  rw [e]
  refine ⟨rfl, _, exec_wr_decState_setWidth s.decNode _, rfl, ?_⟩
  exact ((decNibTakesOneTransition _ n).2 rfl).1 hinv

end Sys2Proof.Proofs
end

section
/-! PROOFS of the reset family (R270, R271, with the reset column of R20): the reset input, and what the block shows
right after reset. -/

namespace Sys2Proof.Proofs

open Sys2Proof.Machine

/-! ## The reset input -/

/-- Settles O10: the step on the reset input is `resetBlock`, which is the reset column. -/
theorem resetInputResetsTheBlock : Obligations.ResetInputResetsTheBlock := by
  intro s rest h
  simp only [step, h, resetBlock_eq]

/-! ## The reset column -/

/-- The reset column of R20, as values to read; PARAM's row is not a constant but the build parameters (R22). -/
def resetColumn : Reg → Word
  | .id => 0x4855464643444331#64
  | .chainCur => 0xFFFFFFFFFFFFFFFF#64
  | .decState => 0x100#64
  | _ => 0#64

/-- Right after reset the node is the root, which is accepting and of depth 0 (R50, R55, R271). -/
theorem decStateValue_reset : decStateValue State.reset = 0x100#64 := by
  have hroot : nodeAt State.reset.codes State.reset.decNode = rootNode := nodeAt_zero tableOk_codeTable
  rw [decStateValue_eq, hroot]
  rfl

/-- Every register but PARAM reads its reset column right after reset (R20, R270). -/
theorem regValue_reset {r : Reg} (hr : r ≠ .param) : regValue r State.reset = resetColumn r := by
  cases r with
  | param => exact absurd rfl hr
  | decState => exact decStateValue_reset
  | _ => rfl

/-- Settles O14: RD of a register returns its reset column, and the two INIT commands write values that stand there. -/
theorem resetRegistersReadTheirColumn : Obligations.ResetRegistersReadTheirColumn := by
  have reads : ∀ r, r ≠ .param →
      exec (.rd 64 (regOffset r)) State.reset = .next (returned (resetColumn r) State.reset) :=
    fun _ hr => exec_rd_of_regValue (regValue_reset hr)
  refine ⟨reads .id nofun, reads .chainCur nofun, reads .decState nofun, fun off hoff => ?_, rfl, rfl⟩
  -- the offsets listed are those of the registers whose column is 0, in the order of R20's table
  obtain ⟨r, hr, rfl⟩ :
      ∃ r ∈ allRegs.filter (fun r => r ≠ .param ∧ resetColumn r = 0#64), regOffset r = off := List.mem_map.mp hoff
  obtain ⟨hparam, hzero⟩ := of_decide_eq_true (List.mem_filter.mp hr).2
  rw [reads r hparam, hzero]

end Sys2Proof.Proofs
end

section
/-! PROOFS of the round trips between commands and command words (R90-R95). -/

namespace Sys2Proof.Proofs

open Sys2Proof.Machine

/-! ## From a command to its word and back -/

/-- Every command has a command word (R93). -/
theorem exists_encode_of_isCommand {c : Instr} (hc : c.isCommand = true) : ∃ w, encode c = some w := by
  cases c with
  | rd | wr => cases hc
  | _ => exact ⟨_, rfl⟩

/-- Settles O4. -/
theorem decodeOfEncodeIsTheCommand : Obligations.DecodeOfEncodeIsTheCommand := by
  intro c hc
  obtain ⟨w, hw⟩ := exists_encode_of_isCommand hc
  exact ⟨w, hw, decode_of_encode hw⟩

/-- Settles O1: each word is the word of its command. -/
theorem sampleWordsDecode : Obligations.SampleWordsDecode :=
  ⟨decode_of_encode rfl, decode_of_encode rfl, decode_of_encode rfl, decode_of_encode rfl, decode_of_encode rfl,
    decode_of_encode rfl, decode_of_encode rfl, decode_of_encode rfl, decode_of_encode rfl, decode_of_encode rfl,
    decode_of_encode rfl, decode_of_encode rfl, decode_of_encode rfl, decode_of_encode rfl⟩

/-! ## From a word to its command and back -/

/-- A value with bits [63:32] at 0 is the word of its two fields (R90). -/
theorem commandWord_opcField_immField {w : Word} (hhigh : w.extractLsb' 32 32 = 0#32) :
    commandWord (opcField w) (immField w) = w := by
  have hzero := congrArg BitVec.toNat hhigh
  apply BitVec.eq_of_toNat_eq
  rw [toNat_commandWord, opcField, immField]
  simp only [BitVec.extractLsb'_toNat, BitVec.toNat_ofNat, Nat.shiftRight_eq_div_pow] at hzero ⊢
  omega

/-- An immediate with no bit outside its operand is that operand (R91, R92). -/
theorem setWidth_extractLsb'_of_and_not_mask {w : Nat} {imm : BitVec 24}
    (h : imm &&& ~~~((BitVec.allOnes w).setWidth 24) = 0#24) :
    (imm.extractLsb' 0 w).setWidth 24 = imm := by
  ext i hi
  have hbit : (imm &&& ~~~((BitVec.allOnes w).setWidth 24))[i] = false := by rw [h, BitVec.getElem_zero]
  by_cases hw : i < w
  · simp [hw, hi]
  · have hclear : imm[i] = false := by simpa [hw] using hbit
    simp [hw, hclear]

/-- The mode is read back from an immediate of format M (R91). -/
theorem immOfMode_modeOfImm {imm : BitVec 24} (h : imm &&& ~~~(opmask .M) = 0#24) :
    immOfMode (modeOfImm imm) = imm := by
  have hbit : ∀ x : BitVec 1, immOfMode (modeOfImm (x.setWidth 24)) = x.setWidth 24 := by decide
  rw [← setWidth_extractLsb'_of_and_not_mask (w := 1) h]
  exact hbit _

/-- An opcode without an operand names the command whose word it makes with the immediate 0 (R93). -/
theorem encode_of_commandOf_zero {opc : BitVec 8} {c : Instr} (hf : formatOf opc = some .N)
    (hc : commandOf opc 0#24 = some c) : encode c = some (commandWord opc 0#24) := by
  have hrows : ∀ o, formatOf o = some .N → (commandOf o 0#24).bind encode = some (commandWord o 0#24) := by decide
  rw [← hrows opc hf, hc, Option.bind_some]

/-- The command named by an opcode and a legal immediate has the word of these two (R93, R95). -/
theorem encode_of_commandOf {opc : BitVec 8} {imm : BitVec 24} {f : Format} {c : Instr} (hf : formatOf opc = some f)
    (himm : imm &&& ~~~(opmask f) = 0#24) (hc : commandOf opc imm = some c) :
    encode c = some (commandWord opc imm) := by
  cases f with
  | N =>
    obtain rfl : imm = 0#24 := BitVec.and_allOnes.symm.trans himm
    exact encode_of_commandOf_zero hf hc
  | B =>
    have hopc : ∀ o, formatOf o = some .B → o = 0x11#8 ∨ o = 0x22#8 := by decide
    have hoperand : (imm.extractLsb' 0 8).setWidth 24 = imm := setWidth_extractLsb'_of_and_not_mask himm
    obtain rfl | rfl := hopc opc hf <;> cases hc <;> rw [encode, hoperand]
  | Q =>
    have hopc : ∀ o, formatOf o = some .Q → o = 0x21#8 := by decide
    have hoperand : (imm.extractLsb' 0 4).setWidth 24 = imm := setWidth_extractLsb'_of_and_not_mask himm
    obtain rfl := hopc opc hf
    cases hc
    rw [encode, hoperand]
  | M =>
    have hopc : ∀ o, formatOf o = some .M → o = 0x24#8 := by decide
    obtain rfl := hopc opc hf
    cases hc
    rw [encode, immOfMode_modeOfImm himm]
  | K =>
    have hopc : ∀ o, formatOf o = some .K → o = 0x30#8 := by decide
    obtain rfl := hopc opc hf
    cases hc
    rfl

/-- A value that decodes is the word of the command it decodes to. -/
theorem encode_of_decode {w : Word} {c : Instr} (h : decode w = .ok c) : encode c = some w := by
  obtain ⟨hhigh, f, hf, himm⟩ := checks_of_decode h
  have hw : commandWord (opcField w) (immField w) = w := commandWord_opcField_immField hhigh
  obtain ⟨d, hd⟩ := commandOf_of_formatOf hf (immField w)
  have hdecode : decode w = .ok d := hw ▸ decode_commandWord hf (beq_iff_eq.mpr himm) hd
  obtain rfl : c = d := Except.ok.inj (h.symm.trans hdecode)
  rw [encode_of_commandOf hf himm hd, hw]

/-- Settles O5. -/
theorem encodeOfDecodeIsTheWord : Obligations.EncodeOfDecodeIsTheWord :=
  fun _ _ h => ⟨encode_of_decode h, decode_isCommand h⟩

end Sys2Proof.Proofs
end
